-- ==== Sys2Proof/Word.lean ====
section
/-! DEFINITION. The word types of the core: bytes and 32-bit words of the interface, the lane value and the sample pair. -/

namespace Sys2Proof

/-- One byte of a serialised word (R59). -/
abbrev Byte := BitVec 8

/-- One command, operand or response word (R53, R55, R57). -/
abbrev Word := BitVec 32

/-- One lane value: the bit pattern of an IEEE 754 binary32 number (R11, R92). -/
abbrev F32 := BitVec 32

/-- A sample pair: lane `l` is the first channel, lane `r` the second (R11, R28). -/
structure Pair where
  l : F32
  r : F32
deriving DecidableEq, Repr, Inhabited

/-- `splat(v)` of R11: the same value in both lanes. -/
def splat (v : F32) : Pair := ⟨v, v⟩

/-- The binary32 pattern of +0.0. -/
abbrev zeroBits : F32 := 0x00000000#32

/-- The binary32 pattern of 1.0. -/
abbrev oneBits : F32 := 0x3F800000#32

/-- `ZERO = splat(+0.0)` of R11. -/
def zeroPair : Pair := splat zeroBits

/-- `ONE = splat(1.0)` of R11. -/
def onePair : Pair := splat oneBits

end Sys2Proof
end

