-- ==== Sys2Proof/Config.lean ====
section
/-! DEFINITION. The constants of the hardware (R6), the types of the parameters the source leaves open (R8), and the free values (R94, and R69 where it states none). -/

namespace Sys2Proof

/-- F, the kernel length (R6, R7). -/
abbrev Config.F : Nat := 121

/-- C, the centre tap index, `F / 2` (R6). -/
abbrev Config.C : Nat := 60

/-- L, the delay-line length (R6, R7). -/
abbrev Config.L : Nat := 128

/-- NSLOT, the band-filter slots (R6). -/
abbrev Config.NSLOT : Nat := 5

/-- NB_MIN, the least legal band count (R6). -/
abbrev Config.NB_MIN : Nat := 2

/-- NB_MAX, the greatest legal band count (R6). -/
abbrev Config.NB_MAX : Nat := 5

/-- A kernel, the source's FirTapSequence: F pairs, tap 0 first (R15, R26). -/
abbrev Kernel := Vector Pair Config.F

/-- A delay line: L pairs (R15, R26). -/
abbrev DelayLine := Vector Pair Config.L

/-- NUM_FORMAT, the number format of one lane (R8). The spec describes one: R92 makes every lane value a
binary32 number, and R55 and R75 give the words of no other (log entry 6). A further format is a further
constructor here and its operations in `laneOps`. -/
inductive NumFormat where
  /-- IEEE 754 binary32. -/
  | binary32
deriving DecidableEq, Repr

/-- SUBNORMAL_MODE (R8, R95). -/
inductive SubnormalMode where
  /-- Gradual underflow. -/
  | ieee
  /-- Subnormal operands and results read as zeros of their sign. -/
  | ftzDaz
deriving DecidableEq, Repr

/-- DESIGN_PASSES, the parameter P of R8 and R67. -/
inductive DesignPasses where
  /-- P = 1. -/
  | single
  /-- P = 2, the doubled-biquad designer. -/
  | double
deriving DecidableEq, Repr

/-- A binary32 NaN, by what R94 leaves free of it: its sign and its payload. The fraction field is
`payload + 1`, so every NaN is one of these and each of these is a NaN. -/
structure NaN32 where
  neg : Bool
  payload : Fin 8388607
deriving DecidableEq, Repr, Inhabited

/-- The operations of the design arithmetic that can answer NaN. -/
inductive LaneOp where
  | add
  | sub
  | mul
  | div
deriving DecidableEq, Repr

/-- FREE VALUE (R94, log entry 1): the NaN that the n-th operation of the sample stream returns if its
result is a NaN; one index for each lane operation that PROCESS performs. -/
opaque Config.streamNaN : Nat → NaN32

/-- FREE VALUE (R94, log entry 2): the NaN that an operation of UPDATE returns if its result is a NaN, as
an unknown function of the operation and its operands (R29, R32, R42 and R88 need it to be one). -/
opaque Config.designNaN : LaneOp → F32 → F32 → NaN32

/-- BiquadCoefs of R13, normalised so that a0 = 1. -/
structure BiquadCoefs where
  b0 : F32
  b1 : F32
  b2 : F32
  a1 : F32
  a2 : F32
deriving DecidableEq, Repr, Inhabited

/-- FREE VALUE (R69, log entry 16): what the reference BIQUAD_LP answers for arguments (sr, f, q) for which R69
states no coefficients. DESIGN CHOICE: an unknown function of the arguments. -/
opaque Config.unstatedLP : F32 → F32 → F32 → BiquadCoefs

/-- BiquadState of R14. -/
structure BiquadState where
  s1 : F32
  s2 : F32
deriving DecidableEq, Repr

/-- What the arithmetic depends on: NUM_FORMAT, SUBNORMAL_MODE and the NaN each operation of UPDATE draws. -/
structure Arith where
  format : NumFormat
  subnormal : SubnormalMode
  nan : LaneOp → F32 → F32 → NaN32

/-- The parameters of R8, NUM_FORMAT and SUBNORMAL_MODE in `arith`. They are fixed for the life of the core
(R17), so no field of State holds them: every operation, `execWith`, `stepWith` and `coreWith` take them as an
argument. -/
structure Params where
  arith : Arith
  /-- NAN_RESULT of the sample stream. -/
  streamNaN : Nat → NaN32
  biquadLP : F32 → F32 → F32 → BiquadCoefs
  biquadStep : BiquadCoefs → BiquadState → F32 → F32 × BiquadState
  biquadQ : F32
  passes : DesignPasses
  /-- WIN: entry i is the weight of tap C + i. -/
  win : Vector F32 61

end Sys2Proof
end

