-- ==== Sys2Proof/Machine/Arith.lean ====
section
/-! DEFINITION. The binary32 arithmetic of the lanes (R11, R92 to R96): operands become exact integers, the result is computed exactly, and one rounding narrows it. -/

namespace Sys2Proof.Machine

open Sys2Proof.Config

/-- The sign bit of a lane value. -/
def laneNegative (a : F32) : Bool := Nat.ble 0x80000000 a.toNat

/-- The 8 exponent bits (R92). -/
def laneExp (a : F32) : Nat := a.toNat / 0x800000 % 256

/-- The 23 fraction bits (R92). -/
def laneFrac (a : F32) : Nat := a.toNat % 0x800000

/-- The value is a NaN. -/
def isNaN (a : F32) : Bool := laneExp a == 255 && laneFrac a != 0

/-- The value is +∞ or −∞. -/
def isInf (a : F32) : Bool := laneExp a == 255 && laneFrac a == 0

/-- The value is +0.0 or −0.0. -/
def isZero (a : F32) : Bool := laneExp a == 0 && laneFrac a == 0

/-- The value is subnormal. -/
def isSubnormal (a : F32) : Bool := laneExp a == 0 && laneFrac a != 0

/-- The value is finite. -/
def isFinite (a : F32) : Bool := laneExp a != 255

/-- The magnitude of a finite value, counted in units of 2^−149, the least positive binary32 number. Of an
infinity it is 2^277 units, above every finite magnitude. -/
def laneMag (a : F32) : Nat :=
  if laneExp a = 0 then laneFrac a else (0x800000 + laneFrac a) * 2 ^ (laneExp a - 1)

/-- The exact value of a finite lane value, in units of 2^−149. -/
def laneVal (a : F32) : Int := if laneNegative a then -(laneMag a : Int) else (laneMag a : Int)

/-- The binary32 pattern with a sign and the remaining 31 bits. -/
def packBits (neg : Bool) (m : Nat) : F32 := BitVec.ofNat 32 ((if neg then 0x80000000 else 0) + m)

/-- A zero of a sign. -/
def signedZero (neg : Bool) : F32 := packBits neg 0

/-- An infinity of a sign. -/
def signedInf (neg : Bool) : F32 := packBits neg 0x7F800000

/-- The NaN a draw names (R94). -/
def nanBits (n : NaN32) : F32 := packBits n.neg (0x7F800001 + n.payload.val)

/-- Binary search of the position of the leading one bit. -/
def ilog2Aux (j n acc : Nat) : Nat :=
  match j with
  | 0 => acc
  | j + 1 => if 2 ^ 2 ^ j ≤ n then ilog2Aux j (n / 2 ^ 2 ^ j) (acc + 2 ^ j) else ilog2Aux j n acc

/-- ⌊log2 n⌋ for 0 < n < 2^4096, beyond every number the arithmetic forms; 0 for 0. -/
def ilog2 (n : Nat) : Nat := ilog2Aux 12 n 0

/-- n / 2^sh rounded to an integer, to nearest with ties to even (R11, R92). -/
def roundShift (n sh : Nat) : Nat :=
  let q := n / 2 ^ sh
  let r := n % 2 ^ sh
  if 2 ^ sh < 2 * r ∨ (2 * r = 2 ^ sh ∧ q % 2 = 1) then q + 1 else q

/-- How many bits of n a 24-bit significand cannot keep, when n counts units of 2^−(149 + k): at least k,
where the result is subnormal. -/
def dropBits (n k : Nat) : Nat := max (ilog2 n - 23) k

/-- The 31 low bits of the binary32 number nearest n · 2^−(149 + k) (R92). The exponent field and the
significand add up so that a carry out of the significand moves to the next exponent; overflow gives ∞. -/
def roundMag (n k : Nat) : Nat :=
  min ((dropBits n k - k) * 0x800000 + roundShift n (dropBits n k)) 0x7F800000

/-- R95: a subnormal operand or result is kept under `ieee` and becomes a zero of its sign under `ftz_daz`. -/
def flushSubnormal (m : SubnormalMode) (a : F32) : F32 :=
  if isSubnormal a then
    match m with
    | .ieee => a
    | .ftzDaz => signedZero (laneNegative a)
  else a

/-- `fl(x)` of R11 for the exact real x = n · 2^−(149 + k); `zeroNeg` is the sign of an exact zero (R93). -/
def fl (m : SubnormalMode) (n : Int) (k : Nat) (zeroNeg : Bool) : F32 :=
  flushSubnormal m (packBits (if n = 0 then zeroNeg else decide (n < 0)) (roundMag n.natAbs k))

/-- a + b (R92), with `nan` the draw for a NaN result (R94). -/
def laneAdd (m : SubnormalMode) (nan : NaN32) (a b : F32) : F32 :=
  let a := flushSubnormal m a
  let b := flushSubnormal m b
  if isNaN a || isNaN b then nanBits nan
  else if isInf a then
    if isInf b && laneNegative a != laneNegative b then nanBits nan else a
  else if isInf b then b
  else fl m (laneVal a + laneVal b) 0 (laneNegative a && laneNegative b)

/-- −a: the sign bit flipped exactly (`pneg` of R11). -/
def laneNeg (a : F32) : F32 := a ^^^ 0x80000000#32

/-- a − b (R92). -/
def laneSub (m : SubnormalMode) (nan : NaN32) (a b : F32) : F32 := laneAdd m nan a (laneNeg b)

/-- a · b (R92). -/
def laneMul (m : SubnormalMode) (nan : NaN32) (a b : F32) : F32 :=
  let a := flushSubnormal m a
  let b := flushSubnormal m b
  let neg := laneNegative a != laneNegative b
  if isNaN a || isNaN b then nanBits nan
  else if isInf a || isInf b then
    if isZero a || isZero b then nanBits nan else signedInf neg
  else fl m (laneVal a * laneVal b) 149 neg

/-- a · b + c with one rounding (R93). -/
def laneFma (m : SubnormalMode) (nan : NaN32) (a b c : F32) : F32 :=
  let a := flushSubnormal m a
  let b := flushSubnormal m b
  let c := flushSubnormal m c
  let neg := laneNegative a != laneNegative b
  if isNaN a || isNaN b || isNaN c then nanBits nan
  else if isInf a || isInf b then
    if isZero a || isZero b || (isInf c && laneNegative c != neg) then nanBits nan else signedInf neg
  else if isInf c then c
  else fl m (laneVal a * laneVal b + laneVal c * 2 ^ 149) 149 (neg && laneNegative c)

/-- The magnitude of a quotient of magnitudes in units of 2^−152: 2 · ⌊2^151 · a / b⌋, plus one when the
division leaves a remainder, so that rounding sees on which side of a tie the quotient lies. -/
def quotientMag (a b : Nat) : Nat :=
  2 * (a * 2 ^ 151 / b) + (if a * 2 ^ 151 % b = 0 then 0 else 1)

/-- a / b (R92). -/
def laneDiv (m : SubnormalMode) (nan : NaN32) (a b : F32) : F32 :=
  let a := flushSubnormal m a
  let b := flushSubnormal m b
  let neg := laneNegative a != laneNegative b
  if isNaN a || isNaN b then nanBits nan
  else if isInf a then
    if isInf b then nanBits nan else signedInf neg
  else if isInf b then signedZero neg
  else if isZero b then
    if isZero a then nanBits nan else signedInf neg
  else flushSubnormal m (packBits neg (roundMag (quotientMag (laneMag a) (laneMag b)) 3))

/-- The operations on one lane value (R11), each under a SUBNORMAL_MODE and with the draw for a NaN result. -/
structure LaneOps where
  add : SubnormalMode → NaN32 → F32 → F32 → F32
  sub : SubnormalMode → NaN32 → F32 → F32 → F32
  mul : SubnormalMode → NaN32 → F32 → F32 → F32
  div : SubnormalMode → NaN32 → F32 → F32 → F32
  fma : SubnormalMode → NaN32 → F32 → F32 → F32 → F32

/-- The lane operations of NUM_FORMAT (R8, R11). -/
def laneOps (f : NumFormat) : LaneOps :=
  match f with
  | .binary32 => { add := laneAdd, sub := laneSub, mul := laneMul, div := laneDiv, fma := laneFma }

/-- The lane operations of UPDATE, each with the NaN its operation and operands draw. -/
def designAdd (A : Arith) (a b : F32) : F32 := (laneOps A.format).add A.subnormal (A.nan .add a b) a b

@[inherit_doc designAdd]
def designSub (A : Arith) (a b : F32) : F32 := (laneOps A.format).sub A.subnormal (A.nan .sub a b) a b

@[inherit_doc designAdd]
def designMul (A : Arith) (a b : F32) : F32 := (laneOps A.format).mul A.subnormal (A.nan .mul a b) a b

@[inherit_doc designAdd]
def designDiv (A : Arith) (a b : F32) : F32 := (laneOps A.format).div A.subnormal (A.nan .div a b) a b

/-- `padd` of R11, lane by lane (R96). -/
def padd (A : Arith) (a b : Pair) : Pair := ⟨designAdd A a.l b.l, designAdd A a.r b.r⟩

/-- `psub` of R11. -/
def psub (A : Arith) (a b : Pair) : Pair := ⟨designSub A a.l b.l, designSub A a.r b.r⟩

/-- `pmul` of R11, in UPDATE. -/
def pmul (A : Arith) (a b : Pair) : Pair := ⟨designMul A a.l b.l, designMul A a.r b.r⟩

/-- The lane-wise reciprocal of R76. -/
def precip (A : Arith) (a : Pair) : Pair := ⟨designDiv A oneBits a.l, designDiv A oneBits a.r⟩

/-- `pneg` of R11. -/
def pneg (a : Pair) : Pair := ⟨laneNeg a.l, laneNeg a.r⟩

/-- `pmul` of R11 in the sample stream: lane l draws the NaN of index d, lane r that of d + 1. -/
def streamMul (P : Params) (d : Nat) (a b : Pair) : Pair :=
  ⟨(laneOps P.arith.format).mul P.arith.subnormal (P.streamNaN d) a.l b.l,
   (laneOps P.arith.format).mul P.arith.subnormal (P.streamNaN (d + 1)) a.r b.r⟩

/-- `pfma` of R11 in the sample stream. -/
def streamFma (P : Params) (d : Nat) (a b c : Pair) : Pair :=
  ⟨(laneOps P.arith.format).fma P.arith.subnormal (P.streamNaN d) a.l b.l c.l,
   (laneOps P.arith.format).fma P.arith.subnormal (P.streamNaN (d + 1)) a.r b.r c.r⟩

end Sys2Proof.Machine
end

