-- ==== Sys2Proof/Machine/Biquad.lean ====
section
/-! DEFINITION. The biquad collaborator: the reference definitions of BIQUAD_LP (R69) and BIQUAD_STEP (R70). -/

namespace Sys2Proof.Machine

open Sys2Proof.Config

/-! The binary64 values of R69 at the arguments of `statedArguments` are finite, and are held as exact integers in units of 2^−1074. -/

/-- n · 2^−k units rounded to a binary64 magnitude: 53 significant bits, to nearest, ties to even. -/
def round64Mag (n k : Nat) : Nat :=
  let sh := max (ilog2 n - 52) k
  roundShift n sh * 2 ^ (sh - k)

/-- The same for a signed value. -/
def round64 (n : Int) (k : Nat) : Int :=
  if n < 0 then -(round64Mag n.natAbs k : Int) else (round64Mag n.natAbs k : Int)

/-- x + y in binary64. -/
def add64 (x y : Int) : Int := round64 (x + y) 0

/-- x − y in binary64. -/
def sub64 (x y : Int) : Int := round64 (x - y) 0

/-- x · y in binary64. -/
def mul64 (x y : Int) : Int := round64 (x * y) 1074

/-- x / y in binary64 for y other than zero, with a sticky bit for the remainder. No caller divides by zero: the
divisors of `referenceLP` are sr, 2·q and 2, and a0 behind its test (log entry 16). -/
def div64 (x y : Int) : Int :=
  let n := x.natAbs * 2 ^ 1076
  let q := 2 * (n / y.natAbs) + (if n % y.natAbs = 0 then 0 else 1)
  if (x < 0) ≠ (y < 0) then -(round64Mag q 3 : Int) else (round64Mag q 3 : Int)

/-- A finite binary32 value as a binary64 value, exactly. -/
def widen (a : F32) : Int := laneVal a * 2 ^ 925

/-- π as a binary64 value, 0x400921FB54442D18. -/
def pi64 : Int := 0x1921FB54442D18 * 2 ^ 1023

/-- 1 as a binary64 value. -/
def one64 : Int := 2 ^ 1074

/-- A sum of the Taylor terms of cosine (odd = 0) or sine (odd = 1) after the term `t`, at 256 fraction
bits: the next term is −t · x² / ((2i − 1 + odd) · (2i + odd)). -/
def taylorSum (fuel i odd x2 t : Nat) (neg : Bool) (acc : Int) : Int :=
  match fuel with
  | 0 => acc
  | fuel + 1 =>
    let t' := t * x2 / 2 ^ 512 / ((2 * i - 1 + odd) * (2 * i + odd))
    taylorSum fuel (i + 1) odd x2 t' (!neg) (if neg then acc - (t' : Int) else acc + (t' : Int))

/-- cos(x) in binary64 for 0 ≤ x < 4: the exact cosine rounded to nearest (log entry 8). Below 2^−27 the
cosine rounds to 1. -/
def cos64 (x : Int) : Int :=
  let n := x.natAbs
  if n < 2 ^ 1047 then one64
  else
    let v := n / 2 ^ 818
    round64 (taylorSum 50 1 0 (v * v) (2 ^ 256) true (2 ^ 256) * 2 ^ 818) 0

/-- sin(x) in binary64 for 0 ≤ x < 4: the exact sine rounded to nearest (log entry 8). Below 2^−27 the
sine rounds to x. -/
def sin64 (x : Int) : Int :=
  let n := x.natAbs
  if n < 2 ^ 1047 then x
  else
    let v := n / 2 ^ 818
    round64 (taylorSum 50 1 1 (v * v) v true (v : Int) * 2 ^ 818) 0

/-- x / a0 in binary64, rounded once to binary32 (R69). A zero quotient has the sign of IEEE 754 (log entry 8). -/
def coefficient (a0 x : Int) : F32 :=
  packBits ((decide (x < 0)) != (decide (a0 < 0))) (roundMag (div64 x a0).natAbs 925)

/-- The arguments at which every real number of R69 before a0 is defined: a rate and a frequency that UPDATE
accepts (R113), so that w0 lies between 0 and π, and a finite Q other than zero. -/
def statedArguments (sr f q : F32) : Bool :=
  isFinite sr && isFinite f && decide (0 < laneVal f) && decide (2 * laneVal f < laneVal sr) &&
    isFinite q && !isZero q

/-- The reference BIQUAD_LP(sr, f, q) of R69, in binary64, each coefficient rounded once to binary32. DESIGN
CHOICE, log entry 16: R69 states nothing where BIQUAD_Q is zero, infinite or a NaN, or makes a0 zero, and UPDATE
asks for no sample rate or frequency that R113 refuses; there the coefficients are a free value. -/
def referenceLP (sr f q : F32) : BiquadCoefs :=
  if statedArguments sr f q then
    let w0 := div64 (mul64 (mul64 (2 * one64) pi64) (widen f)) (widen sr)
    let cw := cos64 w0
    let alpha := div64 (sin64 w0) (mul64 (2 * one64) (widen q))
    let a0 := add64 one64 alpha
    if a0 = 0 then unstatedLP sr f q
    else
      let oneMinus := sub64 one64 cw
      let half := div64 oneMinus (2 * one64)
      { b0 := coefficient a0 half
        b1 := coefficient a0 oneMinus
        b2 := coefficient a0 half
        a1 := coefficient a0 (mul64 (-(2 * one64)) cw)
        a2 := coefficient a0 (sub64 one64 alpha) }
  else unstatedLP sr f q

/-- The reference BIQUAD_STEP of R70: transposed direct form II, each operation rounded on its own. -/
def referenceStep (A : Arith) (co : BiquadCoefs) (st : BiquadState) (x : F32) : F32 × BiquadState :=
  let y := designAdd A (designMul A co.b0 x) st.s1
  let s1 := designAdd A (designSub A (designMul A co.b1 x) (designMul A co.a1 y)) st.s2
  let s2 := designSub A (designMul A co.b2 x) (designMul A co.a2 y)
  (y, ⟨s1, s2⟩)

/-- BQ_RESET of R14. -/
def biquadReset : BiquadState := ⟨zeroBits, zeroBits⟩

end Sys2Proof.Machine
end

