-- ==== Sys2Proof/Machine/Defaults.lean ====
section
/-! DEFINITION. The defaults that R8 decides for the parameters; `exec` and `step` run with them (log entry 6). -/

namespace Sys2Proof.Machine

open Sys2Proof.Config

/-- The window table WIN of R75, entries C to F − 1. -/
def blackmanHalf : Vector F32 61 :=
  #v[0x3F800000, 0x3F7FB65F, 0x3F7ED9ED, 0x3F7D6BF7, 0x3F7B6EAB, 0x3F78E50B, 0x3F75D2EB, 0x3F723CE7,
    0x3F6E2859, 0x3F699B4F, 0x3F649C7B, 0x3F5F3326, 0x3F596721, 0x3F5340B2, 0x3F4CC885, 0x3F460798,
    0x3F3F0729, 0x3F37D0A2, 0x3F306D87, 0x3F28E761, 0x3F2147AE, 0x3F1997CB, 0x3F11E0E5, 0x3F0A2BE7,
    0x3F028169, 0x3EF5D345, 0x3EE6D8B9, 0x3ED821C7, 0x3EC9BBFF, 0x3EBBB3D0, 0x3EAE147B, 0x3EA0E808,
    0x3E94373E, 0x3E88099A, 0x3E78CAA4, 0x3E629EAE, 0x3E4D96B0, 0x3E39B799, 0x3E270402, 0x3E157C49,
    0x3E051EB8, 0x3DEBCF55, 0x3DCFA378, 0x3DB5ABF2, 0x3D9DD825, 0x3D881529, 0x3D689C7D, 0x3D44DA84,
    0x3D24B63E, 0x3D08008C, 0x3CDD1477, 0x3CB049C9, 0x3C89477C, 0x3C4F71A6, 0x3C169EA9, 0x3BCF109D,
    0x3B8364F2, 0x3B12D2DA, 0x3A81DFC2, 0x39817DAA, 0x00000000]

/-- BIQUAD_Q of R8 and R68: the binary32 value nearest 1/√2. -/
def butterworthQ : F32 := 0x3F3504F3#32

/-- NUM_FORMAT = binary32 (R8, R92), SUBNORMAL_MODE = ieee (R8, R95), and the NaN of each operation free
(R94). -/
def defaultArith : Arith where
  format := .binary32
  subnormal := .ieee
  nan := Config.designNaN

/-- The parameters at the defaults of R8 but for the arithmetic, which the reference BIQUAD_STEP (R70) uses
too. -/
def defaultsUnder (A : Arith) : Params where
  arith := A
  streamNaN := Config.streamNaN
  biquadLP := referenceLP
  biquadStep := referenceStep A
  biquadQ := butterworthQ
  passes := .double
  win := blackmanHalf

/-- The parameters at the defaults of R8, the NaN draws left free. -/
def defaults : Params := defaultsUnder defaultArith

end Sys2Proof.Machine
end

