-- ==== Sys2Proof/Machine/Design.lean ====
section
/-! DEFINITION. The kernel design unit: DESIGN_LP (R67, R71 to R77). -/

namespace Sys2Proof.Machine

open Sys2Proof.Config

/-- P, the biquad passes in each direction (R67). -/
def passCount (p : DesignPasses) : Nat :=
  match p with
  | .single => 1
  | .double => 2

/-- The indices C..F−1, ascending. -/
def rightHalf : List (Fin F) := (List.finRange F).drop C

/-- The indices F−1 down to C−1 (R73). -/
def reverseRange : List (Fin F) := ((List.finRange F).drop (C - 1)).reverse

/-- Step 1, the seed (R71): ZERO everywhere, ONE at C. -/
def designSeed : Kernel := (Vector.replicate F zeroPair).set C onePair

/-- One pass of the biquad over the indices in order, from BQ_RESET, one state per lane (R70, R72, R73). -/
def biquadPass (P : Params) (co : BiquadCoefs) (indices : List (Fin F)) (work : Kernel) : Kernel :=
  (indices.foldl
    (fun (acc : Kernel × BiquadState × BiquadState) (n : Fin F) =>
      let left := P.biquadStep co acc.2.1 acc.1[n].l
      let right := P.biquadStep co acc.2.2 acc.1[n].r
      (acc.1.set n ⟨left.1, right.1⟩, left.2, right.2))
    (work, biquadReset, biquadReset)).1

/-- P passes in sequence. -/
def biquadPasses (P : Params) (co : BiquadCoefs) (indices : List (Fin F)) (n : Nat) (work : Kernel) :
    Kernel :=
  match n with
  | 0 => work
  | n + 1 => biquadPasses P co indices n (biquadPass P co indices work)

/-- Step 2a, the forward pass (R72). -/
def forwardPass (P : Params) (co : BiquadCoefs) (work : Kernel) : Kernel :=
  biquadPasses P co rightHalf (passCount P.passes) work

/-- Step 2b, the reverse pass (R73). -/
def reversePass (P : Params) (co : BiquadCoefs) (work : Kernel) : Kernel :=
  biquadPasses P co reverseRange (passCount P.passes) work

/-- The weight of tap C + i. -/
def windowAt (P : Params) (i : Nat) : F32 := P.win[i]?.getD zeroBits

/-- Step 3, the half Blackman window (R74). -/
def applyWindow (P : Params) (work : Kernel) : Kernel :=
  rightHalf.foldl (fun (w : Kernel) (n : Fin F) => w.set n (pmul P.arith w[n] (splat (windowAt P (n.val - C))))) work

/-- The sum of the right half, ascending (R76). -/
def rightSum (P : Params) (work : Kernel) : Pair :=
  rightHalf.foldl (fun s (n : Fin F) => padd P.arith s work[n]) zeroPair

/-- The binary32 pattern of 2.0. -/
def twoBits : F32 := 0x40000000#32

/-- The would-be total of R76: twice the right-half sum minus the once-counted centre tap. -/
def kernelTotal (P : Params) (work : Kernel) : Pair :=
  psub P.arith (pmul P.arith (splat twoBits) (rightSum P work)) work[C]

/-- Step 4, normalisation (R76). -/
def normalise (P : Params) (work : Kernel) : Kernel :=
  let factor := precip P.arith (kernelTotal P work)
  rightHalf.foldl (fun (w : Kernel) (n : Fin F) => w.set n (pmul P.arith w[n] factor)) work

/-- The mirror image F−1−k of tap k. -/
def mirrorTap (k : Fin F) : Fin F := k.rev

/-- Step 5, mirroring (R77): the right half copied into the left half. -/
def mirror (work : Kernel) : Kernel :=
  Vector.ofFn fun k => if k.val < C then work[mirrorTap k] else work[k]

/-- DESIGN_LP(co) (R67): the steps R71 to R77 in order. -/
def designLP (P : Params) (co : BiquadCoefs) : Kernel :=
  mirror (normalise P (applyWindow P (reversePass P co (forwardPass P co designSeed))))

end Sys2Proof.Machine
end

