-- ==== Sys2Proof/Machine/Assembly.lean ====
section
/-! DEFINITION. The band kernel assembler: ASSEMBLE (R81 to R85). -/

namespace Sys2Proof.Machine

open Sys2Proof.Config

/-- The low-pass kernel of one crossover frequency (R68, R81). -/
def lowPass (P : Params) (sr f : F32) : Kernel := designLP P (P.biquadLP sr f P.biquadQ)

/-- Tap-by-tap difference, each lane rounded once (R83). -/
def kernelSub (P : Params) (a b : Kernel) : Kernel := Vector.zipWith (psub P.arith) a b

/-- Tap-by-tap sum, each lane rounded once (R83). -/
def kernelAdd (P : Params) (a b : Kernel) : Kernel := Vector.zipWith (padd P.arith) a b

/-- Spectral inversion (R84): every tap negated, then ONE added at the centre tap. -/
def spectralInverse (P : Params) (acc : Kernel) : Kernel :=
  let neg := acc.map pneg
  neg.set C (padd P.arith neg[C] onePair)

/-- The interior bands (R83) and then the final band (R84), from the accumulated response `acc`. -/
def assembleFrom (P : Params) (sr : F32) (acc : Kernel) (freqs : List F32) : List Kernel :=
  match freqs with
  | [] => [spectralInverse P acc]
  | f :: rest =>
    let band := kernelSub P (lowPass P sr f) acc
    band :: assembleFrom P sr (kernelAdd P acc band) rest

/-- ASSEMBLE of R81 on the frequencies it reads, FREQ[0..nb−2]: band 0 is the first low-pass kernel (R82),
which also starts the accumulated response. -/
def assembleUsed (P : Params) (sr : F32) (freqs : List F32) : List Kernel :=
  match freqs with
  | [] => []
  | f :: rest => lowPass P sr f :: assembleFrom P sr (lowPass P sr f) rest

/-- ASSEMBLE(sr, nb, FREQ) (R81). -/
def assemble (P : Params) (sr : F32) (nb : Nat) (freqs : List F32) : List Kernel :=
  assembleUsed P sr (freqs.take (nb - 1))

end Sys2Proof.Machine
end

