-- ==== Sys2Proof/Syntax.lean ====
section
/-! DEFINITION. The commands of the core: one constructor for each row of spec/opcode_table.json (R54). -/

namespace Sys2Proof

/-- The five commands (R54) with their fields and operands (R53, R55). Fields are unsigned integers, as R56
reads them; `WellFormed` bounds them by their widths. The internal operations are no commands (R64). -/
inductive Instr where
  /-- `INIT mode` (R111). -/
  | init (mode : Nat)
  /-- `UPDATE nb, sr, f0, f1, f2, f3` (R113). -/
  | update (nb : Nat) (sr f0 f1 f2 f3 : F32)
  /-- `RESET` (R116). -/
  | reset
  /-- `PROCESS nb, l, r` (R118). -/
  | process (nb : Nat) (l r : F32)
  /-- `LATENCY` (R126). -/
  | latency
deriving DecidableEq, Repr

end Sys2Proof
end

