-- ==== Sys2Proof/WellFormed.lean ====
section
/-! DEFINITION. Which commands have an encoding: each field fits its width (R53). -/

namespace Sys2Proof

/-- MODE is the 4-bit field w[7:4] (R53). -/
abbrev modeFits (mode : Nat) : Prop := mode < 16

/-- NB is the 3-bit field w[10:8] (R53). -/
abbrev bandCountFits (nb : Nat) : Prop := nb < 8

/-- A command is well formed when its fields fit their widths; whether a value is legal (R56) is the
command's own check, not a matter of form. -/
abbrev WellFormed (i : Instr) : Prop :=
  (match i with
   | .init mode => decide (modeFits mode)
   | .update nb _ _ _ _ _ => decide (bandCountFits nb)
   | .reset => true
   | .process nb _ _ => decide (bandCountFits nb)
   | .latency => true) = true

end Sys2Proof
end

