-- ==== Sys2Proof/Decode.lean ====
section
/-! DEFINITION. The decoder (R53 to R63), total on any words and bytes, and after it the encoder (R53, R55, R65) and the serialisation (R59). -/

namespace Sys2Proof

/-- `w[hi:lo]` of R10, read as an unsigned integer. -/
def bits (w : Word) (hi lo : Nat) : Nat := w.toNat / 2 ^ lo % 2 ^ (hi - lo + 1)

/-- The opcodes of R54 that select a command. -/
inductive Opcode where
  | init
  | update
  | reset
  | process
  | latency
deriving DecidableEq, Repr

/-- The opcode map of R54; `none` is reserved. -/
def opcodeOf (op : Nat) : Option Opcode :=
  match op with
  | 1 => some .init
  | 2 => some .update
  | 3 => some .reset
  | 4 => some .process
  | 5 => some .latency
  | _ => none

/-- The two faults of decoding (R60). -/
inductive DecodeFault where
  /-- Step 1 of R60: OP is 0x0 or 0x6 to 0xF. -/
  | illegalOpcode (op : Nat)
  /-- Step 2 of R60: a reserved bit, or a field the command does not use, is non-zero. -/
  | reservedBits
deriving DecidableEq, Repr

/-- MODE is used by INIT alone (R53). -/
def usesMode (o : Opcode) : Bool := o == .init

/-- NB is used by UPDATE and PROCESS (R53). -/
def usesNb (o : Opcode) : Bool := o == .update || o == .process

/-- Step 2 of R60: the bits that must be zero are zero. -/
def unusedBitsClear (o : Opcode) (w : Word) : Bool :=
  bits w 31 11 == 0 && (usesMode o || bits w 7 4 == 0) && (usesNb o || bits w 10 8 == 0)

/-- The decode procedure of R60 on the command word. -/
def decodeOpcode (w : Word) : Except DecodeFault Opcode :=
  match opcodeOf (bits w 3 0) with
  | none => .error (.illegalOpcode (bits w 3 0))
  | some o => if unusedBitsClear o w then .ok o else .error .reservedBits

/-- How many operand words follow the command word: it depends only on OP (R55, R63). A word with a
reserved opcode is followed by none (log entry 5). -/
def operandCount (w : Word) : Nat :=
  match opcodeOf (bits w 3 0) with
  | some .update => 5
  | some .process => 2
  | _ => 0

/-- What the words at the command port are. -/
inductive Decoded where
  /-- A command, of `n` words. -/
  | command (i : Instr) (n : Nat)
  /-- A bundle of `n` words whose command word `w` encodes no command (R60). -/
  | rejected (f : DecodeFault) (w : Word) (n : Nat)
  /-- The host has not supplied all words of the next command yet. -/
  | incomplete
deriving DecidableEq, Repr

/-- Decoding of the words the host supplies: the command word, then its operands (R55, R60, R61). -/
def decode (ws : List Word) : Decoded :=
  match ws with
  | [] => .incomplete
  | w :: rest =>
    if rest.length < operandCount w then .incomplete
    else
      match decodeOpcode w with
      | .error f => .rejected f w (1 + operandCount w)
      | .ok .init => .command (.init (bits w 7 4)) 1
      | .ok .update =>
        match rest with
        | sr :: f0 :: f1 :: f2 :: f3 :: _ => .command (.update (bits w 10 8) sr f0 f1 f2 f3) 6
        | _ => .incomplete
      | .ok .reset => .command .reset 1
      | .ok .process =>
        match rest with
        | l :: r :: _ => .command (.process (bits w 10 8) l r) 3
        | _ => .incomplete
      | .ok .latency => .command .latency 1

/-- The command word (the formulas of R65). -/
def commandWord (i : Instr) : Word :=
  match i with
  | .init mode => BitVec.ofNat 32 (0x1 + mode * 16)
  | .update nb _ _ _ _ _ => BitVec.ofNat 32 (0x2 + nb * 256)
  | .reset => 0x00000003#32
  | .process nb _ _ => BitVec.ofNat 32 (0x4 + nb * 256)
  | .latency => 0x00000005#32

/-- The operand bundle, in the order of R55. -/
def operandWords (i : Instr) : List Word :=
  match i with
  | .init _ => []
  | .update _ sr f0 f1 f2 f3 => [sr, f0, f1, f2, f3]
  | .reset => []
  | .process _ l r => [l, r]
  | .latency => []

/-- The words of a command: the command word, then the operand bundle (R53, R55). -/
def encode (i : Instr) : List Word := commandWord i :: operandWords i

/-- A row of spec/opcode_table.json: `w` matches it when `(w & mask) = match` (R60). -/
structure OpcodeRow where
  opcode : Opcode
  pattern : Word
  mask : Word
deriving DecidableEq, Repr

/-- The five rows of spec/opcode_table.json. -/
def opcodeTable : List OpcodeRow :=
  [⟨.init, 0x00000001#32, 0xFFFFFF0F#32⟩,
   ⟨.update, 0x00000002#32, 0xFFFFF8FF#32⟩,
   ⟨.reset, 0x00000003#32, 0xFFFFFFFF#32⟩,
   ⟨.process, 0x00000004#32, 0xFFFFF8FF#32⟩,
   ⟨.latency, 0x00000005#32, 0xFFFFFFFF#32⟩]

/-- The match of R60 against one row. -/
def OpcodeRow.matchesWord (row : OpcodeRow) (w : Word) : Bool := w &&& row.mask == row.pattern

/-- R59: the bytes of a word, least significant first. -/
def wordToBytes (w : Word) : List Byte :=
  [w.extractLsb' 0 8, w.extractLsb' 8 8, w.extractLsb' 16 8, w.extractLsb' 24 8]

/-- R59: the bytes of a bundle, its words in order. -/
def wordsToBytes (ws : List Word) : List Byte := ws.flatMap wordToBytes

/-- R59 read back: each four bytes are a word; a last part shorter than a word is no word yet. -/
def bytesToWords (bs : List Byte) : List Word :=
  match bs with
  | b0 :: b1 :: b2 :: b3 :: rest => (b3 ++ b2 ++ b1 ++ b0) :: bytesToWords rest
  | _ => []

/-- `PROCESS.M nb, x` (R66). -/
def pseudoProcessM (nb : Nat) (x : F32) : List Instr := [.process nb x x]

/-- `FLUSH nb, n` (R66). -/
def pseudoFlush (nb n : Nat) : List Instr := List.replicate n (.process nb zeroBits zeroBits)

/-- `IMPULSE nb` (R66). -/
def pseudoImpulse (nb : Nat) : List Instr := [.process nb oneBits oneBits]

/-- The bytes of the longest command (6 words, R63) whose low `nbits` bits are those of `w`, numbered as
spec/opcode_table.json numbers them; every bit above is 0. -/
def tableBytes (nbits w : Nat) : List Byte :=
  (List.range 24).map fun j => BitVec.ofNat 8 (w % 2 ^ nbits / 2 ^ (8 * j))

/-- The words of one bundle that begins with `ws`: the command word and its operands, nothing after. -/
def firstBundle (ws : List Word) : List Word :=
  match ws with
  | [] => []
  | w :: rest => w :: rest.take (operandCount w)

/-- The command the decoder reads from an opcode-table word. -/
def decodeTableWord (nbits w : Nat) : Option Instr :=
  match decode (firstBundle (bytesToWords (tableBytes nbits w))) with
  | .command i _ => some i
  | _ => none

end Sys2Proof
end

