-- ==== Sys2Proof/Machine/State.lean ====
section
/-! DEFINITION. The state of the core (R16), its value after power-on reset (R35), the reasons a step can stop, and the named updates of single fields. -/

namespace Sys2Proof.Machine

open Sys2Proof.Config

/-- FSM, the engine state (R24). -/
inductive EngineState where
  | uninit
  | configured
  | processing
deriving DecidableEq, Repr

/-- FAULT_CODE by name: exactly the values of R128. -/
inductive FaultCode where
  | none
  | illegalOpcode
  | reservedBits
  | illegalMode
  | bandCount
  | sampleRate
  | frequency
  | staleCoefficients
deriving DecidableEq, Repr

/-- What the host does at the command port, in order (R45, R48, R141). -/
inductive HostEvent where
  /-- The host supplies one 32-bit word of a bundle (R55). -/
  | word (w : Word)
  /-- Power-on reset, the only event that is not a command (R141). -/
  | powerOn
deriving DecidableEq, Repr

/-- The reasons a step could stop the model. There is none: every violation the spec names is taken as its
fault entry (R129), which is a next state; a halted core answers every command (R131); a core without a
complete command waits (R140). So no meaning raises a fault, which is safe. -/
inductive Fault where
deriving DecidableEq, Repr

/-- The reasons the model could give a command no meaning. -/
inductive Refusal where
  /-- An instruction the model has no meaning for yet. No arm raises it: every command has its meaning. Safe. -/
  | notModelled (mnemonic : String)
deriving DecidableEq, Repr

/-- The state. The first ten fields are the persistent state of R16, "exactly the following, and nothing
else". `input`, `resp` and `draws` are the model's own: the host's side of the port and the free values. -/
structure State where
  /-- FSM (R24). -/
  fsm : EngineState
  /-- MODE, 4 bits (R23). -/
  mode : BitVec 4
  /-- CFG_NB (R22). -/
  cfgNb : Nat
  /-- COEF[b][k] (R26). -/
  coef : Vector Kernel NSLOT
  /-- DL[b][j] (R26). -/
  dl : Vector DelayLine NSLOT
  /-- CUR[b], 0..127 (R26, R34). -/
  cur : Vector (Fin L) NSLOT
  /-- OUT[b] (R27). -/
  out : Vector Pair NSLOT
  /-- FAULT_CODE (R21, R128). -/
  faultCode : FaultCode
  /-- FAULT_WORD (R21, R129). -/
  faultWord : Word
  /-- FAULT_INFO, 8 bits (R21, R129). -/
  faultInfo : BitVec 8
  /-- The model's own: what the host has still to do at the port, in order (log entry 3). -/
  input : List HostEvent
  /-- The model's own: the words of the core's last response (R57, log entry 4). -/
  resp : List Word
  /-- The model's own: how many lane operations the sample stream has performed, the index of the next
  free NaN (R94, log entry 1). -/
  draws : Nat
deriving DecidableEq, Repr

/-- The identity kernel (R15): ONE at k = C and ZERO elsewhere. -/
def identityKernel : Kernel := (Vector.replicate F zeroPair).set C onePair

/-- A delay line of ZERO (R102). -/
def clearLine : DelayLine := Vector.replicate L zeroPair

/-- The state after power-on reset: the column "after power-on reset" of R35, with nothing at the port. -/
def State.reset : State where
  fsm := .uninit
  mode := 0#4
  cfgNb := 0
  coef := Vector.replicate NSLOT identityKernel
  dl := Vector.replicate NSLOT clearLine
  cur := Vector.replicate NSLOT 0
  out := Vector.replicate NSLOT zeroPair
  faultCode := .none
  faultWord := 0#32
  faultInfo := 0#8
  input := []
  resp := []
  draws := 0

/-- `COEF[b] <- K`, all F taps. -/
def State.setCoef (b : Fin NSLOT) (K : Kernel) (s : State) : State := { s with coef := s.coef.set b K }

/-- `DL[b] <- line` and `CUR[b] <- p`. -/
def State.setHistory (b : Fin NSLOT) (line : DelayLine) (p : Fin L) (s : State) : State :=
  { s with dl := s.dl.set b line, cur := s.cur.set b p }

/-- `OUT[b] <- y`. -/
def State.setOut (b : Fin NSLOT) (y : Pair) (s : State) : State := { s with out := s.out.set b y }

/-- `CFG_NB <- nb` and `FSM <- e`. -/
def State.setConfig (nb : Nat) (e : EngineState) (s : State) : State := { s with cfgNb := nb, fsm := e }

/-- `MODE <- m`. -/
def State.setMode (m : BitVec 4) (s : State) : State := { s with mode := m }

/-- The three FAULT_* registers, all at once (R21). -/
def State.setFault (code : FaultCode) (w : Word) (info : BitVec 8) (s : State) : State :=
  { s with faultCode := code, faultWord := w, faultInfo := info }

/-- The response words. -/
def State.setResp (ws : List Word) (s : State) : State := { s with resp := ws }

/-- What the host has still to do. -/
def State.setInput (es : List HostEvent) (s : State) : State := { s with input := es }

/-- `n` more free NaN indices are used. -/
def State.useDraws (n : Nat) (s : State) : State := { s with draws := s.draws + n }

end Sys2Proof.Machine
end

