-- ==== Sys2Proof/Machine/Convolution.lean ====
section
/-! DEFINITION. The circular convolution filter: FIR_STEP (R97) and FIR_CLEAR (R102). -/

namespace Sys2Proof.Machine

open Sys2Proof.Config

/-- `(p − k) mod L` (R91, R97). -/
def historyIndex (p : Fin L) (k : Nat) : Fin L := p - Fin.ofNat L k

/-- `(p + 1) mod L`, the post-increment of the cursor (R91, R109). -/
def nextCursor (p : Fin L) : Fin L := p + 1

/-- The taps 1..F−1, ascending. -/
def laterTaps : List (Fin F) := (List.finRange F).drop 1

/-- The sum of R97: tap 0 by a plain multiply with the live input, then each later tap fused into the
accumulator, in ascending order. Tap k uses the NaN draws d + 2k and d + 2k + 1. -/
def convolve (P : Params) (d : Nat) (K : Kernel) (hist : DelayLine) (p : Fin L) (x : Pair) : Pair :=
  laterTaps.foldl (fun acc (k : Fin F) => streamFma P (d + 2 * k.val) K[k] hist[historyIndex p k.val] acc)
    (streamMul P d K[0] x)

/-- The lane operations of one FIR_STEP: F in each lane (R101). -/
def drawsPerStep : Nat := 2 * F

/-- FIR_STEP(b, x) of R97: the output, and the state with the input written at the cursor after the sum. -/
def firStep (P : Params) (b : Fin NSLOT) (x : Pair) (s : State) : Pair × State :=
  let p := s.cur[b]
  (convolve P s.draws s.coef[b] s.dl[b] p x,
   (s.setHistory b (s.dl[b].set p x) (nextCursor p)).useDraws drawsPerStep)

/-- FIR_CLEAR(b) of R102. -/
def firClear (b : Fin NSLOT) (s : State) : State := s.setHistory b clearLine 0

end Sys2Proof.Machine
end

