-- ==== Sys2Proof/Machine/Flags.lean ====
section
/-! DEFINITION. The STATUS word (R58). The core has no condition codes and no arithmetic flags (R20); its only flag is FAULTED. -/

namespace Sys2Proof.Machine

open Sys2Proof.Config

/-- STATUS[1:0]: FSM (R58). -/
def engineStateBits (e : EngineState) : BitVec 2 :=
  match e with
  | .uninit => 0
  | .configured => 1
  | .processing => 2

/-- The numbers of R128. -/
def faultCodeBits (c : FaultCode) : BitVec 4 :=
  match c with
  | .none => 0
  | .illegalOpcode => 1
  | .reservedBits => 2
  | .illegalMode => 3
  | .bandCount => 4
  | .sampleRate => 5
  | .frequency => 6
  | .staleCoefficients => 7

/-- The fault indication `FAULT_CODE ≠ 0` (R20, R58). -/
def faulted (s : State) : Bool := s.faultCode != .none

/-- The STATUS word of R58, the field of the highest bits first: 13 reserved bits, CFG_NB, FAULT_INFO,
FAULT_CODE, a reserved bit, FAULTED and FSM. -/
def statusWord (s : State) : Word :=
  0#13 ++ BitVec.ofNat 3 s.cfgNb ++ s.faultInfo ++ faultCodeBits s.faultCode ++ 0#1 ++
    BitVec.ofBool (faulted s) ++ engineStateBits s.fsm

end Sys2Proof.Machine
end

