-- ==== Sys2Proof/Machine/Operands.lean ====
section
/-! DEFINITION. The operand checks of the commands, in the order of R130: each answers the fault a command must raise, or none. -/

namespace Sys2Proof.Machine

open Sys2Proof.Config

/-- What `raise Fault(code, info)` carries (R12). -/
structure Violation where
  code : FaultCode
  info : BitVec 8
deriving DecidableEq, Repr

/-- The legal band counts (R56). -/
def legalBandCount (nb : Nat) : Bool := decide (NB_MIN ≤ nb ∧ nb ≤ NB_MAX)

/-- SR is not NaN, not infinite and greater than 0 (R113). -/
def legalSampleRate (sr : F32) : Bool := isFinite sr && decide (0 < laneVal sr)

/-- f is not NaN, greater than 0 and less than SR / 2, compared as exact reals (R113). An infinity counts
2^277 units in `laneVal`, so +∞ is above every SR / 2 and −∞ below 0. -/
def legalFrequency (sr f : F32) : Bool :=
  !isNaN f && decide (0 < laneVal f) && decide (2 * laneVal f < laneVal sr)

/-- The check of INIT (R111). -/
def initCheck (mode : Nat) : Option Violation :=
  if mode = 0 then none else some ⟨.illegalMode, BitVec.ofNat 8 mode⟩

/-- The check of FREQ[0..nb−2] in ascending order (R113): the lowest illegal index is reported. -/
def frequencyCheck (sr : F32) (used : List F32) : Option Violation :=
  match used.findIdx? (fun f => !legalFrequency sr f) with
  | some j => some ⟨.frequency, BitVec.ofNat 8 j⟩
  | none => none

/-- The checks of UPDATE (R113, R130): BAND_COUNT, then SAMPLE_RATE, then FREQUENCY. -/
def updateCheck (nb : Nat) (sr : F32) (freqs : List F32) : Option Violation :=
  if legalBandCount nb = false then some ⟨.bandCount, BitVec.ofNat 8 nb⟩
  else if legalSampleRate sr = false then some ⟨.sampleRate, 0#8⟩
  else frequencyCheck sr (freqs.take (nb - 1))

/-- The checks of PROCESS (R118, R121): BAND_COUNT, then STALE_COEFFICIENTS. -/
def processCheck (nb : Nat) (s : State) : Option Violation :=
  if legalBandCount nb = false then some ⟨.bandCount, BitVec.ofNat 8 nb⟩
  else if s.fsm ≠ .uninit ∧ s.cfgNb < nb then some ⟨.staleCoefficients, BitVec.ofNat 8 nb⟩
  else none

/-- The fault of a command word that encodes no command (R60, R128). -/
def decodeViolation (f : DecodeFault) : Violation :=
  match f with
  | .illegalOpcode op => ⟨.illegalOpcode, BitVec.ofNat 8 op⟩
  | .reservedBits => ⟨.reservedBits, 0#8⟩

end Sys2Proof.Machine
end

