-- ==== Sys2Proof/Machine/Ops.lean ====
section
/-! DEFINITION. The operations the commands share: responding (R57), fault entry (R129), the halted state (R131), power-on reset (R141), and the array operations over the slots. -/

namespace Sys2Proof.Machine

open Sys2Proof.Config

/-- The slots 0..4, ascending. -/
def slots : List (Fin NSLOT) := List.finRange NSLOT

/-- The response of R57: STATUS and FAULT_WORD of the state after the command, then the data words. -/
def respond (data : List Word) (s : State) : State :=
  s.setResp (statusWord s :: s.faultWord :: data)

/-- FAULT ENTRY (R129) for `raise Fault(code, info)` by the command word `w`, on the state before the
command: only the FAULT_* registers change, and the response carries no data words. There is no return from
it (R132). -/
def faultEntry (v : Violation) (w : Word) (s : State) : State :=
  respond [] (s.setFault v.code w v.info)

/-- The command step's test for the halted state (R107, R131): a faulted core performs no command and
answers with STATUS and FAULT_WORD alone. -/
def unlessHalted (cmd : State → State) (s : State) : State :=
  if s.faultCode = .none then cmd s else respond [] s

/-- A command that checks first and then runs (R107, R129): a violation is entered as a fault on the state
before the command. -/
def checked (check : State → Option Violation) (w : Word) (run : State → State) (s : State) : State :=
  unlessHalted
    (fun s =>
      match check s with
      | some v => faultEntry v w s
      | none => run s)
    s

/-- A command word that encodes no command (R60, R62). -/
def rejectWord (f : DecodeFault) (w : Word) (s : State) : State :=
  checked (fun _ => some (decodeViolation f)) w id s

/-- FIR_CLEAR of every slot (R116). -/
def clearAll (s : State) : State := slots.foldl (fun s b => firClear b s) s

/-- `OUT[0].l, OUT[0].r, …, OUT[4].r` (R57). -/
def outWords (s : State) : List Word := s.out.toList.flatMap fun y => [y.l, y.r]

/-- `COEF[b] <- BK[b]` for b in 0..nb−1 (R113). -/
def loadBands (bands : List Kernel) (s : State) : State :=
  (slots.zip bands).foldl (fun s bk => s.setCoef bk.1 bk.2) s

/-- `OUT[b] <- FIR_STEP(b, x)` (R118). -/
def stepSlot (P : Params) (x : Pair) (b : Fin NSLOT) (s : State) : State :=
  let r := firStep P b x s
  r.2.setOut b r.1

/-- The slots below nb, ascending. -/
def activeSlots (nb : Nat) : List (Fin NSLOT) := slots.take nb

/-- FIR_STEP of each active slot in ascending order (R118). -/
def stepSlots (P : Params) (nb : Nat) (x : Pair) (s : State) : State :=
  (activeSlots nb).foldl (fun s b => stepSlot P x b s) s

/-- `COEF[b] <- identity` and `OUT[b] <- ZERO` with FIR_CLEAR(b), the body of INIT's loop (R111). -/
def recreateSlot (b : Fin NSLOT) (s : State) : State :=
  (firClear b (s.setCoef b identityKernel)).setOut b zeroPair

/-- FSM after PROCESS (R24, R118). -/
def afterProcess (e : EngineState) : EngineState :=
  match e with
  | .uninit => .uninit
  | .configured => .processing
  | .processing => .processing

/-- POWER-ON RESET (R141): every piece of persistent state at its reset value. What the host has still to
do, and the free values already drawn, are not the core's state. -/
def powerOnReset (rest : List HostEvent) (s : State) : State :=
  { State.reset with input := rest, draws := s.draws }

/-- The words the host has supplied before its next power-on reset. -/
def leadingWords (es : List HostEvent) : List Word :=
  match es with
  | .word w :: rest => w :: leadingWords rest
  | _ => []

/-- What follows the leading words. -/
def afterWords (es : List HostEvent) : List HostEvent :=
  match es with
  | .word _ :: rest => afterWords rest
  | es => es

/-- No complete command stands at the port. If the host applies power-on reset now, the core is reset and a
part of a command already supplied is lost with it (log entry 7); else the core waits and holds its state
(R140, R141). -/
def waitForHost (s : State) : State :=
  match afterWords s.input with
  | .powerOn :: rest => powerOnReset rest s
  | _ => s

/-- The command step (R107) of a core that performs its commands by `perform`: one command in full (R40), a
command word that faults in decoding, power-on reset (R141), or waiting (R140). -/
def commandStep (perform : Instr → State → Host.Outcome State Fault Refusal) (s : State) :
    Host.Outcome State Fault Refusal :=
  match decode (leadingWords s.input) with
  | .command i n => perform i (s.setInput (s.input.drop n))
  | .rejected f w n => .next (rejectWord f w (s.setInput (s.input.drop n)))
  | .incomplete => .next (waitForHost s)

/-- The host's words of one command at the port. -/
def submit (ws : List Word) (s : State) : State := s.setInput (s.input ++ ws.map .word)

/-- The host's bytes of a bundle at the port (R59). -/
def submitBytes (bs : List Byte) (s : State) : State := submit (bytesToWords bs) s

/-- The bytes of the last response (R59). -/
def responseBytes (s : State) : List Byte := wordsToBytes s.resp

end Sys2Proof.Machine
end

