-- ==== Sys2Proof/Machine/Engine.lean ====
section
/-! DEFINITION. The five engine commands (R111 to R126), one meaning for each. -/

namespace Sys2Proof.Machine

open Sys2Proof.Config

/-- The state INIT leaves (R111). -/
def initEngine (mode : Nat) (s : State) : State :=
  slots.foldl (fun s b => recreateSlot b s) ((s.setMode (BitVec.ofNat 4 mode)).setConfig 0 .uninit)

/-- INIT (R111, R112). -/
def execInit (mode : Nat) (s : State) : Host.Outcome State Fault Refusal :=
  .next (checked (fun _ => initCheck mode) (commandWord (.init mode))
    (fun s => respond [] (initEngine mode s)) s)

/-- The state UPDATE leaves (R113): the nb kernels, CFG_NB and FSM, nothing else (R114). -/
def updateEngine (P : Params) (nb : Nat) (sr : F32) (freqs : List F32) (s : State) : State :=
  (loadBands (assemble P sr nb freqs) s).setConfig nb .configured

/-- UPDATE with the parameters P. -/
def updateWith (P : Params) (nb : Nat) (sr f0 f1 f2 f3 : F32) (s : State) : State :=
  checked (fun _ => updateCheck nb sr [f0, f1, f2, f3]) (commandWord (.update nb sr f0 f1 f2 f3))
    (fun s => respond [] (updateEngine P nb sr [f0, f1, f2, f3] s)) s

/-- UPDATE (R113 to R115). -/
def execUpdate (nb : Nat) (sr f0 f1 f2 f3 : F32) (s : State) : Host.Outcome State Fault Refusal :=
  .next (updateWith defaults nb sr f0 f1 f2 f3 s)

/-- RESET (R116, R117). -/
def execReset (s : State) : Host.Outcome State Fault Refusal :=
  .next (unlessHalted (fun s => respond [] (clearAll s)) s)

/-- The state PROCESS leaves (R118). -/
def processEngine (P : Params) (nb : Nat) (x : Pair) (s : State) : State :=
  let t := stepSlots P nb x s
  t.setConfig t.cfgNb (afterProcess t.fsm)

/-- PROCESS with the parameters P. -/
def processWith (P : Params) (nb : Nat) (l r : F32) (s : State) : State :=
  checked (processCheck nb) (commandWord (.process nb l r))
    (fun s => let t := processEngine P nb ⟨l, r⟩ s; respond (outWords t) t) s

/-- PROCESS (R118 to R125). -/
def execProcess (nb : Nat) (l r : F32) (s : State) : Host.Outcome State Fault Refusal :=
  .next (processWith defaults nb l r s)

/-- LAT, the word LATENCY answers: F / 2 (R25, R126). -/
def latencyWord : Word := BitVec.ofNat 32 (F / 2)

/-- LATENCY (R126). -/
def execLatency (s : State) : Host.Outcome State Fault Refusal :=
  .next (unlessHalted (respond [latencyWord]) s)

end Sys2Proof.Machine
end

