-- ==== Sys2Proof/Machine/Dispatch.lean ====
section
/-! DEFINITION. The dispatch: one arm for each command (R54). -/

namespace Sys2Proof.Machine

def exec (i : Instr) (s : State) : Host.Outcome State Fault Refusal :=
  match i with
  | .init mode => Sys2Proof.Machine.execInit mode s
  | .update nb sr f0 f1 f2 f3 => Sys2Proof.Machine.execUpdate nb sr f0 f1 f2 f3 s
  | .reset => Sys2Proof.Machine.execReset s
  | .process nb l r => Sys2Proof.Machine.execProcess nb l r s
  | .latency => Sys2Proof.Machine.execLatency s

end Sys2Proof.Machine
end

