-- ==== Sys2Proof/Machine/Step.lean ====
section
/-! DEFINITION. The command step (R107): it takes the next command the host has supplied and performs it. -/

namespace Sys2Proof.Machine

/-- One step of the core whose parameters are the defaults of R8 (R107). -/
def step (s : State) : Host.Outcome State Fault Refusal :=
  commandStep exec s

/-- `s` with the bundle of an opcode-table word at the port: the command word and its operand words, and
nothing after. -/
def State.withFetchWord (s : State) (nbits w : Nat) : State :=
  s.setInput ((firstBundle (bytesToWords (tableBytes nbits w))).map .word)

end Sys2Proof.Machine
end

