-- ==== Sys2Proof/Machine/Parameters.lean ====
section
/-! DEFINITION. The machine with the parameters of R8 as an argument: performing a command, the command step, and the core, for every value of the parameters. -/

namespace Sys2Proof.Machine

open Sys2Proof.Config

/-- Performing a command in a core whose parameters are P (R8, R17). INIT, RESET and LATENCY read none. -/
def execWith (P : Params) (i : Instr) (s : State) : Host.Outcome State Fault Refusal :=
  match i with
  | .init mode => execInit mode s
  | .update nb sr f0 f1 f2 f3 => .next (updateWith P nb sr f0 f1 f2 f3 s)
  | .reset => execReset s
  | .process nb l r => .next (processWith P nb l r s)
  | .latency => execLatency s

/-- The command step of a core whose parameters are P (R107). -/
def stepWith (P : Params) (s : State) : Host.Outcome State Fault Refusal := commandStep (execWith P) s

/-- The core whose parameters are P, fixed for its life (R17). At `defaults` it is the machine of `exec` and
`step` (log entry 6). -/
def coreWith (P : Params) : Host.Core where
  State := State
  Fault := Fault
  Refusal := Refusal
  step := stepWith P
  reset := State.reset

end Sys2Proof.Machine
end

