-- ==== Sys2Proof/Safety.lean ====
section
/-! DEFINITION. The terms in which claims are stated: a running core, the properties of kernels, the invariant of the state, and the response of a filter to a sequence of inputs. -/

namespace Sys2Proof.Machine

open Sys2Proof.Config

/-- The core is not halted: FAULT_CODE = 0 (R131). -/
def Running (s : State) : Prop := s.faultCode = .none

/-- A safe run: every state of it is running, so no command of it has faulted. -/
def SafeRun (states : List State) : Prop := ∀ s ∈ states, Running s

/-- `K[k] = K[F−1−k]` bit for bit (R32, R78, R86). -/
def KernelSymmetric (K : Kernel) : Prop := ∀ k : Fin F, K[k] = K[mirrorTap k]

/-- `K[k].l = K[k].r` bit for bit (R29). -/
def KernelLanesEqual (K : Kernel) : Prop := ∀ k : Fin F, K[k].l = K[k].r

/-- Both lanes are finite. -/
def PairFinite (x : Pair) : Prop := isFinite x.l = true ∧ isFinite x.r = true

/-- Every tap is finite. -/
def KernelFinite (K : Kernel) : Prop := ∀ k : Fin F, PairFinite K[k]

/-- The real number a finite lane value stands for. -/
def laneReal (a : F32) : ℚ := (laneVal a : ℚ) / 2 ^ 149

/-- TOL_SUM of R9. -/
def tolSum : ℚ := 1 / 100000

/-- TOL_REC of R9. -/
def tolRec : ℚ := 1 / 10000

/-- The unit impulse at the centre tap (R33). -/
def impulseAt (k : Fin F) : ℚ := if k.val = C then 1 else 0

/-- The real sum of the taps at k in lane l of the kernels (R33, R87). -/
def tapSumL (bands : List Kernel) (k : Fin F) : ℚ := (bands.map fun K => laneReal K[k].l).sum

/-- The real sum of the taps at k in lane r. -/
def tapSumR (bands : List Kernel) (k : Fin F) : ℚ := (bands.map fun K => laneReal K[k].r).sum

/-- The kernels sum to the unit impulse within TOL_REC in both lanes (R33, R87). -/
def Reconstructs (bands : List Kernel) : Prop :=
  ∀ k : Fin F, |tapSumL bands k - impulseAt k| ≤ tolRec ∧ |tapSumR bands k - impulseAt k| ≤ tolRec

/-- The 121 taps sum to 1 within TOL_SUM in both lanes (R79). -/
def SumsToOne (K : Kernel) : Prop :=
  |(K.toList.map fun x => laneReal x.l).sum - 1| ≤ tolSum ∧
    |(K.toList.map fun x => laneReal x.r).sum - 1| ≤ tolSum

/-- Every tap is finite and at most 1 in magnitude, in both lanes. -/
def KernelBounded (K : Kernel) : Prop :=
  KernelFinite K ∧ ∀ k : Fin F, |laneReal K[k].l| ≤ 1 ∧ |laneReal K[k].r| ≤ 1

/-- A legal sample rate, by the real number it stands for (R113). -/
def SampleRateLegal (sr : F32) : Prop := isFinite sr = true ∧ 0 < laneReal sr

/-- A legal crossover frequency, by the real number it stands for (R113). -/
def FrequencyLegal (sr f : F32) : Prop := isFinite f = true ∧ 0 < laneReal f ∧ laneReal f < laneReal sr / 2

/-- The persistent state of R16 is the same in s and t. -/
def SamePersistent (s t : State) : Prop :=
  t.fsm = s.fsm ∧ t.mode = s.mode ∧ t.cfgNb = s.cfgNb ∧ t.coef = s.coef ∧ t.dl = s.dl ∧ t.cur = s.cur ∧
    t.out = s.out ∧ t.faultCode = s.faultCode ∧ t.faultWord = s.faultWord ∧ t.faultInfo = s.faultInfo

/-- The persistent state is the same but for the FAULT_* registers. -/
def SameButFault (s t : State) : Prop :=
  t.fsm = s.fsm ∧ t.mode = s.mode ∧ t.cfgNb = s.cfgNb ∧ t.coef = s.coef ∧ t.dl = s.dl ∧ t.cur = s.cur ∧
    t.out = s.out

/-- The FAULT_* registers are the same. -/
def SameFault (s t : State) : Prop :=
  t.faultCode = s.faultCode ∧ t.faultWord = s.faultWord ∧ t.faultInfo = s.faultInfo

/-- What the model holds beside the persistent state and the response is the same. -/
def SameOutside (s t : State) : Prop := t.input = s.input ∧ t.draws = s.draws

/-- The fault `v` of the command word `w`, entered on the state s (R129): the FAULT_* registers hold it,
nothing else of the persistent state has changed, and the response is STATUS and FAULT_WORD alone. -/
def FaultTaken (v : Violation) (w : Word) (s t : State) : Prop :=
  t.faultCode = v.code ∧ t.faultWord = w ∧ t.faultInfo = v.info ∧ SameButFault s t ∧ SameOutside s t ∧
    t.resp = [statusWord t, w]

/-- The invariant of the state: the legal values of CFG_NB (R22) and MODE (R23), FSM = UNINIT exactly while
no UPDATE has completed, with the identity kernel in every slot (R121), symmetric kernels with equal lanes
(R29, R32), and FAULT_WORD and FAULT_INFO zero while no fault is recorded (R21). -/
structure EngineInv (s : State) : Prop where
  legalBands : s.cfgNb = 0 ∨ s.cfgNb = 2 ∨ s.cfgNb = 3 ∨ s.cfgNb = 4 ∨ s.cfgNb = 5
  legalMode : s.mode = 0#4
  uninitIff : s.fsm = .uninit ↔ s.cfgNb = 0
  uninitIdentity : s.fsm = .uninit → ∀ b : Fin NSLOT, s.coef[b] = identityKernel
  symmetric : ∀ b : Fin NSLOT, KernelSymmetric s.coef[b]
  lanesEqual : ∀ b : Fin NSLOT, KernelLanesEqual s.coef[b]
  noFault : s.faultCode = .none → s.faultWord = 0#32 ∧ s.faultInfo = 0#8

/-- The state after FIR_STEPs of slot b on the inputs in order (R98). -/
def feed (P : Params) (b : Fin NSLOT) (xs : List Pair) (s : State) : State :=
  match xs with
  | [] => s
  | x :: rest => feed P b rest (firStep P b x s).2

/-- The outputs of FIR_STEPs of slot b on the inputs in order (R98). -/
def filterOutputs (P : Params) (b : Fin NSLOT) (xs : List Pair) (s : State) : List Pair :=
  match xs with
  | [] => []
  | x :: rest => (firStep P b x s).1 :: filterOutputs P b rest (firStep P b x s).2

/-- The state after PROCESS commands of band count nb on the inputs in order (R118). -/
def processAll (nb : Nat) (xs : List Pair) (s : State) : State :=
  match xs with
  | [] => s
  | x :: rest =>
    match exec (.process nb x.l x.r) s with
    | .next t => processAll nb rest t
    | _ => s

/-- Two lane values are the same but for which NaN they are (R94). -/
def LaneAgrees (a b : F32) : Prop := a = b ∨ isNaN a = true ∧ isNaN b = true

/-- Two pairs are the same but for which NaN a lane holds. -/
def PairAgrees (x y : Pair) : Prop := LaneAgrees x.l y.l ∧ LaneAgrees x.r y.r

/-- The sum of the magnitudes of the taps C..F−1 in lane l. -/
def rightAbsL (work : Kernel) : ℚ := (rightHalf.map fun k : Fin F => |laneReal work[k].l|).sum

/-- The same in lane r. -/
def rightAbsR (work : Kernel) : ℚ := (rightHalf.map fun k : Fin F => |laneReal work[k].r|).sum

/-- The total of R76 can divide the taps: the right half is finite, the total is far from underflow and
overflow, and no less than the sum of the magnitudes of the right half. -/
def WellConditioned (P : Params) (work : Kernel) : Prop :=
  (∀ k : Fin F, 60 ≤ k.val → PairFinite work[k]) ∧ PairFinite (kernelTotal P work) ∧
    (1 / 2 ^ 100 ≤ laneReal (kernelTotal P work).l ∧ laneReal (kernelTotal P work).l ≤ 2 ^ 100 ∧
      rightAbsL work ≤ laneReal (kernelTotal P work).l) ∧
    (1 / 2 ^ 100 ≤ laneReal (kernelTotal P work).r ∧ laneReal (kernelTotal P work).r ≤ 2 ^ 100 ∧
      rightAbsR work ≤ laneReal (kernelTotal P work).r)

/-- The two-range split of R99: the run ending at the cursor, then the wrapped tail. -/
def splitHistory (hist : DelayLine) (p : Fin L) : List Pair :=
  ((hist.toList.take p.val).reverse ++ (hist.toList.drop p.val).reverse).take (F - 1)

/-- Two cascaded sections: each sample runs through both biquads in turn (R72). -/
def cascadePass (P : Params) (co : BiquadCoefs) (indices : List (Fin F)) (work : Kernel) : Kernel :=
  (indices.foldl
    (fun (acc : Kernel × (BiquadState × BiquadState) × (BiquadState × BiquadState)) (n : Fin F) =>
      let l1 := P.biquadStep co acc.2.1.1 acc.1[n].l
      let l2 := P.biquadStep co acc.2.1.2 l1.1
      let r1 := P.biquadStep co acc.2.2.1 acc.1[n].r
      let r2 := P.biquadStep co acc.2.2.2 r1.1
      (acc.1.set n ⟨l2.1, r2.1⟩, (l1.2, l2.2), (r1.2, r2.2)))
    (work, (biquadReset, biquadReset), (biquadReset, biquadReset))).1

end Sys2Proof.Machine
end

