-- ==== Sys2Proof/Certificates/Slice0/Obligations.lean ====
section
/-! DEFINITION. The statements for the provers, each from a numbered rule of spec/. -/

open Sys2Proof Sys2Proof.Machine Sys2Proof.Config

/-! ### Encoding -/

/-- R53, R55, R60, R63: decoding the words of a well-formed command, whatever follows them, gives the command
and its length. -/
def Obligations.DecodeOfEncodeIsTheCommand : Prop :=
  ∀ (i : Instr) (rest : List Word), WellFormed i →
    decode (encode i ++ rest) = .command i (encode i).length

/-- R53, R55: words that decode to a command begin with the words of that command, as many as it has, and it is
well formed. -/
def Obligations.EncodeOfDecodeIsTheWords : Prop :=
  ∀ (ws : List Word) (i : Instr) (n : Nat), decode ws = .command i n →
    WellFormed i ∧ n = (encode i).length ∧ ws.take n = encode i

/-- R60: the three tests in their order, and the equivalent match against the rows of the opcode table, of
which at most one matches. -/
def Obligations.DecodeProcedureInOrder : Prop :=
  ∀ w : Word,
    (bits w 3 0 = 0 ∨ 6 ≤ bits w 3 0 →
      decodeOpcode w = .error (.illegalOpcode (bits w 3 0)) ∧
        decodeViolation (.illegalOpcode (bits w 3 0)) = ⟨.illegalOpcode, BitVec.ofNat 8 (bits w 3 0)⟩) ∧
    (1 ≤ bits w 3 0 ∧ bits w 3 0 ≤ 5 →
      (bits w 31 11 ≠ 0 ∨ bits w 3 0 ≠ 1 ∧ bits w 7 4 ≠ 0 ∨
          bits w 3 0 ≠ 2 ∧ bits w 3 0 ≠ 4 ∧ bits w 10 8 ≠ 0) →
      decodeOpcode w = .error .reservedBits ∧ decodeViolation .reservedBits = ⟨.reservedBits, 0#8⟩) ∧
    (∀ o : Opcode, opcodeOf (bits w 3 0) = some o →
      bits w 31 11 = 0 → (bits w 3 0 = 1 ∨ bits w 7 4 = 0) →
      (bits w 3 0 = 2 ∨ bits w 3 0 = 4 ∨ bits w 10 8 = 0) → decodeOpcode w = .ok o) ∧
    (∀ o : Opcode, decodeOpcode w = .ok o ↔
      ∃ row ∈ opcodeTable, row.opcode = o ∧ row.matchesWord w = true) ∧
    (∀ r ∈ opcodeTable, ∀ r' ∈ opcodeTable, r.matchesWord w = true → r'.matchesWord w = true → r = r')

/-- R54, R65: command words written out from the encodings of the spec decode to their commands. -/
def Obligations.WrittenWordsDecode : Prop :=
  decodeTableWord 32 0x00000001 = some (.init 0) ∧
    decodeTableWord 32 0x000000F1 = some (.init 15) ∧
    decode [0x00000202#32, 0x473B8000#32, 0x447A0000#32, 0#32, 0#32, 0#32] =
      .command (.update 2 0x473B8000#32 0x447A0000#32 0#32 0#32 0#32) 6 ∧
    decodeTableWord 32 0x00000003 = some .reset ∧
    decode [0x00000504#32, 0x3F800000#32, 0xC0000000#32] =
      .command (.process 5 0x3F800000#32 0xC0000000#32) 3 ∧
    decodeTableWord 32 0x00000005 = some .latency

/-- R59: each word travels least significant byte first and the words in order, so the bytes of a bundle give
its words back. -/
def Obligations.BytesCarryTheWords : Prop :=
  (∀ (w : Word) (j : Nat), j < 4 → (wordToBytes w)[j]? = some (BitVec.ofNat 8 (w.toNat / 2 ^ (8 * j)))) ∧
    (∀ ws : List Word, bytesToWords (wordsToBytes ws) = ws)

/-- R58: every field of STATUS, for a CFG_NB of three bits. -/
def Obligations.StatusWordFields : Prop :=
  ∀ s : State, s.cfgNb < 8 →
    bits (statusWord s) 1 0 =
        (match s.fsm with
         | .uninit => 0
         | .configured => 1
         | .processing => 2) ∧
      (bits (statusWord s) 2 2 = 1 ↔ s.faultCode ≠ .none) ∧
      bits (statusWord s) 3 3 = 0 ∧
      bits (statusWord s) 7 4 =
        (match s.faultCode with
         | .none => 0
         | .illegalOpcode => 1
         | .reservedBits => 2
         | .illegalMode => 3
         | .bandCount => 4
         | .sampleRate => 5
         | .frequency => 6
         | .staleCoefficients => 7) ∧
      bits (statusWord s) 15 8 = s.faultInfo.toNat ∧
      bits (statusWord s) 18 16 = s.cfgNb ∧
      bits (statusWord s) 31 19 = 0

/-! ### The command step -/

/-- R107: with the words of a well-formed command at the port, the step is the command's own meaning on the
state from which its words are taken. The port as a list of words is the model's choice, log entry 3. -/
def Obligations.StepPerformsTheDecodedCommand : Prop :=
  ∀ (s : State) (i : Instr) (rest : List HostEvent), WellFormed i →
    s.input = (encode i).map .word ++ rest → step s = exec i { s with input := rest }

/-- R60, R107, R129: with a bundle at the port whose command word encodes no command, the step of a running
core is fault entry. How many operand words follow such a word is the model's inference, log entry 5. -/
def Obligations.StepFaultsOnAnUndecodableWord : Prop :=
  ∀ (s : State) (w : Word) (operands : List Word) (rest : List HostEvent) (f : DecodeFault), Running s →
    decodeOpcode w = .error f → operands.length = operandCount w →
    s.input = (w :: operands).map .word ++ rest →
    ∃ t, step s = .next t ∧ FaultTaken (decodeViolation f) w { s with input := rest } t

/-- R131: a halted core performs no command, whatever it is, and answers with STATUS and FAULT_WORD alone. -/
def Obligations.HaltedCorePerformsNoCommand : Prop :=
  ∀ (s : State) (i : Instr), ¬ Running s →
    ∃ t, exec i s = .next t ∧ SamePersistent s t ∧ SameOutside s t ∧ t.resp = [statusWord s, s.faultWord]

/-- R131, R141: from a halted state every step keeps the persistent state, the first fault with it, unless
the host applies power-on reset, which restores every reset value. -/
def Obligations.OnlyPowerOnResetLeavesTheHalt : Prop :=
  ∀ s : State, ¬ Running s →
    ∃ t, step s = .next t ∧
      (SamePersistent s t ∨ HostEvent.powerOn ∈ s.input ∧ SamePersistent State.reset t)

/-- R141: power-on reset, from any state, sets every piece of persistent state to its reset value. -/
def Obligations.PowerOnResetRestoresTheState : Prop :=
  ∀ (s : State) (rest : List HostEvent), s.input = .powerOn :: rest →
    ∃ t, step s = .next t ∧ t.fsm = .uninit ∧ t.mode = 0#4 ∧ t.cfgNb = 0 ∧
      (∀ (b : Fin NSLOT) (k : Fin F), t.coef[b][k] = if k.val = 60 then onePair else zeroPair) ∧
      (∀ (b : Fin NSLOT) (j : Fin L), t.dl[b][j] = zeroPair) ∧
      (∀ b : Fin NSLOT, t.cur[b].val = 0) ∧ (∀ b : Fin NSLOT, t.out[b] = zeroPair) ∧
      t.faultCode = .none ∧ t.faultWord = 0#32 ∧ t.faultInfo = 0#8 ∧ t.input = rest

/-- R140: while the host has supplied no complete command and applies no reset, the core holds its state. That
an incomplete bundle waits is the model's inference, log entry 9. -/
def Obligations.WaitingCoreHoldsItsState : Prop :=
  ∀ (s : State) (ws : List Word), s.input = ws.map .word → decode ws = .incomplete → step s = .next s

/-- R57: whatever a command does, its response begins with STATUS and FAULT_WORD of the state after it, and a
faulted core's response holds nothing else. -/
def Obligations.ResponseReflectsTheStateAfter : Prop :=
  ∀ (i : Instr) (s t : State), exec i s = .next t →
    t.resp.take 2 = [statusWord t, t.faultWord] ∧ (¬ Running t → t.resp.length = 2)

/-! ### INIT, RESET, LATENCY -/

/-- R111: INIT of mode 0 re-creates the engine and leaves the FAULT_* registers; INIT of another mode faults
ILLEGAL_MODE. -/
def Obligations.InitRecreatesTheEngineOrFaults : Prop :=
  ∀ (s : State) (mode : Nat), Running s → mode < 16 →
    (mode = 0 →
      ∃ t, exec (.init mode) s = .next t ∧ t.mode = 0#4 ∧ t.fsm = .uninit ∧ t.cfgNb = 0 ∧
        (∀ (b : Fin NSLOT) (k : Fin F), t.coef[b][k] = if k.val = 60 then onePair else zeroPair) ∧
        (∀ (b : Fin NSLOT) (j : Fin L), t.dl[b][j] = zeroPair) ∧ (∀ b : Fin NSLOT, t.cur[b].val = 0) ∧
        (∀ b : Fin NSLOT, t.out[b] = zeroPair) ∧ SameFault s t ∧ SameOutside s t ∧
        t.resp = [statusWord t, t.faultWord]) ∧
    (mode ≠ 0 →
      ∃ t, exec (.init mode) s = .next t ∧
        FaultTaken ⟨.illegalMode, BitVec.ofNat 8 mode⟩ (commandWord (.init mode)) s t)

/-- R116, R117: RESET clears DL and CUR of all five slots and leaves everything else. -/
def Obligations.ResetClearsEveryHistory : Prop :=
  ∀ s : State, Running s →
    ∃ t, exec .reset s = .next t ∧ (∀ (b : Fin NSLOT) (j : Fin L), t.dl[b][j] = zeroPair) ∧
      (∀ b : Fin NSLOT, t.cur[b].val = 0) ∧ t.coef = s.coef ∧ t.fsm = s.fsm ∧ t.cfgNb = s.cfgNb ∧
      t.mode = s.mode ∧ t.out = s.out ∧ SameFault s t ∧ SameOutside s t ∧
      t.resp = [statusWord t, t.faultWord]

/-- R126: LATENCY answers 60 and writes no state. -/
def Obligations.LatencyAnswersSixty : Prop :=
  ∀ s : State, Running s →
    ∃ t, exec .latency s = .next t ∧ SamePersistent s t ∧ SameOutside s t ∧
      t.resp = [statusWord t, t.faultWord, 0x0000003C#32]

/-- R42: performing RESET, LATENCY or UPDATE with equal operands twice in a row leaves the same state as
performing it once. For kernels with NaN taps this rests on log entry 2. -/
def Obligations.ResetLatencyUpdateAreIdempotent : Prop :=
  (∀ s t : State, exec .reset s = .next t → exec .reset t = .next t) ∧
    (∀ s t : State, exec .latency s = .next t → exec .latency t = .next t) ∧
    (∀ (nb : Nat) (sr f0 f1 f2 f3 : F32) (s t : State), exec (.update nb sr f0 f1 f2 f3) s = .next t →
      exec (.update nb sr f0 f1 f2 f3) t = .next t)

/-! ### UPDATE -/

/-- R113, R114: UPDATE on legal operands loads the nb kernels of ASSEMBLE into slots 0..nb−1, sets CFG_NB and
FSM, and leaves everything else. -/
def Obligations.UpdateLoadsTheBandKernels : Prop :=
  ∀ (s : State) (nb : Nat) (sr f0 f1 f2 f3 : F32), Running s → 2 ≤ nb → nb ≤ 5 → SampleRateLegal sr →
    (∀ f ∈ [f0, f1, f2, f3].take (nb - 1), FrequencyLegal sr f) →
    ∃ t, exec (.update nb sr f0 f1 f2 f3) s = .next t ∧
      (∀ b : Fin NSLOT, b.val < nb →
        (assemble defaults sr nb [f0, f1, f2, f3])[b.val]? = some t.coef[b]) ∧
      (∀ b : Fin NSLOT, nb ≤ b.val → t.coef[b] = s.coef[b]) ∧
      t.cfgNb = nb ∧ t.fsm = .configured ∧ t.mode = s.mode ∧ t.dl = s.dl ∧ t.cur = s.cur ∧
      t.out = s.out ∧ SameFault s t ∧ SameOutside s t ∧ t.resp = [statusWord t, t.faultWord]

/-- R113, R128, R130: the faults of UPDATE in their order: BAND_COUNT, then SAMPLE_RATE, then FREQUENCY at the
lowest illegal index. That FREQ[3] is checked for five bands is the model's reading, log entry 11. -/
def Obligations.UpdateFaultsInOrder : Prop :=
  ∀ (s : State) (nb : Nat) (sr f0 f1 f2 f3 : F32), Running s → nb < 8 →
    (nb < 2 ∨ 5 < nb →
      ∃ t, exec (.update nb sr f0 f1 f2 f3) s = .next t ∧
        FaultTaken ⟨.bandCount, BitVec.ofNat 8 nb⟩ (commandWord (.update nb sr f0 f1 f2 f3)) s t) ∧
    (2 ≤ nb ∧ nb ≤ 5 → ¬ SampleRateLegal sr →
      ∃ t, exec (.update nb sr f0 f1 f2 f3) s = .next t ∧
        FaultTaken ⟨.sampleRate, 0#8⟩ (commandWord (.update nb sr f0 f1 f2 f3)) s t) ∧
    (2 ≤ nb ∧ nb ≤ 5 → SampleRateLegal sr →
      ∀ (j : Nat) (f : F32), ([f0, f1, f2, f3].take (nb - 1))[j]? = some f → ¬ FrequencyLegal sr f →
        (∀ g ∈ [f0, f1, f2, f3].take j, FrequencyLegal sr g) →
        ∃ t, exec (.update nb sr f0 f1 f2 f3) s = .next t ∧
          FaultTaken ⟨.frequency, BitVec.ofNat 8 j⟩ (commandWord (.update nb sr f0 f1 f2 f3)) s t)

/-- R113, R114: the frequencies FREQ[nb−1..3] are neither read nor checked: UPDATE does the same whatever they
are. -/
def Obligations.UpdateIgnoresUnusedFrequencies : Prop :=
  ∀ (s : State) (nb : Nat) (sr f0 f1 f2 f3 g0 g1 g2 g3 : F32),
    [f0, f1, f2, f3].take (nb - 1) = [g0, g1, g2, g3].take (nb - 1) →
    ∃ t, exec (.update nb sr f0 f1 f2 f3) s = .next t ∧ exec (.update nb sr g0 g1 g2 g3) s = .next t

/-- R42, R88: the kernels UPDATE loads do not depend on the state: two running cores given equal legal
operands hold equal kernels in the nb slots, bit for bit. For NaN taps this rests on log entry 2. -/
def Obligations.UpdateIsAFunctionOfItsOperands : Prop :=
  ∀ (s s' t t' : State) (nb : Nat) (sr f0 f1 f2 f3 : F32), Running s → Running s' → 2 ≤ nb → nb ≤ 5 →
    SampleRateLegal sr → (∀ f ∈ [f0, f1, f2, f3].take (nb - 1), FrequencyLegal sr f) →
    exec (.update nb sr f0 f1 f2 f3) s = .next t → exec (.update nb sr f0 f1 f2 f3) s' = .next t' →
    ∀ b : Fin NSLOT, b.val < nb → t.coef[b] = t'.coef[b]

/-! ### PROCESS -/

/-- R118, R119, R121: PROCESS of a legal, fresh band count steps each active slot by its own FIR_STEP, leaves
the inactive slots, sets FSM, and answers all five outputs. The NaN draws of slot b follow those of the slots
before it (the model's choice, log entry 1). -/
def Obligations.ProcessStepsTheActiveSlots : Prop :=
  ∀ (s : State) (nb : Nat) (l r : F32), Running s → 2 ≤ nb → nb ≤ 5 → (s.fsm = .uninit ∨ nb ≤ s.cfgNb) →
    ∃ t, exec (.process nb l r) s = .next t ∧
      (∀ b : Fin NSLOT, b.val < nb →
        t.out[b] = (firStep defaults b ⟨l, r⟩ { s with draws := s.draws + 242 * b.val }).1 ∧
          t.dl[b] = s.dl[b].set s.cur[b] ⟨l, r⟩ ∧ t.cur[b].val = (s.cur[b].val + 1) % 128) ∧
      (∀ b : Fin NSLOT, nb ≤ b.val → t.out[b] = s.out[b] ∧ t.dl[b] = s.dl[b] ∧ t.cur[b] = s.cur[b]) ∧
      t.fsm = (if s.fsm = .uninit then .uninit else .processing) ∧
      t.coef = s.coef ∧ t.mode = s.mode ∧ t.cfgNb = s.cfgNb ∧ SameFault s t ∧ t.input = s.input ∧
      t.resp = [statusWord t, t.faultWord, t.out[0].l, t.out[0].r, t.out[1].l, t.out[1].r, t.out[2].l,
        t.out[2].r, t.out[3].l, t.out[3].r, t.out[4].l, t.out[4].r]

/-- R118, R121, R130: the faults of PROCESS in their order: BAND_COUNT, then STALE_COEFFICIENTS. -/
def Obligations.ProcessFaultsInOrder : Prop :=
  ∀ (s : State) (nb : Nat) (l r : F32), Running s → nb < 8 →
    (nb < 2 ∨ 5 < nb →
      ∃ t, exec (.process nb l r) s = .next t ∧
        FaultTaken ⟨.bandCount, BitVec.ofNat 8 nb⟩ (commandWord (.process nb l r)) s t) ∧
    (2 ≤ nb ∧ nb ≤ 5 → s.fsm ≠ .uninit → s.cfgNb < nb →
      ∃ t, exec (.process nb l r) s = .next t ∧
        FaultTaken ⟨.staleCoefficients, BitVec.ofNat 8 nb⟩ (commandWord (.process nb l r)) s t)

/-- R118: the slots share no state: what PROCESS leaves in an active slot depends on no other slot. Two cores
that agree in FSM, CFG_NB, the index of the next NaN draw, and the kernel, history, cursor and output of slot b
agree there after the same PROCESS. Equality of NaN outputs rests on the equal draws (the model's choice, log
entry 1). -/
def Obligations.ActiveSlotsShareNoState : Prop :=
  ∀ (s s' t t' : State) (nb : Nat) (l r : F32) (b : Fin NSLOT), Running s → Running s' → b.val < nb →
    s.fsm = s'.fsm → s.cfgNb = s'.cfgNb → s.draws = s'.draws →
    s.coef[b] = s'.coef[b] → s.dl[b] = s'.dl[b] → s.cur[b] = s'.cur[b] → s.out[b] = s'.out[b] →
    exec (.process nb l r) s = .next t → exec (.process nb l r) s' = .next t' →
    t.out[b] = t'.out[b] ∧ t.dl[b] = t'.dl[b] ∧ t.cur[b] = t'.cur[b]

/-- R31, R118, R119: a stream of PROCESS commands feeds every active slot with all of its inputs, and leaves
the history and the cursor of every inactive slot. -/
def Obligations.ProcessStreamFeedsTheActiveSlots : Prop :=
  ∀ (s : State) (nb : Nat) (xs : List Pair) (b : Fin NSLOT), Running s → 2 ≤ nb → nb ≤ 5 →
    (s.fsm = .uninit ∨ nb ≤ s.cfgNb) →
    (b.val < nb →
      (processAll nb xs s).dl[b] = (feed defaults b xs s).dl[b] ∧
        (processAll nb xs s).cur[b] = (feed defaults b xs s).cur[b]) ∧
    (nb ≤ b.val →
      (processAll nb xs s).dl[b] = s.dl[b] ∧ (processAll nb xs s).cur[b] = s.cur[b] ∧
        (processAll nb xs s).out[b] = s.out[b])

/-- R123, under gradual underflow, the SUBNORMAL_MODE of `exec` (log entry 6; under ftz_daz a subnormal tap would
come out as a zero): with an empty history, PROCESS on ONE and then ZERO inputs brings out the kernel of each active slot:
OUT[b] at step n is tap n bit for bit where the tap is non-zero and a zero where it is zero, for n ≤ 120, and a
zero after that. -/
def Obligations.ProcessedImpulseBringsOutTheKernel : Prop :=
  ∀ (s : State) (nb n : Nat) (b : Fin NSLOT), Running s → 2 ≤ nb → nb ≤ 5 →
    (s.fsm = .uninit ∨ nb ≤ s.cfgNb) → b.val < nb → (∀ j : Fin L, s.dl[b][j] = zeroPair) →
    KernelFinite s.coef[b] →
    (∀ k : Fin F, k.val = n →
      (if isZero s.coef[b][k].l then
          isZero (processAll nb (onePair :: List.replicate n zeroPair) s).out[b].l = true
        else (processAll nb (onePair :: List.replicate n zeroPair) s).out[b].l = s.coef[b][k].l) ∧
      (if isZero s.coef[b][k].r then
          isZero (processAll nb (onePair :: List.replicate n zeroPair) s).out[b].r = true
        else (processAll nb (onePair :: List.replicate n zeroPair) s).out[b].r = s.coef[b][k].r)) ∧
    (121 ≤ n →
      isZero (processAll nb (onePair :: List.replicate n zeroPair) s).out[b].l = true ∧
        isZero (processAll nb (onePair :: List.replicate n zeroPair) s).out[b].r = true)

/-- R42: after RESET, replaying an identical input sequence gives identical outputs, whatever the histories
were: two running cores with equal kernels in the active slots agree, but for which NaN a NaN output is. -/
def Obligations.ReplayAfterResetGivesTheSameOutput : Prop :=
  ∀ (s s' t t' : State) (nb : Nat) (xs : List Pair) (b : Fin NSLOT), Running s → Running s' → 2 ≤ nb → nb ≤ 5 →
    (s.fsm = .uninit ∨ nb ≤ s.cfgNb) → (s'.fsm = .uninit ∨ nb ≤ s'.cfgNb) → s.coef[b] = s'.coef[b] →
    b.val < nb → xs ≠ [] → exec .reset s = .next t → exec .reset s' = .next t' →
    PairAgrees (processAll nb xs t).out[b] (processAll nb xs t').out[b]

/-! ### Whole-machine rules -/

/-- R24: FSM after each command that completes without a fault. -/
def Obligations.EngineStateTransitions : Prop :=
  ∀ (i : Instr) (s t : State), Running s → exec i s = .next t → Running t →
    t.fsm =
      match i with
      | .init _ => .uninit
      | .update _ _ _ _ _ _ => .configured
      | .reset => s.fsm
      | .process _ _ _ => if s.fsm = .uninit then .uninit else .processing
      | .latency => s.fsm

/-- R41: the persistent state each command may write: LATENCY none, RESET DL and CUR, UPDATE COEF, CFG_NB and
FSM, PROCESS DL, CUR, OUT and FSM, INIT all but the FAULT_* registers, and a faulting command the FAULT_*
registers alone. -/
def Obligations.CommandsWriteOnlyTheirOwnState : Prop :=
  ∀ (i : Instr) (s t : State), Running s → exec i s = .next t →
    (¬ Running t → SameButFault s t) ∧
    (Running t → SameFault s t ∧
      match i with
      | .init _ => True
      | .update _ _ _ _ _ _ => t.mode = s.mode ∧ t.dl = s.dl ∧ t.cur = s.cur ∧ t.out = s.out
      | .reset => t.fsm = s.fsm ∧ t.mode = s.mode ∧ t.cfgNb = s.cfgNb ∧ t.coef = s.coef ∧ t.out = s.out
      | .process _ _ _ => t.mode = s.mode ∧ t.cfgNb = s.cfgNb ∧ t.coef = s.coef
      | .latency => SamePersistent s t)

/-- R21, R22, R23, R29, R32, R121: the invariant of the state survives every step. For NaN taps the symmetry
and the equality of the lanes rest on log entry 2. -/
def Obligations.EveryStepKeepsTheInvariant : Prop :=
  ∀ s t : State, EngineInv s → step s = .next t → EngineInv t

/-- R35: the state after power-on reset satisfies the invariant. -/
def Obligations.ResetStateSatisfiesTheInvariant : Prop := EngineInv State.reset

/-! ### DESIGN_LP -/

/-- R78: a designed kernel is symmetric bit for bit, in both lanes, for every value of the parameters. -/
def Obligations.DesignedKernelIsSymmetric : Prop :=
  ∀ (P : Params) (co : BiquadCoefs), KernelSymmetric (designLP P co)

/-- R29, R70: the two lanes of a designed kernel are equal bit for bit, for every value of the parameters. For
NaN taps this rests on log entry 2. -/
def Obligations.DesignedKernelLanesAreEqual : Prop :=
  ∀ (P : Params) (co : BiquadCoefs), KernelLanesEqual (designLP P co)

/-- R72: two whole passes in sequence, each from the reset state, equal one pass of two cascaded sections. -/
def Obligations.TwoPassesAreTwoCascadedSections : Prop :=
  ∀ (P : Params) (co : BiquadCoefs) (indices : List (Fin F)) (work : Kernel), indices.Nodup →
    biquadPasses P co indices 2 work = cascadePass P co indices work

/-- R72, R73: the forward pass leaves the entries below C and the reverse pass those below C − 1. -/
def Obligations.PassesLeaveTheLeftEntries : Prop :=
  ∀ (P : Params) (co : BiquadCoefs) (work : Kernel) (k : Fin F),
    (k.val < 60 → (forwardPass P co work)[k] = work[k]) ∧
      (k.val < 59 → (reversePass P co work)[k] = work[k])

/-- R74: the window weights the taps C..F−1, the n-th by WIN[n], and leaves the others. -/
def Obligations.WindowWeightsTheRightHalf : Prop :=
  ∀ (P : Params) (work : Kernel) (k : Fin F),
    (∀ i : Fin 61, k.val = 60 + i.val →
      (applyWindow P work)[k] = pmul P.arith work[k] (splat P.win[i])) ∧
    (k.val < 60 → (applyWindow P work)[k] = work[k])

/-- R76: normalisation multiplies each tap C..F−1 by the reciprocal of the total, lane by lane. -/
def Obligations.NormalisationScalesTheRightHalf : Prop :=
  ∀ (P : Params) (work : Kernel) (k : Fin F),
    (60 ≤ k.val →
      (normalise P work)[k] =
        pmul P.arith work[k]
          ⟨designDiv P.arith oneBits (kernelTotal P work).l,
            designDiv P.arith oneBits (kernelTotal P work).r⟩) ∧
    (k.val < 60 → (normalise P work)[k] = work[k])

/-- R73: what the reverse pass leaves below C does not matter: windowing, normalising and mirroring depend on
the entries C..F−1 alone. -/
def Obligations.KernelDependsOnTheRightHalfAlone : Prop :=
  ∀ (P : Params) (work work' : Kernel), (∀ k : Fin F, 60 ≤ k.val → work[k] = work'[k]) →
    mirror (normalise P (applyWindow P work)) = mirror (normalise P (applyWindow P work'))

/-- R79, for a design whose windowed right half is well conditioned: the 121 taps sum to 1 within TOL_SUM in
both lanes, under gradual underflow, for every collaborator and window. -/
def Obligations.DesignedKernelSumsToOne : Prop :=
  ∀ (P : Params) (co : BiquadCoefs), P.arith.subnormal = .ieee →
    WellConditioned P (applyWindow P (reversePass P co (forwardPass P co designSeed))) →
    SumsToOne (designLP P co)

/-! ### ASSEMBLE -/

/-- R81: ASSEMBLE gives exactly nb kernels. -/
def Obligations.AssemblyGivesOneKernelPerBand : Prop :=
  ∀ (P : Params) (sr : F32) (nb : Nat) (f0 f1 f2 f3 : F32), 2 ≤ nb → nb ≤ 5 →
    (assemble P sr nb [f0, f1, f2, f3]).length = nb

/-- R82, R83, R84 for three bands: the low-pass kernel, the difference of the second low-pass kernel and the
accumulated response, and the negated accumulated response with ONE added at the centre. -/
def Obligations.ThreeBandKernels : Prop :=
  ∀ (P : Params) (sr f0 f1 f2 f3 : F32),
    ∃ b0 b1 b2 : Kernel, assemble P sr 3 [f0, f1, f2, f3] = [b0, b1, b2] ∧ b0 = lowPass P sr f0 ∧
      (∀ k : Fin F, b1[k] = psub P.arith (lowPass P sr f1)[k] (lowPass P sr f0)[k]) ∧
      (∀ k : Fin F, k.val ≠ 60 → b2[k] = pneg (padd P.arith (lowPass P sr f0)[k] b1[k])) ∧
      b2[60] = padd P.arith (pneg (padd P.arith (lowPass P sr f0)[60] b1[60])) onePair

/-- R85: with two bands the second is the spectral inversion of the first, whatever FREQ[1..3] hold. -/
def Obligations.TwoBandKernels : Prop :=
  ∀ (P : Params) (sr f0 f1 f2 f3 : F32),
    ∃ b0 b1 : Kernel, assemble P sr 2 [f0, f1, f2, f3] = [b0, b1] ∧ b0 = lowPass P sr f0 ∧
      (∀ k : Fin F, k.val ≠ 60 → b1[k] = pneg b0[k]) ∧ b1[60] = padd P.arith (pneg b0[60]) onePair

/-- R29, R86: every band kernel is symmetric and has equal lanes, bit for bit, for every value of the
parameters and every set of frequencies. For NaN taps this rests on log entry 2. -/
def Obligations.BandKernelsAreSymmetricWithEqualLanes : Prop :=
  ∀ (P : Params) (sr : F32) (nb : Nat) (freqs : List F32), ∀ K ∈ assemble P sr nb freqs,
    KernelSymmetric K ∧ KernelLanesEqual K

/-- R87: where every designed low-pass kernel has finite taps of magnitude at most 1, the band kernels sum to
the unit impulse at the centre within TOL_REC, in both lanes, under gradual underflow, in every order of the
frequencies. -/
def Obligations.BandKernelsReconstructTheImpulse : Prop :=
  ∀ (P : Params) (sr : F32) (nb : Nat) (f0 f1 f2 f3 : F32), P.arith.subnormal = .ieee → 2 ≤ nb → nb ≤ 5 →
    (∀ f ∈ [f0, f1, f2, f3].take (nb - 1), KernelBounded (lowPass P sr f)) →
    Reconstructs (assemble P sr nb [f0, f1, f2, f3])

/-! ### FIR_STEP and FIR_CLEAR -/

/-- R97: FIR_STEP's output is the sum in the order of the rule, and it then writes the input at the cursor and
advances the cursor modulo L; nothing else of the state changes but the index of the next NaN draw (the
model's own, log entry 1). -/
def Obligations.FirStepIsTheTapSum : Prop :=
  ∀ (P : Params) (b : Fin NSLOT) (x : Pair) (s : State),
    ∃ t, firStep P b x s =
        ((List.range 120).foldl
          (fun acc j =>
            streamFma P (s.draws + 2 * (j + 1)) (s.coef[b][j + 1]?.getD zeroPair)
              (s.dl[b][(s.cur[b].val + 128 - (j + 1)) % 128]?.getD zeroPair) acc)
          (streamMul P s.draws s.coef[b][0] x), t) ∧
      t.dl[b] = s.dl[b].set s.cur[b] x ∧ t.cur[b].val = (s.cur[b].val + 1) % 128 ∧
      (∀ c : Fin NSLOT, c ≠ b → t.dl[c] = s.dl[c] ∧ t.cur[c] = s.cur[c]) ∧
      t.coef = s.coef ∧ t.fsm = s.fsm ∧ t.mode = s.mode ∧ t.cfgNb = s.cfgNb ∧ t.out = s.out ∧
      SameFault s t ∧ t.input = s.input ∧ t.resp = s.resp ∧ t.draws = s.draws + 242

/-- R98: after FIR_CLEAR and any inputs, the entry k behind the cursor holds the input k steps old, or ZERO
where there was none, for every k in 1..120. -/
def Obligations.DelayLineHoldsTheHistory : Prop :=
  ∀ (P : Params) (b : Fin NSLOT) (s : State) (xs : List Pair) (k : Nat), 1 ≤ k → k ≤ 120 →
    (feed P b xs (firClear b s)).dl[b][historyIndex (feed P b xs (firClear b s)).cur[b] k] =
      if k ≤ xs.length then xs[xs.length - k]?.getD zeroPair else zeroPair

/-- R99: the two contiguous ranges, one after the other, read for each k in ascending order exactly the entry
(p − k) mod 128. -/
def Obligations.TwoRangeSplitReadsTheSameEntries : Prop :=
  ∀ (hist : DelayLine) (p : Fin L),
    splitHistory hist p = (List.range' 1 120).map fun k => hist[historyIndex p k]

/-- R100: the entry at the cursor and the entries 121 to 127 behind it are not read: the output is the same
whatever they hold. -/
def Obligations.EightEntriesAreNeverRead : Prop :=
  ∀ (P : Params) (d : Nat) (K : Kernel) (hist : DelayLine) (p q : Fin L) (x y : Pair),
    (q = p ∨ ∃ k, 121 ≤ k ∧ k ≤ 127 ∧ q.val = (p.val + 128 - k) % 128) →
    convolve P d K (hist.set q y) p x = convolve P d K hist p x

/-- R96: nothing crosses between lanes: each lane of the output depends on that lane of the operands alone. -/
def Obligations.LanesDoNotMix : Prop :=
  ∀ (P : Params) (d : Nat) (K K' : Kernel) (hist hist' : DelayLine) (p : Fin L) (x x' : Pair),
    ((∀ k : Fin F, K[k].l = K'[k].l) → (∀ j : Fin L, hist[j].l = hist'[j].l) → x.l = x'.l →
      (convolve P d K hist p x).l = (convolve P d K' hist' p x').l) ∧
    ((∀ k : Fin F, K[k].r = K'[k].r) → (∀ j : Fin L, hist[j].r = hist'[j].r) → x.r = x'.r →
      (convolve P d K hist p x).r = (convolve P d K' hist' p x').r)

/-- R94, R103: a NaN in the live input or in any of the 120 entries read makes the output a NaN in its lane,
whatever the taps. -/
def Obligations.NaNReachesTheOutput : Prop :=
  ∀ (P : Params) (d : Nat) (K : Kernel) (hist : DelayLine) (p : Fin L) (x : Pair),
    (isNaN x.l = true ∨ (∃ k, 1 ≤ k ∧ k ≤ 120 ∧ isNaN hist[historyIndex p k].l = true) →
      isNaN (convolve P d K hist p x).l = true) ∧
    (isNaN x.r = true ∨ (∃ k, 1 ≤ k ∧ k ≤ 120 ∧ isNaN hist[historyIndex p k].r = true) →
      isNaN (convolve P d K hist p x).r = true)

/-- R104, for every value of the parameters with gradual underflow (log entry 6; under ftz_daz a subnormal input
would come out as a zero): with the identity kernel and finite inputs after a clear, the first 60 outputs are zeros and every
later output is, as a number, the input 60 steps before, in both lanes. -/
def Obligations.IdentityKernelIsAPureDelay : Prop :=
  ∀ (P : Params) (s : State) (b : Fin NSLOT) (xs : List Pair), P.arith.subnormal = .ieee →
    s.coef[b] = identityKernel → (∀ x ∈ xs, PairFinite x) →
    ∀ (n : Nat) (y : Pair), (filterOutputs P b xs (firClear b s))[n]? = some y →
      (n < 60 → isZero y.l = true ∧ isZero y.r = true) ∧
      (∀ x : Pair, 60 ≤ n → xs[n - 60]? = some x →
        PairFinite y ∧ laneVal y.l = laneVal x.l ∧ laneVal y.r = laneVal x.r)

/-- R105, for every value of the parameters with gradual underflow (log entry 6; under ftz_daz a subnormal tap
would come out as a zero): after a clear, ONE and then ZERO inputs bring out the kernel: output n is tap n bit for bit where the
tap is non-zero and a zero where it is zero, for n ≤ 120, and a zero after that. -/
def Obligations.ImpulseBringsOutTheKernel : Prop :=
  ∀ (P : Params) (s : State) (b : Fin NSLOT) (m n : Nat) (y : Pair), P.arith.subnormal = .ieee →
    KernelFinite s.coef[b] →
    (filterOutputs P b (onePair :: List.replicate m zeroPair) (firClear b s))[n]? = some y →
    (∀ k : Fin F, k.val = n →
      (if isZero s.coef[b][k].l then isZero y.l = true else y.l = s.coef[b][k].l) ∧
        (if isZero s.coef[b][k].r then isZero y.r = true else y.r = s.coef[b][k].r)) ∧
    (121 ≤ n → isZero y.l = true ∧ isZero y.r = true)

/-! ### Lane arithmetic -/

/-- R92, R93: under gradual underflow a finite fused multiply-add of finite operands is nearest to the exact
a·b + c: no finite value is nearer. -/
def Obligations.FusedMultiplyAddIsNearest : Prop :=
  ∀ (n : NaN32) (a b c y : F32), isFinite a = true → isFinite b = true → isFinite c = true →
    isFinite y = true → isFinite (laneFma .ieee n a b c) = true →
    |laneReal (laneFma .ieee n a b c) - (laneReal a * laneReal b + laneReal c)| ≤
      |laneReal y - (laneReal a * laneReal b + laneReal c)|

/-- R92: the same of sums, differences and products. -/
def Obligations.SumsAndProductsAreNearest : Prop :=
  ∀ (n : NaN32) (a b y : F32), isFinite a = true → isFinite b = true → isFinite y = true →
    (isFinite (laneAdd .ieee n a b) = true →
      |laneReal (laneAdd .ieee n a b) - (laneReal a + laneReal b)| ≤ |laneReal y - (laneReal a + laneReal b)|) ∧
    (isFinite (laneSub .ieee n a b) = true →
      |laneReal (laneSub .ieee n a b) - (laneReal a - laneReal b)| ≤ |laneReal y - (laneReal a - laneReal b)|) ∧
    (isFinite (laneMul .ieee n a b) = true →
      |laneReal (laneMul .ieee n a b) - laneReal a * laneReal b| ≤ |laneReal y - laneReal a * laneReal b|)

/-- R92: ties go to even: where another finite value lies exactly as near to the exact a·b + c as the result
does, the result's last significand bit is 0. -/
def Obligations.TiesRoundToEven : Prop :=
  ∀ (n : NaN32) (a b c y : F32), isFinite a = true → isFinite b = true → isFinite c = true →
    isFinite y = true → isFinite (laneFma .ieee n a b c) = true →
    laneReal y ≠ laneReal (laneFma .ieee n a b c) →
    |laneReal (laneFma .ieee n a b c) - (laneReal a * laneReal b + laneReal c)| =
      |laneReal y - (laneReal a * laneReal b + laneReal c)| →
    laneFrac (laneFma .ieee n a b c) % 2 = 0

/-- R92: a sum of finite operands overflows exactly when its magnitude reaches half a unit past the largest
finite number, and then to the infinity of the sign of the exact sum. -/
def Obligations.OverflowGivesInfinityOfTheSign : Prop :=
  ∀ (n : NaN32) (a b : F32), isFinite a = true → isFinite b = true →
    (isFinite (laneAdd .ieee n a b) = false ↔ (2 ^ 25 - 1) * 2 ^ 103 ≤ |laneReal a + laneReal b|) ∧
    (isFinite (laneAdd .ieee n a b) = false →
      laneAdd .ieee n a b = signedInf (decide (laneReal a + laneReal b < 0)))

/-- R93: an exactly zero a·b + c is +0.0, unless a·b and c are both zeros of negative sign. -/
def Obligations.ExactZeroSumsAreSigned : Prop :=
  ∀ (n : NaN32) (a b c : F32), isFinite a = true → isFinite b = true → isFinite c = true →
    laneReal a * laneReal b + laneReal c = 0 →
    laneFma .ieee n a b c =
      if (isZero a || isZero b) && isZero c && (laneNegative a != laneNegative b) && laneNegative c then
        0x80000000#32
      else 0x00000000#32

/-- R92, R94: a NaN operand gives a NaN, and so do ∞ − ∞, 0 · ∞, 0 / 0 and ∞ / ∞, while a non-zero finite
number divided by zero gives an infinity, in either subnormal mode. -/
def Obligations.SpecialOperands : Prop :=
  ∀ (m : SubnormalMode) (n : NaN32) (a b c : F32),
    (isNaN a = true ∨ isNaN b = true →
      isNaN (laneAdd m n a b) = true ∧ isNaN (laneSub m n a b) = true ∧ isNaN (laneMul m n a b) = true ∧
        isNaN (laneDiv m n a b) = true) ∧
    (isNaN a = true ∨ isNaN b = true ∨ isNaN c = true → isNaN (laneFma m n a b c) = true) ∧
    (isInf a = true → isNaN (laneSub m n a a) = true ∧ isNaN (laneDiv m n a a) = true) ∧
    (isZero a = true → isInf b = true →
      isNaN (laneMul m n a b) = true ∧ isNaN (laneMul m n b a) = true) ∧
    (isZero a = true → isZero b = true → isNaN (laneDiv m n a b) = true) ∧
    (isFinite a = true → isZero a = false → isSubnormal a = false → isZero b = true →
      isInf (laneDiv m n a b) = true)

/-- R95: under ftz_daz no lane operation returns a subnormal, and every subnormal operand is read as the zero of
its sign. -/
def Obligations.FlushModeNeverSeesSubnormals : Prop :=
  ∀ (n : NaN32) (a b c : F32),
    isSubnormal (laneAdd .ftzDaz n a b) = false ∧ isSubnormal (laneSub .ftzDaz n a b) = false ∧
      isSubnormal (laneMul .ftzDaz n a b) = false ∧ isSubnormal (laneDiv .ftzDaz n a b) = false ∧
      isSubnormal (laneFma .ftzDaz n a b c) = false ∧
    (isSubnormal a = true →
      laneAdd .ftzDaz n a b = laneAdd .ftzDaz n (signedZero (laneNegative a)) b ∧
        laneAdd .ftzDaz n b a = laneAdd .ftzDaz n b (signedZero (laneNegative a)) ∧
        laneSub .ftzDaz n a b = laneSub .ftzDaz n (signedZero (laneNegative a)) b ∧
        laneSub .ftzDaz n b a = laneSub .ftzDaz n b (signedZero (laneNegative a)) ∧
        laneMul .ftzDaz n a b = laneMul .ftzDaz n (signedZero (laneNegative a)) b ∧
        laneMul .ftzDaz n b a = laneMul .ftzDaz n b (signedZero (laneNegative a)) ∧
        laneDiv .ftzDaz n a b = laneDiv .ftzDaz n (signedZero (laneNegative a)) b ∧
        laneDiv .ftzDaz n b a = laneDiv .ftzDaz n b (signedZero (laneNegative a)) ∧
        laneFma .ftzDaz n a b c = laneFma .ftzDaz n (signedZero (laneNegative a)) b c ∧
        laneFma .ftzDaz n b a c = laneFma .ftzDaz n b (signedZero (laneNegative a)) c ∧
        laneFma .ftzDaz n b c a = laneFma .ftzDaz n b c (signedZero (laneNegative a)))

/-! ### The parameters as an argument -/

/-- R8, R17: for every value of the parameters there is the machine that has them. Its step performs the command
at the port with them; its UPDATE loads the kernels that ASSEMBLE gives under them; its PROCESS steps each active
slot by FIR_STEP under them; and `step` is the one at the defaults. The model's choices it rests on: the machine
at the defaults, log entry 6; the NaN draws, log entry 1; the port as a list of words, log entry 3; and, for
parameters with ftz_daz, that a subnormal sample rate or frequency is legal, log entry 15. -/
def Obligations.EveryParameterChoiceHasItsMachine : Prop :=
  (∀ s : State, step s = stepWith defaults s) ∧
  (∀ (P : Params) (s : State) (i : Instr) (rest : List HostEvent), WellFormed i →
    s.input = (encode i).map .word ++ rest → stepWith P s = execWith P i { s with input := rest }) ∧
  (∀ (P : Params) (s : State) (nb : Nat) (sr f0 f1 f2 f3 : F32), Running s → 2 ≤ nb → nb ≤ 5 →
    SampleRateLegal sr → (∀ f ∈ [f0, f1, f2, f3].take (nb - 1), FrequencyLegal sr f) →
    ∃ t, execWith P (.update nb sr f0 f1 f2 f3) s = .next t ∧
      (∀ b : Fin NSLOT, b.val < nb → (assemble P sr nb [f0, f1, f2, f3])[b.val]? = some t.coef[b]) ∧
      (∀ b : Fin NSLOT, nb ≤ b.val → t.coef[b] = s.coef[b]) ∧
      t.cfgNb = nb ∧ t.fsm = .configured ∧ t.mode = s.mode ∧ t.dl = s.dl ∧ t.cur = s.cur ∧
      t.out = s.out ∧ SameFault s t ∧ SameOutside s t ∧ t.resp = [statusWord t, t.faultWord]) ∧
  (∀ (P : Params) (s : State) (nb : Nat) (l r : F32), Running s → 2 ≤ nb → nb ≤ 5 →
    (s.fsm = .uninit ∨ nb ≤ s.cfgNb) →
    ∃ t, execWith P (.process nb l r) s = .next t ∧
      (∀ b : Fin NSLOT, b.val < nb →
        t.out[b] = (firStep P b ⟨l, r⟩ { s with draws := s.draws + 242 * b.val }).1 ∧
          t.dl[b] = s.dl[b].set s.cur[b] ⟨l, r⟩ ∧ t.cur[b].val = (s.cur[b].val + 1) % 128) ∧
      (∀ b : Fin NSLOT, nb ≤ b.val → t.out[b] = s.out[b] ∧ t.dl[b] = s.dl[b] ∧ t.cur[b] = s.cur[b]) ∧
      t.fsm = (if s.fsm = .uninit then .uninit else .processing) ∧
      t.coef = s.coef ∧ t.mode = s.mode ∧ t.cfgNb = s.cfgNb ∧ SameFault s t ∧ t.input = s.input)
end

