-- ==== Sys2Proof/Laws/Arith.lean ====
section
/-! SUPPORT. The lemmas of the binary32 arithmetic: the magnitude a bit pattern stands for, what rounding does to an exact integer, and which results are NaN. -/

namespace Sys2Proof.Machine

open Sys2Proof.Config

/-! ### Integer logarithm -/

theorem ilog2Aux_eq (j n acc : Nat) (h : n < 2 ^ 2 ^ j) : ilog2Aux j n acc = acc + n.log2 := by
  induction j generalizing n acc with
  | zero =>
    have : n = 0 ∨ n = 1 := by simp at h; omega
    rcases this with rfl | rfl <;> simp [ilog2Aux, Nat.log2_eq_log_two]
  | succ j ih =>
    have hpow : (2 : Nat) ^ 2 ^ (j + 1) = 2 ^ 2 ^ j * 2 ^ 2 ^ j := by rw [← pow_add]; congr 1; ring
    unfold ilog2Aux
    split
    · next hle =>
      have hdiv : n / 2 ^ 2 ^ j < 2 ^ 2 ^ j := by
        rw [Nat.div_lt_iff_lt_mul (by positivity)]; rw [← hpow]; exact h
      rw [ih _ _ hdiv]
      have hn : n ≠ 0 := by
        have : 0 < 2 ^ 2 ^ j := by positivity
        omega
      have hk : 2 ^ j ≤ n.log2 := (Nat.le_log2 hn).2 hle
      have : (n / 2 ^ 2 ^ j).log2 = n.log2 - 2 ^ j := by
        rw [Nat.log2_eq_log_two, Nat.log2_eq_log_two, Nat.log_div_base_pow]
      omega
    · next hlt => exact ih _ _ (by omega)

/-- Up to 2^4096, `ilog2` is the integer logarithm. -/
theorem ilog2_eq_log2 (n : Nat) (h : n < 2 ^ 2 ^ 12) : ilog2 n = n.log2 := by
  rw [ilog2, ilog2Aux_eq 12 n 0 h, Nat.zero_add]

/-! ### The magnitude of a bit pattern -/

/-- The magnitude that 31 bits stand for, carried on past the largest finite number. -/
def magOf (m : Nat) : Nat :=
  if m / 0x800000 = 0 then m % 0x800000 else (0x800000 + m % 0x800000) * 2 ^ (m / 0x800000 - 1)

theorem laneMag_eq_magOf (a : F32) : laneMag a = magOf (a.toNat % 0x80000000) := by
  have h1 : a.toNat % 0x80000000 / 0x800000 = a.toNat / 0x800000 % 256 := by omega
  have h2 : a.toNat % 0x80000000 % 0x800000 = a.toNat % 0x800000 := by omega
  unfold laneMag magOf laneExp laneFrac
  rw [h1, h2]

theorem magOf_small (m : Nat) (h : m ≤ 0x1000000) : magOf m = m := by
  unfold magOf
  by_cases h0 : m / 0x800000 = 0
  · rw [if_pos h0]; omega
  · rw [if_neg h0]
    by_cases h1 : m / 0x800000 = 1
    · rw [h1]; omega
    · have : m = 0x1000000 := by omega
      subst this; norm_num

/-- A significand and an exponent, packed as roundMag packs them, stand for their product. -/
theorem magOf_pack (e M : Nat) (h1 : 0x800000 ≤ M) (h2 : M ≤ 0x1000000) :
    magOf (e * 0x800000 + M) = M * 2 ^ e := by
  unfold magOf
  by_cases hM : M = 0x1000000
  · have hd : (e * 0x800000 + M) / 0x800000 = e + 2 := by omega
    have hm : (e * 0x800000 + M) % 0x800000 = 0 := by omega
    rw [hd, hm, if_neg (by omega), show e + 2 - 1 = e + 1 by omega, hM, pow_succ]; ring
  · have hd : (e * 0x800000 + M) / 0x800000 = e + 1 := by omega
    have hm : (e * 0x800000 + M) % 0x800000 = M - 0x800000 := by omega
    rw [hd, hm, if_neg (by omega), show e + 1 - 1 = e by omega, show 0x800000 + (M - 0x800000) = M by omega]

/-- A pattern of exponent field at least 1 is such a packing. -/
theorem magOf_decompose (m : Nat) (h : 0x800000 ≤ m) :
    ∃ e M, 0x800000 ≤ M ∧ M < 0x1000000 ∧ m = e * 0x800000 + M ∧ magOf m = M * 2 ^ e := by
  refine ⟨m / 0x800000 - 1, 0x800000 + m % 0x800000, by omega, by omega, by omega, ?_⟩
  rw [magOf, if_neg (by omega)]

theorem magOf_lt_succ (m : Nat) : magOf m < magOf (m + 1) := by
  by_cases h : m + 1 ≤ 0x1000000
  · rw [magOf_small _ h, magOf_small _ (by omega)]; omega
  · obtain ⟨e, M, h1, h2, h3, h4⟩ := magOf_decompose m (by omega)
    rw [h4, h3, Nat.add_assoc, magOf_pack e (M + 1) (by omega) (by omega)]
    exact Nat.mul_lt_mul_of_pos_right (by omega) (by positivity)

theorem magOf_strictMono : StrictMono magOf := strictMono_nat_of_lt_succ magOf_lt_succ

@[simp] theorem magOf_inj {m n : Nat} : magOf m = magOf n ↔ m = n := magOf_strictMono.injective.eq_iff

/-! ### Rounding -/

/-- Rounding moves an integer by at most half of a unit of the last place kept. -/
theorem roundShift_error (n sh : Nat) :
    2 * (roundShift n sh * 2 ^ sh) ≤ 2 * n + 2 ^ sh ∧ 2 * n ≤ 2 * (roundShift n sh * 2 ^ sh) + 2 ^ sh := by
  have hdm := Nat.div_add_mod n (2 ^ sh)
  have hlt := Nat.mod_lt n (show 0 < 2 ^ sh by positivity)
  have hc : n / 2 ^ sh * 2 ^ sh = 2 ^ sh * (n / 2 ^ sh) := Nat.mul_comm _ _
  unfold roundShift
  simp only
  split
  · next h => rw [Nat.add_mul, one_mul, hc]; omega
  · next h => rw [hc]; push Not at h; omega

/-- No multiple of the unit is nearer. -/
theorem roundShift_nearest (n sh c : Nat) :
    |((roundShift n sh * 2 ^ sh : Nat) : Int) - n| ≤ |((c * 2 ^ sh : Nat) : Int) - n| := by
  obtain ⟨h1, h2⟩ := roundShift_error n sh
  generalize hr : roundShift n sh = r at h1 h2
  have key : c < r ∧ c * 2 ^ sh + 2 ^ sh ≤ r * 2 ^ sh ∨ c = r ∨ r * 2 ^ sh + 2 ^ sh ≤ c * 2 ^ sh := by
    rcases lt_trichotomy c r with h | h | h
    · left; exact ⟨h, by simpa [Nat.add_mul] using Nat.mul_le_mul_right (2 ^ sh) h⟩
    · right; left; exact h
    · right; right; simpa [Nat.add_mul] using Nat.mul_le_mul_right (2 ^ sh) h
  rcases key with h | h | h
  · generalize r * 2 ^ sh = R at *
    generalize c * 2 ^ sh = K at *
    rcases abs_cases ((R : Int) - n) with h' | h' <;> rcases abs_cases ((K : Int) - n) with h'' | h'' <;> omega
  · rw [h]
  · generalize r * 2 ^ sh = R at *
    generalize c * 2 ^ sh = K at *
    rcases abs_cases ((R : Int) - n) with h' | h' <;> rcases abs_cases ((K : Int) - n) with h'' | h'' <;> omega

theorem le_dropBits (n k : Nat) : k ≤ dropBits n k := le_max_right _ _

theorem lt_pow_dropBits (n k : Nat) (hn : n < 2 ^ 2 ^ 12) : n < 2 ^ (dropBits n k + 24) := by
  have h1 : n < 2 ^ (n.log2 + 1) := Nat.lt_log2_self
  have h2 : n.log2 - 23 ≤ dropBits n k := by rw [← ilog2_eq_log2 n hn]; exact le_max_left _ _
  exact lt_of_lt_of_le h1 (Nat.pow_le_pow_right (by norm_num) (by omega))

theorem pow_le_of_lt_dropBits (n k : Nat) (hn : n < 2 ^ 2 ^ 12) (h : k < dropBits n k) :
    2 ^ (dropBits n k + 23) ≤ n := by
  have hd : dropBits n k = n.log2 - 23 := by
    unfold dropBits at *; rw [ilog2_eq_log2 n hn] at *; omega
  have h0 : n ≠ 0 := by rintro rfl; simp at hd; omega
  exact le_trans (Nat.pow_le_pow_right (by norm_num) (by omega)) (Nat.log2_self_le h0)

theorem roundShift_le (n k : Nat) (hn : n < 2 ^ 2 ^ 12) : roundShift n (dropBits n k) ≤ 0x1000000 := by
  have h := lt_pow_dropBits n k hn
  have h1 : n / 2 ^ dropBits n k < 0x1000000 := by
    rw [Nat.div_lt_iff_lt_mul (by positivity)]
    calc n < 2 ^ (dropBits n k + 24) := h
      _ = 0x1000000 * 2 ^ dropBits n k := by rw [pow_add]; ring
  unfold roundShift
  simp only
  split <;> omega

theorem le_roundShift (n k : Nat) (hn : n < 2 ^ 2 ^ 12) (hk : k < dropBits n k) :
    0x800000 ≤ roundShift n (dropBits n k) := by
  have h := pow_le_of_lt_dropBits n k hn hk
  have h1 : 0x800000 ≤ n / 2 ^ dropBits n k := by
    rw [Nat.le_div_iff_mul_le (by positivity)]
    calc 0x800000 * 2 ^ dropBits n k = 2 ^ (dropBits n k + 23) := by rw [pow_add]; ring
      _ ≤ n := h
  unfold roundShift
  simp only
  split <;> omega

/-- The bits of roundMag before its cap. -/
def roundBits (n k : Nat) : Nat := (dropBits n k - k) * 0x800000 + roundShift n (dropBits n k)

theorem roundMag_eq (n k : Nat) : roundMag n k = min (roundBits n k) 0x7F800000 := rfl

/-- The bits stand for the rounded integer. -/
theorem magOf_roundBits (n k : Nat) (hn : n < 2 ^ 2 ^ 12) :
    magOf (roundBits n k) * 2 ^ k = roundShift n (dropBits n k) * 2 ^ dropBits n k := by
  have hle := roundShift_le n k hn
  have hk := le_dropBits n k
  rcases Nat.lt_or_ge k (dropBits n k) with h | h
  · rw [roundBits, magOf_pack _ _ (le_roundShift n k hn h) hle, mul_assoc, ← pow_add,
      Nat.sub_add_cancel hk]
  · have hd : dropBits n k = k := le_antisymm h hk
    rw [hd] at hle
    rw [roundBits, hd, Nat.sub_self, zero_mul, zero_add, magOf_small _ hle]

/-- A magnitude that is no multiple of 2^e is below 2^(23 + e). -/
theorem magOf_multiple_or_small (y e : Nat) : 2 ^ e ∣ magOf y ∨ magOf y < 2 ^ (23 + e) := by
  rcases Nat.lt_or_ge y 0x800000 with h | h
  · right
    rw [magOf_small y (by omega)]
    calc y < 2 ^ 23 := by norm_num; omega
      _ ≤ 2 ^ (23 + e) := Nat.pow_le_pow_right (by norm_num) (by omega)
  · obtain ⟨e', M, h1, h2, -, h4⟩ := magOf_decompose y h
    rcases Nat.lt_or_ge e' e with h' | h'
    · right
      rw [h4]
      calc M * 2 ^ e' < 2 ^ 24 * 2 ^ e' := Nat.mul_lt_mul_of_pos_right (by norm_num; omega) (by positivity)
        _ = 2 ^ (24 + e') := (pow_add 2 24 e').symm
        _ ≤ 2 ^ (23 + e) := Nat.pow_le_pow_right (by norm_num) (by omega)
    · left
      rw [h4]
      exact Dvd.dvd.mul_left (Nat.pow_dvd_pow 2 h') M

/-- The bits of roundMag are nearest: no bit pattern's magnitude lies nearer to the exact result. -/
theorem roundBits_nearest (n k y : Nat) (hn : n < 2 ^ 2 ^ 12) :
    |((magOf (roundBits n k) * 2 ^ k : Nat) : Int) - n| ≤ |((magOf y * 2 ^ k : Nat) : Int) - n| := by
  rw [magOf_roundBits n k hn]
  have hk := le_dropBits n k
  rcases magOf_multiple_or_small y (dropBits n k - k) with ⟨c, hc⟩ | h
  · have : magOf y * 2 ^ k = c * 2 ^ dropBits n k := by
      rw [hc, mul_comm (2 ^ _) c, mul_assoc, ← pow_add, Nat.sub_add_cancel hk]
    rw [this]
    exact roundShift_nearest _ _ _
  · rcases Nat.lt_or_ge k (dropBits n k) with hlt | hge
    · have hb : 2 ^ 23 * 2 ^ dropBits n k ≤ n := by
        rw [← pow_add, add_comm]; exact pow_le_of_lt_dropBits n k hn hlt
      have hs : 23 + (dropBits n k - k) + k = 23 + dropBits n k := by clear hn hb h; omega
      have hy : magOf y * 2 ^ k ≤ 2 ^ 23 * 2 ^ dropBits n k := by
        calc magOf y * 2 ^ k ≤ 2 ^ (23 + (dropBits n k - k)) * 2 ^ k := Nat.mul_le_mul_right _ h.le
          _ = 2 ^ 23 * 2 ^ dropBits n k := by rw [← pow_add, ← pow_add, hs]
      refine le_trans (roundShift_nearest n (dropBits n k) (2 ^ 23)) ?_
      clear hn h
      generalize 2 ^ 23 * 2 ^ dropBits n k = B at *
      generalize magOf y * 2 ^ k = Y at *
      rcases abs_cases ((B : Int) - n) with h' | h' <;> rcases abs_cases ((Y : Int) - n) with h'' | h'' <;>
        omega
    · have : magOf y * 2 ^ k = magOf y * 2 ^ dropBits n k := by rw [le_antisymm hge hk]
      rw [this]
      exact roundShift_nearest _ _ _

/-- A result that some pattern below infinity stands for exactly is rounded to that pattern. -/
theorem roundMag_exact (n k y : Nat) (hn : n < 2 ^ 2 ^ 12) (hy : y < 0x7F800000)
    (h : magOf y * 2 ^ k = n) : roundMag n k = y := by
  have h1 := roundBits_nearest n k y hn
  rw [h, sub_self, abs_zero, abs_nonpos_iff, sub_eq_zero] at h1
  have h2 : magOf (roundBits n k) * 2 ^ k = magOf y * 2 ^ k := by rw [h]; exact_mod_cast h1
  have h3 := magOf_inj.1 (Nat.eq_of_mul_eq_mul_right (by positivity) h2)
  rw [roundMag_eq, h3]; omega

theorem roundMag_le (n k : Nat) : roundMag n k ≤ 0x7F800000 := Nat.min_le_right _ _

@[simp] theorem roundMag_zero (k : Nat) : roundMag 0 k = 0 := by
  have h : ilog2 0 = 0 := by rw [ilog2_eq_log2 0 (by positivity)]; rfl
  simp [roundMag, dropBits, h, roundShift]

/-! ### Fields of a packed pattern -/

theorem packBits_toNat (neg : Bool) (m : Nat) (h : m < 0x80000000) :
    (packBits neg m).toNat = (if neg then 0x80000000 else 0) + m := by
  unfold packBits
  rw [BitVec.toNat_ofNat, Nat.mod_eq_of_lt]
  cases neg <;> simp only [if_true, Bool.false_eq_true, if_false] <;> omega

theorem laneNegative_packBits (neg : Bool) (m : Nat) (h : m < 0x80000000) :
    laneNegative (packBits neg m) = neg := by
  unfold laneNegative
  rw [packBits_toNat neg m h]
  rw [Bool.eq_iff_iff, Nat.ble_eq]
  cases neg
  · simp; omega
  · simp

theorem laneExp_packBits (neg : Bool) (m : Nat) (h : m < 0x80000000) :
    laneExp (packBits neg m) = m / 0x800000 := by
  unfold laneExp
  rw [packBits_toNat neg m h]
  cases neg <;> simp <;> omega

theorem laneFrac_packBits (neg : Bool) (m : Nat) (h : m < 0x80000000) :
    laneFrac (packBits neg m) = m % 0x800000 := by
  unfold laneFrac
  rw [packBits_toNat neg m h]
  cases neg
  · simp
  · simp; omega

theorem laneMag_packBits (neg : Bool) (m : Nat) (h : m < 0x80000000) :
    laneMag (packBits neg m) = magOf m := by
  rw [laneMag_eq_magOf, packBits_toNat neg m h]
  congr 1
  cases neg <;> simp <;> omega

/-- Every pattern is packed from its sign and its low 31 bits. -/
theorem packBits_self (a : F32) : packBits (laneNegative a) (a.toNat % 0x80000000) = a := by
  apply BitVec.eq_of_toNat_eq
  rw [packBits_toNat _ _ (Nat.mod_lt _ (by norm_num))]
  have := a.isLt
  by_cases h : laneNegative a = true
  · rw [if_pos h]
    simp [laneNegative] at h
    omega
  · rw [if_neg h]
    simp [laneNegative] at h
    omega

theorem laneNegative_zero (neg : Bool) : laneNegative (signedZero neg) = neg :=
  laneNegative_packBits neg 0 (by norm_num)

/-- The NaN of every draw is a NaN (R94). -/
@[simp] theorem isNaN_nanBits (n : NaN32) : isNaN (nanBits n) = true := by
  have h := n.payload.isLt
  unfold isNaN nanBits
  rw [laneExp_packBits _ _ (by omega), laneFrac_packBits _ _ (by omega)]
  simp; omega

/-! ### Classes of values -/

theorem isFinite_iff (a : F32) : isFinite a = true ↔ laneExp a ≠ 255 := by simp [isFinite]

theorem isNaN_of_isFinite {a : F32} (h : isFinite a = true) : isNaN a = false := by
  simp [isFinite] at h; simp [isNaN, h]

theorem isInf_of_isFinite {a : F32} (h : isFinite a = true) : isInf a = false := by
  simp [isFinite] at h; simp [isInf, h]

theorem isFinite_iff_low (a : F32) : isFinite a = true ↔ a.toNat % 0x80000000 < 0x7F800000 := by
  rw [isFinite_iff]; unfold laneExp; omega

theorem isFinite_packBits (neg : Bool) (m : Nat) (h : m < 0x80000000) :
    isFinite (packBits neg m) = true ↔ m < 0x7F800000 := by
  rw [isFinite_iff, laneExp_packBits _ _ h]; omega

theorem isZero_iff_low (a : F32) : isZero a = true ↔ a.toNat % 0x80000000 = 0 := by
  simp [isZero, laneExp, laneFrac]; omega

theorem isZero_iff_laneMag (a : F32) : isZero a = true ↔ laneMag a = 0 := by
  rw [isZero_iff_low, laneMag_eq_magOf]
  constructor
  · intro h; rw [h]; rfl
  · intro h; rwa [show (0 : Nat) = magOf 0 from rfl, magOf_inj] at h

theorem isFinite_of_isZero {a : F32} (h : isZero a = true) : isFinite a = true := by
  rw [isZero_iff_low] at h; rw [isFinite_iff_low]; omega

@[simp] theorem laneVal_natAbs (a : F32) : (laneVal a).natAbs = laneMag a := by
  unfold laneVal; split <;> simp

theorem laneVal_eq_zero_iff (a : F32) : laneVal a = 0 ↔ isZero a = true := by
  rw [isZero_iff_laneMag, ← laneVal_natAbs]; exact Int.natAbs_eq_zero.symm

theorem isZero_signedZero (neg : Bool) : isZero (signedZero neg) = true := by
  rw [isZero_iff_laneMag, signedZero, laneMag_packBits _ _ (by norm_num)]; rfl

/-- A zero is the zero of its sign. -/
theorem eq_signedZero {a : F32} (h : isZero a = true) : a = signedZero (laneNegative a) := by
  rw [isZero_iff_low] at h
  conv_lhs => rw [← packBits_self a, h]
  rfl

theorem laneMag_lt (a : F32) (h : isFinite a = true) : laneMag a < 2 ^ 277 := by
  rw [isFinite_iff_low] at h
  rw [laneMag_eq_magOf]
  calc magOf (a.toNat % 0x80000000) < magOf 0x7F800000 := magOf_strictMono h
    _ = 2 ^ 277 := by decide +kernel

theorem two_pow_lt_bound {a : Nat} (h : a ≤ 4096) {n : Nat} (hn : n < 2 ^ a) : n < 2 ^ 2 ^ 12 :=
  lt_of_lt_of_le hn (Nat.pow_le_pow_right (by norm_num) (by rw [show 2 ^ 12 = 4096 by norm_num]; exact h))

/-- Finite values of equal sign and magnitude are equal. -/
theorem eq_of_sign_mag {a b : F32} (hs : laneNegative a = laneNegative b) (hm : laneMag a = laneMag b) :
    a = b := by
  rw [laneMag_eq_magOf, laneMag_eq_magOf, magOf_inj] at hm
  rw [← packBits_self a, ← packBits_self b, hs, hm]

/-- Values that stand for the same non-zero number are equal bit for bit. -/
theorem eq_of_laneVal_eq {a b : F32} (h : laneVal a = laneVal b) (h0 : laneVal a ≠ 0) : a = b := by
  have hm : laneMag a = laneMag b := by rw [← laneVal_natAbs, h, laneVal_natAbs]
  refine eq_of_sign_mag ?_ hm
  unfold laneVal at h h0
  by_cases ha : laneNegative a = true <;> by_cases hb : laneNegative b = true <;> simp_all

/-! ### The rounding of the lanes -/

@[simp] theorem flushSubnormal_ieee (a : F32) : flushSubnormal .ieee a = a := by
  unfold flushSubnormal; split <;> rfl

theorem flushSubnormal_not_subnormal (a : F32) : isSubnormal (flushSubnormal .ftzDaz a) = false := by
  unfold flushSubnormal
  by_cases h : isSubnormal a = true
  · rw [if_pos h]
    have := isZero_signedZero (laneNegative a)
    simp [isZero, isSubnormal] at *
    simp [this]
  · rw [if_neg h]; simpa using h

theorem fl_ieee (n : Int) (k : Nat) (z : Bool) :
    fl .ieee n k z = packBits (if n = 0 then z else decide (n < 0)) (roundMag n.natAbs k) := by
  simp [fl]

theorem laneNegative_fl (n : Int) (k : Nat) (z : Bool) :
    laneNegative (fl .ieee n k z) = (if n = 0 then z else decide (n < 0)) := by
  rw [fl_ieee, laneNegative_packBits _ _ (by have := roundMag_le n.natAbs k; omega)]

/-- An exact zero rounds to the zero of the stated sign (R93). -/
@[simp] theorem fl_zero (k : Nat) (z : Bool) : fl .ieee 0 k z = signedZero z := by
  simp [fl_ieee, signedZero]

theorem laneMag_fl (n : Int) (k : Nat) (z : Bool) :
    laneMag (fl .ieee n k z) = magOf (roundMag n.natAbs k) := by
  rw [fl_ieee, laneMag_packBits _ _ (by have := roundMag_le n.natAbs k; omega)]

theorem isFinite_fl (n : Int) (k : Nat) (z : Bool) :
    isFinite (fl .ieee n k z) = true ↔ roundMag n.natAbs k < 0x7F800000 := by
  rw [fl_ieee, isFinite_packBits _ _ (by have := roundMag_le n.natAbs k; omega)]

/-- A result that a finite value stands for exactly is that value. -/
theorem fl_exact (a : F32) (k : Nat) (z : Bool) (ha : isFinite a = true) (hk : k ≤ 1000)
    (hz : isZero a = true → z = laneNegative a) : fl .ieee (laneVal a * 2 ^ k) k z = a := by
  have hlow := (isFinite_iff_low a).1 ha
  have hnat : (laneVal a * 2 ^ k).natAbs = laneMag a * 2 ^ k := by
    rw [Int.natAbs_mul, laneVal_natAbs, Int.natAbs_pow]; rfl
  have hn : laneMag a * 2 ^ k < 2 ^ 2 ^ 12 := by
    refine two_pow_lt_bound (a := 277 + k) (by omega) ?_
    calc laneMag a * 2 ^ k < 2 ^ 277 * 2 ^ k := Nat.mul_lt_mul_of_pos_right (laneMag_lt a ha) (by positivity)
      _ = 2 ^ (277 + k) := (pow_add 2 277 k).symm
  have hr : roundMag (laneMag a * 2 ^ k) k = a.toNat % 0x80000000 :=
    roundMag_exact _ _ _ hn hlow (by rw [laneMag_eq_magOf])
  rw [fl_ieee, hnat, hr]
  conv_rhs => rw [← packBits_self a]
  congr 1
  have hpos : (0 : Int) < 2 ^ k := by positivity
  by_cases h0 : laneVal a = 0
  · rw [h0, zero_mul, if_pos rfl]
    exact hz ((laneVal_eq_zero_iff a).1 h0)
  · rw [if_neg (by simp [h0])]
    have hm : laneMag a ≠ 0 := by rw [← laneVal_natAbs]; exact Int.natAbs_ne_zero.2 h0
    unfold laneVal
    by_cases hs : laneNegative a = true
    · rw [if_pos hs, hs, decide_eq_true_eq]
      have : (0 : Int) < laneMag a := by exact_mod_cast Nat.pos_of_ne_zero hm
      exact mul_neg_of_neg_of_pos (by simpa using this) hpos
    · rw [if_neg hs]
      simp only [Bool.not_eq_true] at hs
      rw [hs, decide_eq_false_iff_not, not_lt]
      exact mul_nonneg (Int.natCast_nonneg _) hpos.le

/-- Rounding is to nearest (R92): where the result is finite, no finite value lies nearer to the exact one. -/
theorem fl_nearest (n : Int) (k : Nat) (z : Bool) (hn : n.natAbs < 2 ^ 2 ^ 12)
    (hf : isFinite (fl .ieee n k z) = true) (y : F32) :
    |laneVal (fl .ieee n k z) * 2 ^ k - n| ≤ |laneVal y * 2 ^ k - n| := by
  have hr := (isFinite_fl n k z).1 hf
  have hbits : roundMag n.natAbs k = roundBits n.natAbs k := by rw [roundMag_eq] at hr ⊢; omega
  have hmag : laneMag (fl .ieee n k z) = magOf (roundBits n.natAbs k) := by rw [laneMag_fl, hbits]
  have hnear := roundBits_nearest n.natAbs k (y.toNat % 0x80000000) hn
  rw [← hmag, ← laneMag_eq_magOf] at hnear
  have hsign := laneNegative_fl n k z
  clear hn hf hr hbits hmag
  generalize fl .ieee n k z = r at *
  have hpos : (0 : Int) < 2 ^ k := by positivity
  have hy : laneVal y = laneMag y ∨ laneVal y = -(laneMag y : Int) := by unfold laneVal; split <;> simp
  push_cast at hnear
  have hry : (0 : Int) ≤ laneMag r * 2 ^ k := by positivity
  have hyy : (0 : Int) ≤ laneMag y * 2 ^ k := by positivity
  by_cases h0 : n = 0
  · subst h0
    have habs : ∀ a : F32, |laneVal a * 2 ^ k| = (laneMag a : Int) * 2 ^ k := fun a => by
      rw [abs_mul, Int.abs_eq_natAbs, laneVal_natAbs, abs_of_pos hpos]
    rw [sub_zero, sub_zero, habs, habs]
    rwa [abs_zero, sub_zero, sub_zero, abs_of_nonneg hry, abs_of_nonneg hyy] at hnear
  · rw [if_neg h0] at hsign
    have hv : laneVal r = if n < 0 then -(laneMag r : Int) else laneMag r := by
      unfold laneVal; rw [hsign]; simp
    rw [hv]
    split at hv
    · next hneg =>
      rw [if_pos hneg]
      rw [abs_of_neg hneg] at hnear
      generalize (2 : Int) ^ k = K at *
      rcases hy with h | h <;> rw [h] <;> simp only [neg_mul] <;>
        generalize (laneMag r : Int) * K = A at * <;>
        generalize (laneMag y : Int) * K = B at * <;>
        rcases abs_cases (A - -n) with h1 | h1 <;> rcases abs_cases (B - -n) with h2 | h2 <;>
        rcases abs_cases (-A - n) with h3 | h3 <;> rcases abs_cases (B - n) with h4 | h4 <;>
        rcases abs_cases (-B - n) with h5 | h5 <;> omega
    · next hneg =>
      rw [if_neg hneg]
      rw [abs_of_nonneg (not_lt.1 hneg)] at hnear
      generalize (2 : Int) ^ k = K at *
      rcases hy with h | h <;> rw [h]
      · exact hnear
      · refine le_trans hnear ?_
        rw [neg_mul]
        generalize (laneMag y : Int) * K = B at *
        rcases abs_cases (B - n) with h4 | h4 <;> rcases abs_cases (-B - n) with h5 | h5 <;> omega

/-! ### The lane operations -/

@[simp] theorem isNaN_flushSubnormal (m : SubnormalMode) (a : F32) :
    isNaN (flushSubnormal m a) = isNaN a := by
  cases m
  · simp
  · unfold flushSubnormal
    by_cases h : isSubnormal a = true
    · rw [if_pos h, isNaN_of_isFinite (isFinite_of_isZero (isZero_signedZero _))]
      simp [isSubnormal] at h
      simp [isNaN, h.1]
    · rw [if_neg h]

/-- R94: a NaN operand of an addition gives the NaN of the draw. -/
theorem laneAdd_nan (m : SubnormalMode) (n : NaN32) (a b : F32) (h : isNaN a = true ∨ isNaN b = true) :
    laneAdd m n a b = nanBits n := by
  have : (isNaN a || isNaN b) = true := by simpa using h
  simp only [laneAdd, isNaN_flushSubnormal, this, if_true]

/-- R94 for a multiplication. -/
theorem laneMul_nan (m : SubnormalMode) (n : NaN32) (a b : F32) (h : isNaN a = true ∨ isNaN b = true) :
    laneMul m n a b = nanBits n := by
  have : (isNaN a || isNaN b) = true := by simpa using h
  simp only [laneMul, isNaN_flushSubnormal, this, if_true]

/-- R94 for a division. -/
theorem laneDiv_nan (m : SubnormalMode) (n : NaN32) (a b : F32) (h : isNaN a = true ∨ isNaN b = true) :
    laneDiv m n a b = nanBits n := by
  have : (isNaN a || isNaN b) = true := by simpa using h
  simp only [laneDiv, isNaN_flushSubnormal, this, if_true]

/-- R94 for a fused multiply-add. -/
theorem laneFma_nan (m : SubnormalMode) (n : NaN32) (a b c : F32)
    (h : isNaN a = true ∨ isNaN b = true ∨ isNaN c = true) : laneFma m n a b c = nanBits n := by
  have : (isNaN a || isNaN b || isNaN c) = true := by simpa [or_assoc] using h
  simp only [laneFma, isNaN_flushSubnormal, this, if_true]

/-- The sum of finite operands is their rounded exact sum. -/
theorem laneAdd_finite (n : NaN32) {a b : F32} (ha : isFinite a = true) (hb : isFinite b = true) :
    laneAdd .ieee n a b = fl .ieee (laneVal a + laneVal b) 0 (laneNegative a && laneNegative b) := by
  simp [laneAdd, isNaN_of_isFinite, isInf_of_isFinite, ha, hb]

/-- The product of finite operands is their rounded exact product. -/
theorem laneMul_finite (n : NaN32) {a b : F32} (ha : isFinite a = true) (hb : isFinite b = true) :
    laneMul .ieee n a b = fl .ieee (laneVal a * laneVal b) 149 (laneNegative a != laneNegative b) := by
  simp [laneMul, isNaN_of_isFinite, isInf_of_isFinite, ha, hb]

/-- The fused multiply-add of finite operands rounds the exact value once (R93). -/
theorem laneFma_finite (n : NaN32) {a b c : F32} (ha : isFinite a = true) (hb : isFinite b = true)
    (hc : isFinite c = true) : laneFma .ieee n a b c =
      fl .ieee (laneVal a * laneVal b + laneVal c * 2 ^ 149) 149
        ((laneNegative a != laneNegative b) && laneNegative c) := by
  simp [laneFma, isNaN_of_isFinite, isInf_of_isFinite, ha, hb, hc]

@[simp] theorem laneNeg_laneNeg (a : F32) : laneNeg (laneNeg a) = a := by
  simp [laneNeg]

/-- A fused multiply-add of a zero product returns a non-zero addend unchanged. -/
theorem laneFma_zero_product (n : NaN32) {a b c : F32} (ha : isFinite a = true) (hb : isFinite b = true)
    (hc : isFinite c = true) (h0 : isZero a = true ∨ isZero b = true) (hcz : isZero c = false) :
    laneFma .ieee n a b c = c := by
  have hp : laneVal a * laneVal b = 0 := by
    rcases h0 with h | h <;> simp [(laneVal_eq_zero_iff _).2 h]
  rw [laneFma_finite n ha hb hc, hp, zero_add]
  exact fl_exact c 149 _ hc (by norm_num) (by simp [hcz])

/-- A fused multiply-add of a zero product and a zero addend is a zero. -/
theorem laneFma_zero_zero (n : NaN32) {a b c : F32} (ha : isFinite a = true) (hb : isFinite b = true)
    (h0 : isZero a = true ∨ isZero b = true) (hcz : isZero c = true) :
    isZero (laneFma .ieee n a b c) = true := by
  have hp : laneVal a * laneVal b = 0 := by
    rcases h0 with h | h <;> simp [(laneVal_eq_zero_iff _).2 h]
  rw [laneFma_finite n ha hb (isFinite_of_isZero hcz), hp, (laneVal_eq_zero_iff c).2 hcz, zero_mul, add_zero,
    fl_zero]
  exact isZero_signedZero _

theorem laneVal_one : laneVal oneBits = 2 ^ 149 := by decide +kernel

theorem isFinite_one : isFinite oneBits = true := by decide

/-- A product with 1.0, added to a zero, keeps the value of the other factor. -/
theorem laneFma_one (n : NaN32) {x c : F32} (hx : isFinite x = true) (hc : isZero c = true)
    (hx0 : isZero x = false) : laneFma .ieee n oneBits x c = x ∧ laneFma .ieee n x oneBits c = x := by
  have hcv := (laneVal_eq_zero_iff c).2 hc
  constructor
  · rw [laneFma_finite n isFinite_one hx (isFinite_of_isZero hc), laneVal_one, hcv, zero_mul, add_zero, mul_comm]
    exact fl_exact x 149 _ hx (by norm_num) (by simp [hx0])
  · rw [laneFma_finite n hx isFinite_one (isFinite_of_isZero hc), laneVal_one, hcv, zero_mul, add_zero]
    exact fl_exact x 149 _ hx (by norm_num) (by simp [hx0])

/-! ### The operations of the parameters -/

/-- NUM_FORMAT is binary32, the one value it has. -/
theorem laneOps_eq (f : NumFormat) :
    laneOps f = { add := laneAdd, sub := laneSub, mul := laneMul, div := laneDiv, fma := laneFma } := by
  cases f; rfl

theorem designAdd_eq (A : Arith) (a b : F32) : designAdd A a b = laneAdd A.subnormal (A.nan .add a b) a b := by
  rw [designAdd, laneOps_eq]

theorem designSub_eq (A : Arith) (a b : F32) : designSub A a b = laneSub A.subnormal (A.nan .sub a b) a b := by
  rw [designSub, laneOps_eq]

theorem designMul_eq (A : Arith) (a b : F32) : designMul A a b = laneMul A.subnormal (A.nan .mul a b) a b := by
  rw [designMul, laneOps_eq]

theorem designDiv_eq (A : Arith) (a b : F32) : designDiv A a b = laneDiv A.subnormal (A.nan .div a b) a b := by
  rw [designDiv, laneOps_eq]

theorem streamMul_eq (P : Params) (d : Nat) (a b : Pair) :
    streamMul P d a b =
      ⟨laneMul P.arith.subnormal (P.streamNaN d) a.l b.l,
        laneMul P.arith.subnormal (P.streamNaN (d + 1)) a.r b.r⟩ := by
  rw [streamMul, laneOps_eq]

theorem streamFma_eq (P : Params) (d : Nat) (a b c : Pair) :
    streamFma P d a b c =
      ⟨laneFma P.arith.subnormal (P.streamNaN d) a.l b.l c.l,
        laneFma P.arith.subnormal (P.streamNaN (d + 1)) a.r b.r c.r⟩ := by
  rw [streamFma, laneOps_eq]

end Sys2Proof.Machine
end

