-- ==== Sys2Proof/Laws/Decode.lean ====
section
/-! SUPPORT. Lemmas about the decoder, the words at the command port and the STATUS word. -/

namespace Sys2Proof

/-- A command word is its four fields (R53). -/
theorem word_eq_fields (w : Word) :
    w.toNat = bits w 3 0 + 16 * bits w 7 4 + 256 * bits w 10 8 + 2048 * bits w 31 11 := by
  have := w.isLt
  simp [bits]; omega

theorem bits_op_lt (w : Word) : bits w 3 0 < 16 := by unfold bits; omega
theorem bits_mode_lt (w : Word) : bits w 7 4 < 16 := by unfold bits; omega
theorem bits_nb_lt (w : Word) : bits w 10 8 < 8 := by unfold bits; omega

/-- The number of an opcode (R54). -/
def opcodeNumber (o : Opcode) : Nat :=
  match o with
  | .init => 1
  | .update => 2
  | .reset => 3
  | .process => 4
  | .latency => 5

/-- The opcode map, read backwards. -/
theorem opcodeOf_eq_some_iff (n : Nat) (o : Opcode) : opcodeOf n = some o ↔ n = opcodeNumber o := by
  constructor
  · intro h
    unfold opcodeOf at h
    split at h <;> simp at h <;> subst h <;> rfl
  · rintro rfl
    cases o <;> rfl

/-- What the decode procedure accepts. -/
theorem decodeOpcode_ok_iff (w : Word) (o : Opcode) :
    decodeOpcode w = .ok o ↔ opcodeOf (bits w 3 0) = some o ∧ unusedBitsClear o w = true := by
  unfold decodeOpcode
  split
  · next h => simp [h]
  · next o' h =>
    rw [h]
    split
    · next h2 =>
      constructor
      · intro e; cases e; exact ⟨rfl, h2⟩
      · rintro ⟨e, -⟩; cases e; rfl
    · next h2 =>
      constructor
      · intro e; cases e
      · rintro ⟨e, h3⟩; cases e; exact absurd h3 h2

/-- Concatenation as a number, the first part more significant (R10). -/
theorem append_toNat {m n : Nat} (x : BitVec m) (y : BitVec n) :
    (x ++ y).toNat = x.toNat * 2 ^ n + y.toNat := by
  rw [BitVec.toNat_append, ← Nat.shiftLeft_add_eq_or_of_lt y.isLt, Nat.shiftLeft_eq]

namespace Machine

/-- STATUS as a number (R58). -/
theorem statusWord_toNat (s : State) (h : s.cfgNb < 8) :
    (statusWord s).toNat =
      s.cfgNb * 65536 + s.faultInfo.toNat * 256 + (faultCodeBits s.faultCode).toNat * 16 +
        (if s.faultCode = .none then 0 else 4) + (engineStateBits s.fsm).toNat := by
  have hb : (BitVec.ofBool (faulted s)).toNat = if s.faultCode = .none then 0 else 1 := by
    unfold faulted; cases s.faultCode <;> rfl
  simp only [statusWord, append_toNat, hb, BitVec.toNat_ofNat]
  rw [Nat.mod_eq_of_lt h]
  split <;> omega

/-- The words the host has supplied first. -/
theorem leadingWords_append (ws : List Word) (es : List HostEvent) :
    leadingWords (ws.map .word ++ es) = ws ++ leadingWords es := by
  induction ws with
  | nil => rfl
  | cons w ws ih => simp [leadingWords, ih]

/-- What follows them. -/
theorem afterWords_append (ws : List Word) (es : List HostEvent) :
    afterWords (ws.map .word ++ es) = afterWords es := by
  induction ws with
  | nil => rfl
  | cons w ws ih => simp [afterWords, ih]

/-- Only what the host has at the port can follow its words. -/
theorem mem_of_afterWords {es rest : List HostEvent} {e : HostEvent} (h : afterWords es = e :: rest) :
    e ∈ es := by
  induction es with
  | nil => simp [afterWords] at h
  | cons a es ih =>
    cases a with
    | word w => exact List.mem_cons_of_mem _ (ih h)
    | powerOn => simp only [afterWords] at h; injection h with h; subst h; exact List.mem_cons_self

end Machine

end Sys2Proof
end

