-- ==== Sys2Proof/Laws/Operands.lean ====
section
/-! SUPPORT. What each operand check answers, in the terms of Safety. -/

namespace Sys2Proof.Machine

open Sys2Proof.Config

theorem laneReal_pos_iff (a : F32) : 0 < laneReal a ↔ 0 < laneVal a := by
  unfold laneReal
  rw [lt_div_iff₀ (by positivity), zero_mul]; exact Int.cast_pos

theorem laneReal_lt_half_iff (f sr : F32) : laneReal f < laneReal sr / 2 ↔ 2 * laneVal f < laneVal sr := by
  unfold laneReal
  rw [div_div, div_lt_div_iff₀ (by positivity) (by positivity)]
  have : (0 : ℚ) < 2 ^ 149 := by positivity
  constructor
  · intro h
    have h2 : (2 * laneVal f : ℚ) < laneVal sr := by nlinarith
    exact_mod_cast h2
  · intro h
    have h2 : (2 * laneVal f : ℚ) < laneVal sr := by exact_mod_cast h
    nlinarith

/-- The magnitude counted for a value with an exponent field of 255 is above every finite one. -/
theorem le_laneMag_of_not_finite (f : F32) (h : laneExp f = 255) : 0x800000 * 2 ^ 254 ≤ laneMag f := by
  unfold laneMag
  rw [if_neg (by omega), h]
  exact Nat.mul_le_mul_right _ (by omega)

theorem legalBandCount_true {nb : Nat} (h1 : 2 ≤ nb) (h2 : nb ≤ 5) : legalBandCount nb = true :=
  decide_eq_true ⟨h1, h2⟩

theorem legalBandCount_false {nb : Nat} (h : nb < 2 ∨ 5 < nb) : legalBandCount nb = false :=
  decide_eq_false (by show ¬ (2 ≤ nb ∧ nb ≤ 5); omega)

theorem legalBandCount_iff (nb : Nat) : legalBandCount nb = true ↔ 2 ≤ nb ∧ nb ≤ 5 := decide_eq_true_iff

theorem legalSampleRate_iff (sr : F32) : legalSampleRate sr = true ↔ SampleRateLegal sr := by
  unfold legalSampleRate SampleRateLegal
  rw [Bool.and_eq_true, decide_eq_true_iff, laneReal_pos_iff]

/-- Under a legal sample rate the check is the one of R113, an infinite frequency refused with the rest. -/
theorem legalFrequency_iff (sr f : F32) (hsr : SampleRateLegal sr) :
    legalFrequency sr f = true ↔ FrequencyLegal sr f := by
  unfold legalFrequency FrequencyLegal
  rw [Bool.and_eq_true, Bool.and_eq_true, decide_eq_true_iff, decide_eq_true_iff, laneReal_pos_iff,
    laneReal_lt_half_iff, and_assoc]
  constructor
  · rintro ⟨-, h2, h3⟩
    refine ⟨?_, h2, h3⟩
    by_contra hf
    have he : laneExp f = 255 := by
      by_contra h; exact hf ((isFinite_iff f).2 h)
    have hm : ((0x800000 * 2 ^ 254 : Nat) : Int) ≤ laneMag f := by exact_mod_cast le_laneMag_of_not_finite f he
    have hlt : (laneMag sr : Int) < ((2 ^ 277 : Nat) : Int) := by exact_mod_cast laneMag_lt sr hsr.1
    have hp : ((2 ^ 277 : Nat) : Int) = ((0x800000 * 2 ^ 254 : Nat) : Int) := by decide
    unfold laneVal at h2 h3
    split_ifs at h2 h3 <;> omega
  · rintro ⟨h1, h2, h3⟩
    exact ⟨by rw [isNaN_of_isFinite h1]; rfl, h2, h3⟩

theorem frequencyCheck_none (sr : F32) (used : List F32) (hsr : SampleRateLegal sr)
    (h : ∀ f ∈ used, FrequencyLegal sr f) : frequencyCheck sr used = none := by
  unfold frequencyCheck
  have : used.findIdx? (fun f => !legalFrequency sr f) = none := by
    rw [List.findIdx?_eq_none_iff]
    intro f hf; rw [(legalFrequency_iff sr f hsr).2 (h f hf)]; rfl
  rw [this]

/-- The lowest illegal index is reported (R113, R128). -/
theorem frequencyCheck_some (sr : F32) (used : List F32) (hsr : SampleRateLegal sr) (j : Nat) (f : F32)
    (hj : used[j]? = some f) (hf : ¬ FrequencyLegal sr f) (h : ∀ g ∈ used.take j, FrequencyLegal sr g) :
    frequencyCheck sr used = some ⟨.frequency, BitVec.ofNat 8 j⟩ := by
  unfold frequencyCheck
  have : used.findIdx? (fun f => !legalFrequency sr f) = some j := by
    rw [List.findIdx?_eq_some_iff_getElem]
    obtain ⟨hlt, e⟩ := List.getElem?_eq_some_iff.1 hj
    refine ⟨hlt, ?_, ?_⟩
    · rw [e, Bool.not_eq_true', ← Bool.not_eq_true, legalFrequency_iff sr f hsr]; exact hf
    · intro i hi
      have := h used[i] (by rw [List.mem_take_iff_getElem]; exact ⟨i, by omega, rfl⟩)
      rw [(legalFrequency_iff sr _ hsr).2 this]; simp
  rw [this]

/-- When UPDATE raises no fault (R113). -/
theorem updateCheck_none {nb : Nat} {sr : F32} {freqs : List F32} (h1 : 2 ≤ nb) (h2 : nb ≤ 5)
    (hsr : SampleRateLegal sr) (h : ∀ f ∈ freqs.take (nb - 1), FrequencyLegal sr f) :
    updateCheck nb sr freqs = none := by
  unfold updateCheck
  rw [legalBandCount_true h1 h2, (legalSampleRate_iff sr).2 hsr]; exact frequencyCheck_none sr _ hsr h

/-- Every violation has a code other than 0 (R128), so fault entry halts the core. -/
theorem initCheck_code {mode : Nat} {v : Violation} (h : initCheck mode = some v) : v.code ≠ .none := by
  unfold initCheck at h
  split_ifs at h
  cases h; simp

theorem updateCheck_code {nb : Nat} {sr : F32} {freqs : List F32} {v : Violation}
    (h : updateCheck nb sr freqs = some v) : v.code ≠ .none := by
  unfold updateCheck frequencyCheck at h
  split_ifs at h
  · cases h; simp
  · cases h; simp
  · split at h <;> cases h; simp

theorem processCheck_code {nb : Nat} {s : State} {v : Violation} (h : processCheck nb s = some v) :
    v.code ≠ .none := by
  unfold processCheck at h
  split_ifs at h
  · cases h; simp
  · cases h; simp

theorem decodeViolation_code (f : DecodeFault) : (decodeViolation f).code ≠ .none := by
  cases f <;> simp [decodeViolation]

end Sys2Proof.Machine
end

