-- ==== Sys2Proof/Laws/State.lean ====
section
/-! SUPPORT. What each named update of State does to each field, so that no proof unfolds an update. -/

namespace Sys2Proof.Machine

open Sys2Proof.Config

@[simp] theorem State.setCoef_fsm (b : Fin NSLOT) (K : Kernel) (s : State) : (s.setCoef b K).fsm = s.fsm := rfl
@[simp] theorem State.setCoef_mode (b : Fin NSLOT) (K : Kernel) (s : State) : (s.setCoef b K).mode = s.mode := rfl
@[simp] theorem State.setCoef_cfgNb (b : Fin NSLOT) (K : Kernel) (s : State) : (s.setCoef b K).cfgNb = s.cfgNb := rfl
@[simp] theorem State.setCoef_coef (b : Fin NSLOT) (K : Kernel) (s : State) : (s.setCoef b K).coef = s.coef.set b K := rfl
@[simp] theorem State.setCoef_dl (b : Fin NSLOT) (K : Kernel) (s : State) : (s.setCoef b K).dl = s.dl := rfl
@[simp] theorem State.setCoef_cur (b : Fin NSLOT) (K : Kernel) (s : State) : (s.setCoef b K).cur = s.cur := rfl
@[simp] theorem State.setCoef_out (b : Fin NSLOT) (K : Kernel) (s : State) : (s.setCoef b K).out = s.out := rfl
@[simp] theorem State.setCoef_faultCode (b : Fin NSLOT) (K : Kernel) (s : State) : (s.setCoef b K).faultCode = s.faultCode := rfl
@[simp] theorem State.setCoef_faultWord (b : Fin NSLOT) (K : Kernel) (s : State) : (s.setCoef b K).faultWord = s.faultWord := rfl
@[simp] theorem State.setCoef_faultInfo (b : Fin NSLOT) (K : Kernel) (s : State) : (s.setCoef b K).faultInfo = s.faultInfo := rfl
@[simp] theorem State.setCoef_input (b : Fin NSLOT) (K : Kernel) (s : State) : (s.setCoef b K).input = s.input := rfl
@[simp] theorem State.setCoef_resp (b : Fin NSLOT) (K : Kernel) (s : State) : (s.setCoef b K).resp = s.resp := rfl
@[simp] theorem State.setCoef_draws (b : Fin NSLOT) (K : Kernel) (s : State) : (s.setCoef b K).draws = s.draws := rfl

@[simp] theorem State.setHistory_fsm (b : Fin NSLOT) (hist : DelayLine) (p : Fin L) (s : State) : (s.setHistory b hist p).fsm = s.fsm := rfl
@[simp] theorem State.setHistory_mode (b : Fin NSLOT) (hist : DelayLine) (p : Fin L) (s : State) : (s.setHistory b hist p).mode = s.mode := rfl
@[simp] theorem State.setHistory_cfgNb (b : Fin NSLOT) (hist : DelayLine) (p : Fin L) (s : State) : (s.setHistory b hist p).cfgNb = s.cfgNb := rfl
@[simp] theorem State.setHistory_coef (b : Fin NSLOT) (hist : DelayLine) (p : Fin L) (s : State) : (s.setHistory b hist p).coef = s.coef := rfl
@[simp] theorem State.setHistory_dl (b : Fin NSLOT) (hist : DelayLine) (p : Fin L) (s : State) : (s.setHistory b hist p).dl = s.dl.set b hist := rfl
@[simp] theorem State.setHistory_cur (b : Fin NSLOT) (hist : DelayLine) (p : Fin L) (s : State) : (s.setHistory b hist p).cur = s.cur.set b p := rfl
@[simp] theorem State.setHistory_out (b : Fin NSLOT) (hist : DelayLine) (p : Fin L) (s : State) : (s.setHistory b hist p).out = s.out := rfl
@[simp] theorem State.setHistory_faultCode (b : Fin NSLOT) (hist : DelayLine) (p : Fin L) (s : State) : (s.setHistory b hist p).faultCode = s.faultCode := rfl
@[simp] theorem State.setHistory_faultWord (b : Fin NSLOT) (hist : DelayLine) (p : Fin L) (s : State) : (s.setHistory b hist p).faultWord = s.faultWord := rfl
@[simp] theorem State.setHistory_faultInfo (b : Fin NSLOT) (hist : DelayLine) (p : Fin L) (s : State) : (s.setHistory b hist p).faultInfo = s.faultInfo := rfl
@[simp] theorem State.setHistory_input (b : Fin NSLOT) (hist : DelayLine) (p : Fin L) (s : State) : (s.setHistory b hist p).input = s.input := rfl
@[simp] theorem State.setHistory_resp (b : Fin NSLOT) (hist : DelayLine) (p : Fin L) (s : State) : (s.setHistory b hist p).resp = s.resp := rfl
@[simp] theorem State.setHistory_draws (b : Fin NSLOT) (hist : DelayLine) (p : Fin L) (s : State) : (s.setHistory b hist p).draws = s.draws := rfl

@[simp] theorem State.setOut_fsm (b : Fin NSLOT) (y : Pair) (s : State) : (s.setOut b y).fsm = s.fsm := rfl
@[simp] theorem State.setOut_mode (b : Fin NSLOT) (y : Pair) (s : State) : (s.setOut b y).mode = s.mode := rfl
@[simp] theorem State.setOut_cfgNb (b : Fin NSLOT) (y : Pair) (s : State) : (s.setOut b y).cfgNb = s.cfgNb := rfl
@[simp] theorem State.setOut_coef (b : Fin NSLOT) (y : Pair) (s : State) : (s.setOut b y).coef = s.coef := rfl
@[simp] theorem State.setOut_dl (b : Fin NSLOT) (y : Pair) (s : State) : (s.setOut b y).dl = s.dl := rfl
@[simp] theorem State.setOut_cur (b : Fin NSLOT) (y : Pair) (s : State) : (s.setOut b y).cur = s.cur := rfl
@[simp] theorem State.setOut_out (b : Fin NSLOT) (y : Pair) (s : State) : (s.setOut b y).out = s.out.set b y := rfl
@[simp] theorem State.setOut_faultCode (b : Fin NSLOT) (y : Pair) (s : State) : (s.setOut b y).faultCode = s.faultCode := rfl
@[simp] theorem State.setOut_faultWord (b : Fin NSLOT) (y : Pair) (s : State) : (s.setOut b y).faultWord = s.faultWord := rfl
@[simp] theorem State.setOut_faultInfo (b : Fin NSLOT) (y : Pair) (s : State) : (s.setOut b y).faultInfo = s.faultInfo := rfl
@[simp] theorem State.setOut_input (b : Fin NSLOT) (y : Pair) (s : State) : (s.setOut b y).input = s.input := rfl
@[simp] theorem State.setOut_resp (b : Fin NSLOT) (y : Pair) (s : State) : (s.setOut b y).resp = s.resp := rfl
@[simp] theorem State.setOut_draws (b : Fin NSLOT) (y : Pair) (s : State) : (s.setOut b y).draws = s.draws := rfl

@[simp] theorem State.setConfig_fsm (nb : Nat) (e : EngineState) (s : State) : (s.setConfig nb e).fsm = e := rfl
@[simp] theorem State.setConfig_mode (nb : Nat) (e : EngineState) (s : State) : (s.setConfig nb e).mode = s.mode := rfl
@[simp] theorem State.setConfig_cfgNb (nb : Nat) (e : EngineState) (s : State) : (s.setConfig nb e).cfgNb = nb := rfl
@[simp] theorem State.setConfig_coef (nb : Nat) (e : EngineState) (s : State) : (s.setConfig nb e).coef = s.coef := rfl
@[simp] theorem State.setConfig_dl (nb : Nat) (e : EngineState) (s : State) : (s.setConfig nb e).dl = s.dl := rfl
@[simp] theorem State.setConfig_cur (nb : Nat) (e : EngineState) (s : State) : (s.setConfig nb e).cur = s.cur := rfl
@[simp] theorem State.setConfig_out (nb : Nat) (e : EngineState) (s : State) : (s.setConfig nb e).out = s.out := rfl
@[simp] theorem State.setConfig_faultCode (nb : Nat) (e : EngineState) (s : State) : (s.setConfig nb e).faultCode = s.faultCode := rfl
@[simp] theorem State.setConfig_faultWord (nb : Nat) (e : EngineState) (s : State) : (s.setConfig nb e).faultWord = s.faultWord := rfl
@[simp] theorem State.setConfig_faultInfo (nb : Nat) (e : EngineState) (s : State) : (s.setConfig nb e).faultInfo = s.faultInfo := rfl
@[simp] theorem State.setConfig_input (nb : Nat) (e : EngineState) (s : State) : (s.setConfig nb e).input = s.input := rfl
@[simp] theorem State.setConfig_resp (nb : Nat) (e : EngineState) (s : State) : (s.setConfig nb e).resp = s.resp := rfl
@[simp] theorem State.setConfig_draws (nb : Nat) (e : EngineState) (s : State) : (s.setConfig nb e).draws = s.draws := rfl

@[simp] theorem State.setMode_fsm (m : BitVec 4) (s : State) : (s.setMode m).fsm = s.fsm := rfl
@[simp] theorem State.setMode_mode (m : BitVec 4) (s : State) : (s.setMode m).mode = m := rfl
@[simp] theorem State.setMode_cfgNb (m : BitVec 4) (s : State) : (s.setMode m).cfgNb = s.cfgNb := rfl
@[simp] theorem State.setMode_coef (m : BitVec 4) (s : State) : (s.setMode m).coef = s.coef := rfl
@[simp] theorem State.setMode_dl (m : BitVec 4) (s : State) : (s.setMode m).dl = s.dl := rfl
@[simp] theorem State.setMode_cur (m : BitVec 4) (s : State) : (s.setMode m).cur = s.cur := rfl
@[simp] theorem State.setMode_out (m : BitVec 4) (s : State) : (s.setMode m).out = s.out := rfl
@[simp] theorem State.setMode_faultCode (m : BitVec 4) (s : State) : (s.setMode m).faultCode = s.faultCode := rfl
@[simp] theorem State.setMode_faultWord (m : BitVec 4) (s : State) : (s.setMode m).faultWord = s.faultWord := rfl
@[simp] theorem State.setMode_faultInfo (m : BitVec 4) (s : State) : (s.setMode m).faultInfo = s.faultInfo := rfl
@[simp] theorem State.setMode_input (m : BitVec 4) (s : State) : (s.setMode m).input = s.input := rfl
@[simp] theorem State.setMode_resp (m : BitVec 4) (s : State) : (s.setMode m).resp = s.resp := rfl
@[simp] theorem State.setMode_draws (m : BitVec 4) (s : State) : (s.setMode m).draws = s.draws := rfl

@[simp] theorem State.setFault_fsm (c : FaultCode) (w : Word) (i : BitVec 8) (s : State) : (s.setFault c w i).fsm = s.fsm := rfl
@[simp] theorem State.setFault_mode (c : FaultCode) (w : Word) (i : BitVec 8) (s : State) : (s.setFault c w i).mode = s.mode := rfl
@[simp] theorem State.setFault_cfgNb (c : FaultCode) (w : Word) (i : BitVec 8) (s : State) : (s.setFault c w i).cfgNb = s.cfgNb := rfl
@[simp] theorem State.setFault_coef (c : FaultCode) (w : Word) (i : BitVec 8) (s : State) : (s.setFault c w i).coef = s.coef := rfl
@[simp] theorem State.setFault_dl (c : FaultCode) (w : Word) (i : BitVec 8) (s : State) : (s.setFault c w i).dl = s.dl := rfl
@[simp] theorem State.setFault_cur (c : FaultCode) (w : Word) (i : BitVec 8) (s : State) : (s.setFault c w i).cur = s.cur := rfl
@[simp] theorem State.setFault_out (c : FaultCode) (w : Word) (i : BitVec 8) (s : State) : (s.setFault c w i).out = s.out := rfl
@[simp] theorem State.setFault_faultCode (c : FaultCode) (w : Word) (i : BitVec 8) (s : State) : (s.setFault c w i).faultCode = c := rfl
@[simp] theorem State.setFault_faultWord (c : FaultCode) (w : Word) (i : BitVec 8) (s : State) : (s.setFault c w i).faultWord = w := rfl
@[simp] theorem State.setFault_faultInfo (c : FaultCode) (w : Word) (i : BitVec 8) (s : State) : (s.setFault c w i).faultInfo = i := rfl
@[simp] theorem State.setFault_input (c : FaultCode) (w : Word) (i : BitVec 8) (s : State) : (s.setFault c w i).input = s.input := rfl
@[simp] theorem State.setFault_resp (c : FaultCode) (w : Word) (i : BitVec 8) (s : State) : (s.setFault c w i).resp = s.resp := rfl
@[simp] theorem State.setFault_draws (c : FaultCode) (w : Word) (i : BitVec 8) (s : State) : (s.setFault c w i).draws = s.draws := rfl

@[simp] theorem State.setResp_fsm (ws : List Word) (s : State) : (s.setResp ws).fsm = s.fsm := rfl
@[simp] theorem State.setResp_mode (ws : List Word) (s : State) : (s.setResp ws).mode = s.mode := rfl
@[simp] theorem State.setResp_cfgNb (ws : List Word) (s : State) : (s.setResp ws).cfgNb = s.cfgNb := rfl
@[simp] theorem State.setResp_coef (ws : List Word) (s : State) : (s.setResp ws).coef = s.coef := rfl
@[simp] theorem State.setResp_dl (ws : List Word) (s : State) : (s.setResp ws).dl = s.dl := rfl
@[simp] theorem State.setResp_cur (ws : List Word) (s : State) : (s.setResp ws).cur = s.cur := rfl
@[simp] theorem State.setResp_out (ws : List Word) (s : State) : (s.setResp ws).out = s.out := rfl
@[simp] theorem State.setResp_faultCode (ws : List Word) (s : State) : (s.setResp ws).faultCode = s.faultCode := rfl
@[simp] theorem State.setResp_faultWord (ws : List Word) (s : State) : (s.setResp ws).faultWord = s.faultWord := rfl
@[simp] theorem State.setResp_faultInfo (ws : List Word) (s : State) : (s.setResp ws).faultInfo = s.faultInfo := rfl
@[simp] theorem State.setResp_input (ws : List Word) (s : State) : (s.setResp ws).input = s.input := rfl
@[simp] theorem State.setResp_resp (ws : List Word) (s : State) : (s.setResp ws).resp = ws := rfl
@[simp] theorem State.setResp_draws (ws : List Word) (s : State) : (s.setResp ws).draws = s.draws := rfl

@[simp] theorem State.setInput_fsm (es : List HostEvent) (s : State) : (s.setInput es).fsm = s.fsm := rfl
@[simp] theorem State.setInput_mode (es : List HostEvent) (s : State) : (s.setInput es).mode = s.mode := rfl
@[simp] theorem State.setInput_cfgNb (es : List HostEvent) (s : State) : (s.setInput es).cfgNb = s.cfgNb := rfl
@[simp] theorem State.setInput_coef (es : List HostEvent) (s : State) : (s.setInput es).coef = s.coef := rfl
@[simp] theorem State.setInput_dl (es : List HostEvent) (s : State) : (s.setInput es).dl = s.dl := rfl
@[simp] theorem State.setInput_cur (es : List HostEvent) (s : State) : (s.setInput es).cur = s.cur := rfl
@[simp] theorem State.setInput_out (es : List HostEvent) (s : State) : (s.setInput es).out = s.out := rfl
@[simp] theorem State.setInput_faultCode (es : List HostEvent) (s : State) : (s.setInput es).faultCode = s.faultCode := rfl
@[simp] theorem State.setInput_faultWord (es : List HostEvent) (s : State) : (s.setInput es).faultWord = s.faultWord := rfl
@[simp] theorem State.setInput_faultInfo (es : List HostEvent) (s : State) : (s.setInput es).faultInfo = s.faultInfo := rfl
@[simp] theorem State.setInput_input (es : List HostEvent) (s : State) : (s.setInput es).input = es := rfl
@[simp] theorem State.setInput_resp (es : List HostEvent) (s : State) : (s.setInput es).resp = s.resp := rfl
@[simp] theorem State.setInput_draws (es : List HostEvent) (s : State) : (s.setInput es).draws = s.draws := rfl

@[simp] theorem State.useDraws_fsm (n : Nat) (s : State) : (s.useDraws n).fsm = s.fsm := rfl
@[simp] theorem State.useDraws_mode (n : Nat) (s : State) : (s.useDraws n).mode = s.mode := rfl
@[simp] theorem State.useDraws_cfgNb (n : Nat) (s : State) : (s.useDraws n).cfgNb = s.cfgNb := rfl
@[simp] theorem State.useDraws_coef (n : Nat) (s : State) : (s.useDraws n).coef = s.coef := rfl
@[simp] theorem State.useDraws_dl (n : Nat) (s : State) : (s.useDraws n).dl = s.dl := rfl
@[simp] theorem State.useDraws_cur (n : Nat) (s : State) : (s.useDraws n).cur = s.cur := rfl
@[simp] theorem State.useDraws_out (n : Nat) (s : State) : (s.useDraws n).out = s.out := rfl
@[simp] theorem State.useDraws_faultCode (n : Nat) (s : State) : (s.useDraws n).faultCode = s.faultCode := rfl
@[simp] theorem State.useDraws_faultWord (n : Nat) (s : State) : (s.useDraws n).faultWord = s.faultWord := rfl
@[simp] theorem State.useDraws_faultInfo (n : Nat) (s : State) : (s.useDraws n).faultInfo = s.faultInfo := rfl
@[simp] theorem State.useDraws_input (n : Nat) (s : State) : (s.useDraws n).input = s.input := rfl
@[simp] theorem State.useDraws_resp (n : Nat) (s : State) : (s.useDraws n).resp = s.resp := rfl
@[simp] theorem State.useDraws_draws (n : Nat) (s : State) : (s.useDraws n).draws = s.draws + n := rfl

/-- Two states with equal fields are equal. -/
theorem State.ext_fields {s t : State} (h1 : s.fsm = t.fsm) (h2 : s.mode = t.mode) (h3 : s.cfgNb = t.cfgNb)
    (h4 : s.coef = t.coef) (h5 : s.dl = t.dl) (h6 : s.cur = t.cur) (h7 : s.out = t.out)
    (h8 : s.faultCode = t.faultCode) (h9 : s.faultWord = t.faultWord) (h10 : s.faultInfo = t.faultInfo)
    (h11 : s.input = t.input) (h12 : s.resp = t.resp) (h13 : s.draws = t.draws) : s = t := by
  cases s; cases t; simp_all

end Sys2Proof.Machine
end

