-- ==== Sys2Proof/Laws/Ops.lean ====
section
/-! SUPPORT. What each shared operation can do, said once: responding, fault entry, the halted state, the array operations over the slots, and the filter step. -/

namespace Sys2Proof.Machine

open Sys2Proof.Config

/-! ### Responding and fault entry -/

@[simp] theorem respond_fsm (data : List Word) (s : State) : (respond data s).fsm = s.fsm := rfl
@[simp] theorem respond_mode (data : List Word) (s : State) : (respond data s).mode = s.mode := rfl
@[simp] theorem respond_cfgNb (data : List Word) (s : State) : (respond data s).cfgNb = s.cfgNb := rfl
@[simp] theorem respond_coef (data : List Word) (s : State) : (respond data s).coef = s.coef := rfl
@[simp] theorem respond_dl (data : List Word) (s : State) : (respond data s).dl = s.dl := rfl
@[simp] theorem respond_cur (data : List Word) (s : State) : (respond data s).cur = s.cur := rfl
@[simp] theorem respond_out (data : List Word) (s : State) : (respond data s).out = s.out := rfl
@[simp] theorem respond_faultCode (data : List Word) (s : State) : (respond data s).faultCode = s.faultCode := rfl
@[simp] theorem respond_faultWord (data : List Word) (s : State) : (respond data s).faultWord = s.faultWord := rfl
@[simp] theorem respond_faultInfo (data : List Word) (s : State) : (respond data s).faultInfo = s.faultInfo := rfl
@[simp] theorem respond_input (data : List Word) (s : State) : (respond data s).input = s.input := rfl
@[simp] theorem respond_draws (data : List Word) (s : State) : (respond data s).draws = s.draws := rfl

/-- STATUS depends on no field that a response changes (R57). -/
@[simp] theorem statusWord_respond (data : List Word) (s : State) :
    statusWord (respond data s) = statusWord s := rfl

@[simp] theorem respond_resp (data : List Word) (s : State) :
    (respond data s).resp = statusWord s :: s.faultWord :: data := rfl

/-- Fault entry (R129), all of it. -/
theorem faultEntry_taken (v : Violation) (w : Word) (s : State) : FaultTaken v w s (faultEntry v w s) :=
  ⟨rfl, rfl, rfl, ⟨rfl, rfl, rfl, rfl, rfl, rfl, rfl⟩, ⟨rfl, rfl⟩, rfl⟩

theorem unlessHalted_running {cmd : State → State} {s : State} (h : Running s) :
    unlessHalted cmd s = cmd s := if_pos h

theorem unlessHalted_halted {cmd : State → State} {s : State} (h : ¬ Running s) :
    unlessHalted cmd s = respond [] s := if_neg h

/-- A checked command does one of three things: it is ignored by a halted core, it is entered as a fault, or
it runs. -/
theorem checked_cases (check : State → Option Violation) (w : Word) (run : State → State) (s : State) :
    (¬ Running s ∧ checked check w run s = respond [] s) ∨
      (∃ v, Running s ∧ check s = some v ∧ checked check w run s = faultEntry v w s) ∨
      (Running s ∧ check s = none ∧ checked check w run s = run s) := by
  by_cases h : Running s
  · right
    unfold checked
    rw [unlessHalted_running h]
    cases hc : check s with
    | some v => left; exact ⟨v, h, rfl, rfl⟩
    | none => right; exact ⟨h, rfl, rfl⟩
  · left; exact ⟨h, unlessHalted_halted h⟩

theorem checked_run {check : State → Option Violation} {w : Word} {run : State → State} {s : State}
    (h : Running s) (hc : check s = none) : checked check w run s = run s := by
  unfold checked; rw [unlessHalted_running h]; simp only [hc]

theorem checked_fault {check : State → Option Violation} {w : Word} {run : State → State} {s : State}
    {v : Violation} (h : Running s) (hc : check s = some v) :
    checked check w run s = faultEntry v w s := by
  unfold checked; rw [unlessHalted_running h]; simp only [hc]

theorem checked_halted {check : State → Option Violation} {w : Word} {run : State → State} {s : State}
    (h : ¬ Running s) : checked check w run s = respond [] s := unlessHalted_halted h

/-! ### The slots -/

theorem slots_eq : slots = [0, 1, 2, 3, 4] := rfl

theorem slots_nodup : slots.Nodup := List.nodup_finRange _

theorem mem_slots (b : Fin NSLOT) : b ∈ slots := List.mem_finRange b

@[simp] theorem slots_length : slots.length = 5 := List.length_finRange

theorem slots_getElem (i : Nat) (h : i < slots.length) : (slots[i]).val = i := by simp [slots]

/-- The slots below nb. -/
theorem mem_activeSlots (nb : Nat) (b : Fin NSLOT) : b ∈ activeSlots nb ↔ b.val < nb := by
  unfold activeSlots
  rw [List.mem_take_iff_getElem]
  constructor
  · rintro ⟨i, hi, rfl⟩
    rw [slots_getElem]; omega
  · intro h
    exact ⟨b.val, by have := b.isLt; simp; omega, Fin.ext (slots_getElem _ _)⟩

/-- A vector whose entries are all equal is the replicated one. -/
theorem vector_eq_replicate {α : Type} {n : Nat} (v : Vector α n) (a : α)
    (h : ∀ i : Fin n, v[i] = a) : v = Vector.replicate n a := by
  ext i hi
  simpa using h ⟨i, hi⟩

@[simp] theorem firClear_fsm (b : Fin NSLOT) (s : State) : (firClear b s).fsm = s.fsm := rfl
@[simp] theorem firClear_mode (b : Fin NSLOT) (s : State) : (firClear b s).mode = s.mode := rfl
@[simp] theorem firClear_cfgNb (b : Fin NSLOT) (s : State) : (firClear b s).cfgNb = s.cfgNb := rfl
@[simp] theorem firClear_coef (b : Fin NSLOT) (s : State) : (firClear b s).coef = s.coef := rfl
@[simp] theorem firClear_out (b : Fin NSLOT) (s : State) : (firClear b s).out = s.out := rfl
@[simp] theorem firClear_faultCode (b : Fin NSLOT) (s : State) : (firClear b s).faultCode = s.faultCode := rfl
@[simp] theorem firClear_faultWord (b : Fin NSLOT) (s : State) : (firClear b s).faultWord = s.faultWord := rfl
@[simp] theorem firClear_faultInfo (b : Fin NSLOT) (s : State) : (firClear b s).faultInfo = s.faultInfo := rfl
@[simp] theorem firClear_input (b : Fin NSLOT) (s : State) : (firClear b s).input = s.input := rfl
@[simp] theorem firClear_resp (b : Fin NSLOT) (s : State) : (firClear b s).resp = s.resp := rfl
@[simp] theorem firClear_draws (b : Fin NSLOT) (s : State) : (firClear b s).draws = s.draws := rfl

/-- FIR_CLEAR of every slot (R102, R116): DL and CUR are cleared, nothing else changes. -/
theorem clearAll_eq (s : State) :
    clearAll s = { s with dl := Vector.replicate NSLOT clearLine, cur := Vector.replicate NSLOT 0 } := by
  unfold clearAll
  rw [slots_eq]
  simp only [List.foldl, firClear, State.setHistory]
  congr 1
  · apply vector_eq_replicate; intro i; fin_cases i <;> simp [Vector.getElem_set]
  · apply vector_eq_replicate; intro i; fin_cases i <;> simp [Vector.getElem_set]

/-- The state INIT leaves (R35, R111). -/
theorem initEngine_eq (mode : Nat) (s : State) :
    initEngine mode s =
      { s with
        mode := BitVec.ofNat 4 mode, cfgNb := 0, fsm := .uninit,
        coef := Vector.replicate NSLOT identityKernel, dl := Vector.replicate NSLOT clearLine,
        cur := Vector.replicate NSLOT 0, out := Vector.replicate NSLOT zeroPair } := by
  unfold initEngine
  rw [slots_eq]
  simp only [List.foldl, recreateSlot, firClear, State.setHistory, State.setCoef, State.setOut, State.setMode,
    State.setConfig]
  congr 1
  · apply vector_eq_replicate; intro i; fin_cases i <;> simp [Vector.getElem_set]
  · apply vector_eq_replicate; intro i; fin_cases i <;> simp [Vector.getElem_set]
  · apply vector_eq_replicate; intro i; fin_cases i <;> simp [Vector.getElem_set]
  · apply vector_eq_replicate; intro i; fin_cases i <;> simp [Vector.getElem_set]

/-! ### Loading the band kernels -/

/-- Loading pairs of a slot and a kernel changes COEF alone. -/
theorem loadPairs_frame (ps : List (Fin NSLOT × Kernel)) (s : State) :
    ∃ c, ps.foldl (fun s bk => s.setCoef bk.1 bk.2) s = { s with coef := c } := by
  induction ps generalizing s with
  | nil => exact ⟨s.coef, rfl⟩
  | cons p ps ih =>
    obtain ⟨c, hc⟩ := ih (s.setCoef p.1 p.2)
    exact ⟨c, by rw [List.foldl_cons, hc]; rfl⟩

/-- Loading the bands changes COEF alone (R113, R114). -/
theorem loadBands_frame (bands : List Kernel) (s : State) :
    ∃ c, loadBands bands s = { s with coef := c } := loadPairs_frame _ s

/-- A slot that no pair names keeps its kernel. -/
theorem loadPairs_other (ps : List (Fin NSLOT × Kernel)) (s : State) (b : Fin NSLOT)
    (h : ∀ p ∈ ps, p.1 ≠ b) : (ps.foldl (fun s bk => s.setCoef bk.1 bk.2) s).coef[b] = s.coef[b] := by
  induction ps generalizing s with
  | nil => rfl
  | cons p ps ih =>
    rw [List.foldl_cons, ih _ fun q hq => h q (List.mem_cons_of_mem _ hq)]
    have hp : p.1.val ≠ b.val := fun e => h p List.mem_cons_self (Fin.ext e)
    simp [State.setCoef, hp]

/-- A slot that one pair names holds its kernel. -/
theorem loadPairs_at (ps : List (Fin NSLOT × Kernel)) (s : State) (hn : (ps.map Prod.fst).Nodup)
    (b : Fin NSLOT) (K : Kernel) (h : (b, K) ∈ ps) :
    (ps.foldl (fun s bk => s.setCoef bk.1 bk.2) s).coef[b] = K := by
  induction ps generalizing s with
  | nil => cases h
  | cons p ps ih =>
    rw [List.map_cons, List.nodup_cons] at hn
    rw [List.foldl_cons]
    rcases List.mem_cons.1 h with rfl | h
    · rw [loadPairs_other]
      · simp [State.setCoef]
      · intro q hq e
        exact hn.1 (List.mem_map.2 ⟨q, hq, e⟩)
    · exact ih _ hn.2 h

theorem map_fst_zip_take {α β : Type} (l : List α) (m : List β) :
    (l.zip m).map Prod.fst = l.take m.length := by
  induction l generalizing m with
  | nil => simp
  | cons a l ih => cases m <;> simp [ih]

/-- Slot b gets band b (R113). -/
theorem loadBands_at (bands : List Kernel) (s : State) (b : Fin NSLOT) (h : b.val < bands.length) :
    (loadBands bands s).coef[b] = bands[b.val] := by
  apply loadPairs_at
  · rw [map_fst_zip_take]
    exact slots_nodup.sublist (List.take_sublist _ _)
  · rw [List.mem_iff_getElem]
    have hb := b.isLt
    refine ⟨b.val, by simp [List.length_zip]; omega, ?_⟩
    rw [List.getElem_zip]
    exact Prod.ext (Fin.ext (slots_getElem _ _)) rfl

/-- The slots past the bands are stale: they keep their kernels (R114). -/
theorem loadBands_other (bands : List Kernel) (s : State) (b : Fin NSLOT) (h : bands.length ≤ b.val) :
    (loadBands bands s).coef[b] = s.coef[b] := by
  apply loadPairs_other
  rintro ⟨c, K⟩ hp rfl
  obtain ⟨i, hi, e⟩ := List.mem_iff_getElem.1 hp
  rw [List.getElem_zip, Prod.mk.injEq] at e
  rw [List.length_zip] at hi
  have := slots_getElem i (by omega)
  rw [e.1] at this
  simp only at h
  omega

/-! ### The command step -/

/-- The command step performs the command at the port, enters the fault of a word that encodes none, or waits. -/
theorem commandStep_cases (perform : Instr → State → Host.Outcome State Fault Refusal) (s : State) :
    (∃ i n, decode (leadingWords s.input) = .command i n ∧
      commandStep perform s = perform i (s.setInput (s.input.drop n))) ∨
    (∃ f w n, decode (leadingWords s.input) = .rejected f w n ∧
      commandStep perform s = .next (rejectWord f w (s.setInput (s.input.drop n)))) ∨
    (decode (leadingWords s.input) = .incomplete ∧ commandStep perform s = .next (waitForHost s)) := by
  unfold commandStep
  cases h : decode (leadingWords s.input) with
  | command i n => exact .inl ⟨i, n, rfl, rfl⟩
  | rejected f w n => exact .inr (.inl ⟨f, w, n, rfl, rfl⟩)
  | incomplete => exact .inr (.inr ⟨rfl, rfl⟩)

/-! ### The filter step -/

@[simp] theorem firStep_fsm (P : Params) (b : Fin NSLOT) (x : Pair) (s : State) : (firStep P b x s).2.fsm = s.fsm := rfl
@[simp] theorem firStep_mode (P : Params) (b : Fin NSLOT) (x : Pair) (s : State) : (firStep P b x s).2.mode = s.mode := rfl
@[simp] theorem firStep_cfgNb (P : Params) (b : Fin NSLOT) (x : Pair) (s : State) : (firStep P b x s).2.cfgNb = s.cfgNb := rfl
@[simp] theorem firStep_coef (P : Params) (b : Fin NSLOT) (x : Pair) (s : State) : (firStep P b x s).2.coef = s.coef := rfl
@[simp] theorem firStep_out (P : Params) (b : Fin NSLOT) (x : Pair) (s : State) : (firStep P b x s).2.out = s.out := rfl
@[simp] theorem firStep_faultCode (P : Params) (b : Fin NSLOT) (x : Pair) (s : State) : (firStep P b x s).2.faultCode = s.faultCode := rfl
@[simp] theorem firStep_faultWord (P : Params) (b : Fin NSLOT) (x : Pair) (s : State) : (firStep P b x s).2.faultWord = s.faultWord := rfl
@[simp] theorem firStep_faultInfo (P : Params) (b : Fin NSLOT) (x : Pair) (s : State) : (firStep P b x s).2.faultInfo = s.faultInfo := rfl
@[simp] theorem firStep_input (P : Params) (b : Fin NSLOT) (x : Pair) (s : State) : (firStep P b x s).2.input = s.input := rfl
@[simp] theorem firStep_resp (P : Params) (b : Fin NSLOT) (x : Pair) (s : State) : (firStep P b x s).2.resp = s.resp := rfl

theorem firStep_output (P : Params) (b : Fin NSLOT) (x : Pair) (s : State) :
    (firStep P b x s).1 = convolve P s.draws s.coef[b] s.dl[b] s.cur[b] x := by simp only [firStep]

theorem firStep_draws (P : Params) (b : Fin NSLOT) (x : Pair) (s : State) :
    (firStep P b x s).2.draws = s.draws + drawsPerStep := rfl

/-- The input is written at the cursor (R97). -/
theorem firStep_dl_at (P : Params) (b : Fin NSLOT) (x : Pair) (s : State) :
    (firStep P b x s).2.dl[b] = s.dl[b].set s.cur[b] x := by simp [firStep]

/-- The cursor advances modulo L (R97). -/
theorem firStep_cur_at (P : Params) (b : Fin NSLOT) (x : Pair) (s : State) :
    (firStep P b x s).2.cur[b] = nextCursor s.cur[b] := by simp [firStep]

/-- No other slot's history changes. -/
theorem firStep_other (P : Params) (b c : Fin NSLOT) (x : Pair) (s : State) (h : c ≠ b) :
    (firStep P b x s).2.dl[c] = s.dl[c] ∧ (firStep P b x s).2.cur[c] = s.cur[c] := by
  have h' : b.val ≠ c.val := fun e => h (Fin.ext e.symm)
  constructor <;> simp [firStep, h']

@[simp] theorem stepSlot_fsm (P : Params) (x : Pair) (b : Fin NSLOT) (s : State) : (stepSlot P x b s).fsm = s.fsm := rfl
@[simp] theorem stepSlot_mode (P : Params) (x : Pair) (b : Fin NSLOT) (s : State) : (stepSlot P x b s).mode = s.mode := rfl
@[simp] theorem stepSlot_cfgNb (P : Params) (x : Pair) (b : Fin NSLOT) (s : State) : (stepSlot P x b s).cfgNb = s.cfgNb := rfl
@[simp] theorem stepSlot_coef (P : Params) (x : Pair) (b : Fin NSLOT) (s : State) : (stepSlot P x b s).coef = s.coef := rfl
@[simp] theorem stepSlot_faultCode (P : Params) (x : Pair) (b : Fin NSLOT) (s : State) : (stepSlot P x b s).faultCode = s.faultCode := rfl
@[simp] theorem stepSlot_faultWord (P : Params) (x : Pair) (b : Fin NSLOT) (s : State) : (stepSlot P x b s).faultWord = s.faultWord := rfl
@[simp] theorem stepSlot_faultInfo (P : Params) (x : Pair) (b : Fin NSLOT) (s : State) : (stepSlot P x b s).faultInfo = s.faultInfo := rfl
@[simp] theorem stepSlot_input (P : Params) (x : Pair) (b : Fin NSLOT) (s : State) : (stepSlot P x b s).input = s.input := rfl
@[simp] theorem stepSlot_resp (P : Params) (x : Pair) (b : Fin NSLOT) (s : State) : (stepSlot P x b s).resp = s.resp := rfl

@[simp] theorem stepSlot_draws (P : Params) (x : Pair) (b : Fin NSLOT) (s : State) :
    (stepSlot P x b s).draws = s.draws + drawsPerStep := rfl

/-- What a step of slot b leaves in slot b. -/
theorem stepSlot_at (P : Params) (x : Pair) (b : Fin NSLOT) (s : State) :
    (stepSlot P x b s).dl[b] = s.dl[b].set s.cur[b] x ∧
      (stepSlot P x b s).cur[b] = nextCursor s.cur[b] ∧
      (stepSlot P x b s).out[b] = convolve P s.draws s.coef[b] s.dl[b] s.cur[b] x := by
  refine ⟨firStep_dl_at P b x s, firStep_cur_at P b x s, ?_⟩
  simp [stepSlot, firStep_output]

/-- What a step of slot b leaves in another slot: everything. -/
theorem stepSlot_other (P : Params) (x : Pair) (b c : Fin NSLOT) (s : State) (h : c ≠ b) :
    (stepSlot P x b s).dl[c] = s.dl[c] ∧ (stepSlot P x b s).cur[c] = s.cur[c] ∧
      (stepSlot P x b s).out[c] = s.out[c] := by
  have h' : b.val ≠ c.val := fun e => h (Fin.ext e.symm)
  refine ⟨(firStep_other P b c x s h).1, (firStep_other P b c x s h).2, ?_⟩
  simp [stepSlot, h']

/-- Steps of several slots change DL, CUR, OUT and the free NaN index alone. -/
theorem stepList_frame (P : Params) (x : Pair) (bs : List (Fin NSLOT)) (s : State) :
    ∃ d c o, bs.foldl (fun s b => stepSlot P x b s) s =
      { s with dl := d, cur := c, out := o, draws := s.draws + drawsPerStep * bs.length } := by
  induction bs generalizing s with
  | nil => exact ⟨s.dl, s.cur, s.out, rfl⟩
  | cons b bs ih =>
    obtain ⟨d, c, o, h⟩ := ih (stepSlot P x b s)
    refine ⟨d, c, o, ?_⟩
    rw [List.foldl_cons, h, List.length_cons, Nat.mul_succ]
    have : (stepSlot P x b s).draws + drawsPerStep * bs.length =
        s.draws + (drawsPerStep * bs.length + drawsPerStep) := by
      rw [stepSlot_draws]; omega
    rw [this]
    rfl

/-- A slot that is not stepped keeps its history, cursor and output (R119). -/
theorem stepList_other (P : Params) (x : Pair) (bs : List (Fin NSLOT)) (s : State) (c : Fin NSLOT)
    (h : c ∉ bs) :
    (bs.foldl (fun s b => stepSlot P x b s) s).dl[c] = s.dl[c] ∧
      (bs.foldl (fun s b => stepSlot P x b s) s).cur[c] = s.cur[c] ∧
      (bs.foldl (fun s b => stepSlot P x b s) s).out[c] = s.out[c] := by
  induction bs generalizing s with
  | nil => exact ⟨rfl, rfl, rfl⟩
  | cons b bs ih =>
    rw [List.mem_cons, not_or] at h
    obtain ⟨h1, h2, h3⟩ := ih (stepSlot P x b s) h.2
    obtain ⟨g1, g2, g3⟩ := stepSlot_other P x b c s h.1
    exact ⟨h1.trans g1, h2.trans g2, h3.trans g3⟩

/-- What steps of distinct slots leave in the i-th of them: its own FIR_STEP, with the NaN draws that follow
those of the slots before it. -/
theorem stepList_at (P : Params) (x : Pair) (bs : List (Fin NSLOT)) (hn : bs.Nodup) (s : State) (i : Nat)
    (hi : i < bs.length) (c : Fin NSLOT) (hc : bs[i] = c) :
    (bs.foldl (fun s b => stepSlot P x b s) s).dl[c] = s.dl[c].set s.cur[c] x ∧
      (bs.foldl (fun s b => stepSlot P x b s) s).cur[c] = nextCursor s.cur[c] ∧
      (bs.foldl (fun s b => stepSlot P x b s) s).out[c] =
        convolve P (s.draws + drawsPerStep * i) s.coef[c] s.dl[c] s.cur[c] x := by
  induction bs generalizing s i with
  | nil => cases hi
  | cons b bs ih =>
    rw [List.nodup_cons] at hn
    rw [List.foldl_cons]
    cases i with
    | zero =>
      obtain rfl : b = c := hc
      obtain ⟨h1, h2, h3⟩ := stepList_other P x bs (stepSlot P x b s) b hn.1
      obtain ⟨g1, g2, g3⟩ := stepSlot_at P x b s
      exact ⟨h1.trans g1, h2.trans g2, h3.trans (by rw [g3]; rfl)⟩
    | succ i =>
      have hc' : bs[i]'(by simpa using hi) = c := by simpa using hc
      have hne : c ≠ b := by
        rintro rfl
        exact hn.1 (hc' ▸ List.getElem_mem _)
      obtain ⟨g1, g2, g3⟩ := stepSlot_other P x b c s hne
      obtain ⟨h1, h2, h3⟩ := ih hn.2 (stepSlot P x b s) i (by simpa using hi) hc'
      have hd : (stepSlot P x b s).draws + drawsPerStep * i = s.draws + drawsPerStep * (i + 1) := by
        rw [stepSlot_draws, Nat.mul_succ]; omega
      refine ⟨h1.trans ?_, h2.trans (by rw [g2]), h3.trans ?_⟩
      · simp only [g1, g2]
      · rw [hd, g1, g2, stepSlot_coef]

/-- The active slots after PROCESS's loop (R118). -/
theorem stepSlots_at (P : Params) (nb : Nat) (x : Pair) (s : State) (b : Fin NSLOT) (h : b.val < nb) :
    (stepSlots P nb x s).dl[b] = s.dl[b].set s.cur[b] x ∧
      (stepSlots P nb x s).cur[b] = nextCursor s.cur[b] ∧
      (stepSlots P nb x s).out[b] =
        convolve P (s.draws + drawsPerStep * b.val) s.coef[b] s.dl[b] s.cur[b] x := by
  have hb := b.isLt
  have hlen : b.val < (activeSlots nb).length := by simp [activeSlots]; omega
  refine stepList_at P x (activeSlots nb) (slots_nodup.sublist (List.take_sublist _ _)) s b.val hlen b ?_
  apply Fin.ext
  simp only [activeSlots, List.getElem_take]
  exact slots_getElem _ _

/-- The inactive slots after PROCESS's loop (R119). -/
theorem stepSlots_other (P : Params) (nb : Nat) (x : Pair) (s : State) (b : Fin NSLOT) (h : nb ≤ b.val) :
    (stepSlots P nb x s).dl[b] = s.dl[b] ∧ (stepSlots P nb x s).cur[b] = s.cur[b] ∧
      (stepSlots P nb x s).out[b] = s.out[b] :=
  stepList_other P x (activeSlots nb) s b (by rw [mem_activeSlots]; omega)

/-- The cursor's post-increment wraps 127 to 0 (R91). -/
theorem nextCursor_val (p : Fin L) : (nextCursor p).val = (p.val + 1) % 128 := by
  unfold nextCursor
  rw [Fin.val_add]; rfl

/-- The data words of PROCESS, one by one (R57). -/
theorem outWords_eq (s : State) :
    outWords s =
      [s.out[0].l, s.out[0].r, s.out[1].l, s.out[1].r, s.out[2].l, s.out[2].r, s.out[3].l, s.out[3].r,
        s.out[4].l, s.out[4].r] := by
  have : s.out.toList = [s.out[0], s.out[1], s.out[2], s.out[3], s.out[4]] := by
    apply List.ext_getElem (by simp)
    intro i hi hi'
    simp only [List.length_cons, List.length_nil] at hi'
    have : i = 0 ∨ i = 1 ∨ i = 2 ∨ i = 3 ∨ i = 4 := by omega
    rcases this with rfl | rfl | rfl | rfl | rfl <;> simp
  unfold outWords
  rw [this]; rfl

/-- The taps of the identity kernel (R15). -/
theorem identityKernel_at (k : Fin F) :
    identityKernel[k] = if k.val = 60 then onePair else zeroPair := by
  simp only [identityKernel, Fin.getElem_fin, Vector.getElem_set, Vector.getElem_replicate]
  by_cases h : k.val = 60
  · rw [if_pos h, if_pos h.symm]
  · rw [if_neg h, if_neg (Ne.symm h)]

/-- The index of the entry k behind the cursor (R91, R97). -/
theorem historyIndex_val (p : Fin L) (k : Nat) (hk : k ≤ 128) :
    (historyIndex p k).val = (p.val + 128 - k) % 128 := by
  unfold historyIndex
  rw [Fin.sub_def]
  show (128 - k % 128 + p.val) % 128 = _
  omega

/-- The taps that read the history are 1 to 120, ascending (R97). -/
theorem laterTaps_eq : laterTaps = (List.range 120).map fun j => Fin.ofNat F (j + 1) := by decide +kernel

theorem filterOutputs_length (P : Params) (b : Fin NSLOT) (xs : List Pair) (s : State) :
    (filterOutputs P b xs s).length = xs.length := by
  induction xs generalizing s with
  | nil => rfl
  | cons x xs ih => simp [filterOutputs, ih]

theorem feed_append (P : Params) (b : Fin NSLOT) (xs : List Pair) (x : Pair) (s : State) :
    feed P b (xs ++ [x]) s = (firStep P b x (feed P b xs s)).2 := by
  induction xs generalizing s with
  | nil => rfl
  | cons a xs ih => simp only [List.cons_append, feed]; rw [ih]

/-! ### Power-on reset -/

/-- Power-on reset restores the persistent state of reset (R141). -/
theorem powerOnReset_persistent (rest : List HostEvent) (s : State) :
    SamePersistent State.reset (powerOnReset rest s) := ⟨rfl, rfl, rfl, rfl, rfl, rfl, rfl, rfl, rfl, rfl⟩

@[simp] theorem powerOnReset_input (rest : List HostEvent) (s : State) :
    (powerOnReset rest s).input = rest := rfl

@[simp] theorem powerOnReset_draws (rest : List HostEvent) (s : State) :
    (powerOnReset rest s).draws = s.draws := rfl

end Sys2Proof.Machine
end

