-- ==== Sys2Proof/Laws/Engine.lean ====
section
/-! SUPPORT. What a command can do, said once: it is ignored by a halted core, it is entered as a fault, or it leaves its own state. -/

namespace Sys2Proof.Machine

open Sys2Proof.Config

/-- The machine is the one whose parameters are the defaults of R8 (log entry 6). -/
theorem exec_eq_execWith : exec = execWith defaults := by
  funext i s; cases i <;> rfl

theorem step_eq_stepWith : step = stepWith defaults := by
  funext s; rw [step, stepWith, exec_eq_execWith]

theorem core_eq_coreWith : Sys2Proof.core = coreWith defaults := by
  rw [Sys2Proof.core, coreWith, step_eq_stepWith]

/-- The state a command that runs leaves, before it responds. -/
def ranState (P : Params) (i : Instr) (s : State) : State :=
  match i with
  | .init mode => initEngine mode s
  | .update nb sr f0 f1 f2 f3 => updateEngine P nb sr [f0, f1, f2, f3] s
  | .reset => clearAll s
  | .process nb l r => processEngine P nb ⟨l, r⟩ s
  | .latency => s

/-- Every command answers a next state. -/
theorem execWith_next (P : Params) (i : Instr) (s : State) : ∃ t, execWith P i s = .next t := by
  cases i <;> exact ⟨_, rfl⟩

theorem exec_next (i : Instr) (s : State) : ∃ t, exec i s = .next t := by
  rw [exec_eq_execWith]; exact execWith_next _ i s

/-- A halted core ignores the command (R131). -/
theorem execWith_halted (P : Params) (i : Instr) {s : State} (h : ¬ Running s) :
    execWith P i s = .next (respond [] s) := by
  cases i with
  | init mode => exact congrArg Host.Outcome.next (checked_halted h)
  | update nb sr f0 f1 f2 f3 => exact congrArg Host.Outcome.next (checked_halted h)
  | reset => exact congrArg Host.Outcome.next (unlessHalted_halted h)
  | process nb l r => exact congrArg Host.Outcome.next (checked_halted h)
  | latency => exact congrArg Host.Outcome.next (unlessHalted_halted h)

theorem exec_halted (i : Instr) {s : State} (h : ¬ Running s) : exec i s = .next (respond [] s) := by
  rw [exec_eq_execWith]; exact execWith_halted _ i h

theorem checked_running_cases {check : State → Option Violation} {w : Word} {run : State → State} {s : State}
    (h : Running s) :
    (∃ v, check s = some v ∧ checked check w run s = faultEntry v w s) ∨
      (check s = none ∧ checked check w run s = run s) := by
  cases hc : check s with
  | some v => exact .inl ⟨v, rfl, checked_fault h hc⟩
  | none => exact .inr ⟨rfl, checked_run h hc⟩

/-- A running core enters the command as a fault or performs it (R107, R129). -/
theorem execWith_running (P : Params) (i : Instr) {s t : State} (h : Running s) (he : execWith P i s = .next t) :
    (∃ v, v.code ≠ .none ∧ t = faultEntry v (commandWord i) s) ∨ ∃ data, t = respond data (ranState P i s) := by
  cases i with
  | init mode =>
    injection he with he
    rcases checked_running_cases h with ⟨v, hv, e⟩ | ⟨-, e⟩
    · exact .inl ⟨v, initCheck_code hv, he.symm.trans e⟩
    · exact .inr ⟨[], he.symm.trans e⟩
  | update nb sr f0 f1 f2 f3 =>
    injection he with he
    rcases checked_running_cases h with ⟨v, hv, e⟩ | ⟨-, e⟩
    · exact .inl ⟨v, updateCheck_code hv, he.symm.trans e⟩
    · exact .inr ⟨[], he.symm.trans e⟩
  | reset =>
    injection he with he
    exact .inr ⟨[], he.symm.trans (unlessHalted_running h)⟩
  | process nb l r =>
    injection he with he
    rcases checked_running_cases h with ⟨v, hv, e⟩ | ⟨-, e⟩
    · exact .inl ⟨v, processCheck_code hv, he.symm.trans e⟩
    · exact .inr ⟨_, he.symm.trans e⟩
  | latency =>
    injection he with he
    exact .inr ⟨_, he.symm.trans (unlessHalted_running h)⟩

theorem exec_running (i : Instr) {s t : State} (h : Running s) (he : exec i s = .next t) :
    (∃ v, v.code ≠ .none ∧ t = faultEntry v (commandWord i) s) ∨
      ∃ data, t = respond data (ranState defaults i s) := by
  rw [exec_eq_execWith] at he; exact execWith_running _ i h he

/-- UPDATE's writes: COEF, CFG_NB and FSM (R113, R114). -/
theorem updateEngine_frame (P : Params) (nb : Nat) (sr : F32) (freqs : List F32) (s : State) :
    ∃ c, updateEngine P nb sr freqs s = { s with coef := c, cfgNb := nb, fsm := .configured } := by
  obtain ⟨c, hc⟩ := loadBands_frame (assemble P sr nb freqs) s
  exact ⟨c, by unfold updateEngine; rw [hc]; rfl⟩

/-- PROCESS's writes: DL, CUR, OUT and FSM, and the free NaNs it draws (R118). -/
theorem processEngine_frame (P : Params) (nb : Nat) (x : Pair) (s : State) :
    ∃ d c o, processEngine P nb x s =
      { s with
        dl := d, cur := c, out := o, fsm := afterProcess s.fsm,
        draws := s.draws + drawsPerStep * (activeSlots nb).length } := by
  obtain ⟨d, c, o, h⟩ := stepList_frame P x (activeSlots nb) s
  exact ⟨d, c, o, by unfold processEngine stepSlots; simp only [h]; rfl⟩

/-- No command that runs writes the FAULT_* registers (R21). -/
theorem ranState_fault (P : Params) (i : Instr) (s : State) : SameFault s (ranState P i s) := by
  cases i with
  | init mode => simp only [ranState]; rw [initEngine_eq]; exact ⟨rfl, rfl, rfl⟩
  | update nb sr f0 f1 f2 f3 =>
    obtain ⟨c, hc⟩ := updateEngine_frame P nb sr [f0, f1, f2, f3] s
    simp only [ranState]; rw [hc]; exact ⟨rfl, rfl, rfl⟩
  | reset => simp only [ranState]; rw [clearAll_eq]; exact ⟨rfl, rfl, rfl⟩
  | process nb l r =>
    obtain ⟨d, c, o, hc⟩ := processEngine_frame P nb ⟨l, r⟩ s
    simp only [ranState]; rw [hc]; exact ⟨rfl, rfl, rfl⟩
  | latency => exact ⟨rfl, rfl, rfl⟩

end Sys2Proof.Machine
end

