-- ==== Sys2Proof/Laws/Kernel.lean ====
section
/-! SUPPORT. Lemmas about the loops of the kernel design unit: what a fold over the taps keeps, and the mirror. -/

namespace Sys2Proof.Machine

open Sys2Proof.Config

/-- What every turn of a loop keeps, the loop keeps. -/
theorem foldl_keeps {α β : Type} (p : β → Prop) (f : β → α → β) (l : List α) (b : β) (hb : p b)
    (hf : ∀ b a, a ∈ l → p b → p (f b a)) : p (l.foldl f b) := by
  induction l generalizing b with
  | nil => exact hb
  | cons a l ih =>
    exact ih _ (hf b a List.mem_cons_self hb) fun b a' h => hf b a' (List.mem_cons_of_mem _ h)

theorem mirrorTap_val (k : Fin F) : (mirrorTap k).val = 120 - k.val := by
  unfold mirrorTap
  rw [Fin.val_rev]
  show 121 - (k.val + 1) = _
  omega

theorem mirrorTap_mirrorTap (k : Fin F) : mirrorTap (mirrorTap k) = k := Fin.rev_rev k

/-- The taps after mirroring (R77). -/
theorem mirror_at (work : Kernel) (k : Fin F) :
    (mirror work)[k] = if k.val < 60 then work[mirrorTap k] else work[k] := by
  simp only [mirror, Fin.getElem_fin, Vector.getElem_ofFn]

/-- The indices of the right half. -/
theorem mem_rightHalf (k : Fin F) : k ∈ rightHalf ↔ 60 ≤ k.val := by
  unfold rightHalf
  rw [List.mem_drop_iff_getElem]
  constructor
  · rintro ⟨i, hi, rfl⟩
    simp
  · intro h
    have hk : k.val < 121 := k.isLt
    refine ⟨k.val - 60, ?_, ?_⟩
    · rw [List.length_finRange]
      show k.val - 60 + 60 < 121
      omega
    · apply Fin.ext
      rw [List.getElem_finRange]
      show 60 + (k.val - 60) = k.val
      omega

theorem rightHalf_nodup : rightHalf.Nodup := (List.nodup_finRange _).sublist (List.drop_sublist _ _)

/-- A map over the right half, as a map over the list of its taps. -/
theorem rightHalf_map {α : Type} (work : Kernel) (f : Pair → α) :
    rightHalf.map (fun k : Fin F => f work[k]) = (work.toList.drop 60).map f := by
  unfold rightHalf
  rw [List.map_drop, List.map_drop]
  congr 1
  apply List.ext_getElem
  · simp
  · intro i h1 h2
    simp
/-- A loop that replaces each tap of a list of distinct indices by a function of that tap. -/
theorem foldl_set_at {f : Fin F → Pair → Pair} (l : List (Fin F)) (hn : l.Nodup) (work : Kernel)
    (k : Fin F) :
    (l.foldl (fun (w : Kernel) (n : Fin F) => w.set n (f n w[n])) work)[k] =
      if k ∈ l then f k work[k] else work[k] := by
  induction l generalizing work with
  | nil => simp
  | cons a l ih =>
    rw [List.nodup_cons] at hn
    rw [List.foldl_cons, ih hn.2]
    by_cases h : k = a
    · subst h
      simp [hn.1]
    · have h' : a.val ≠ k.val := fun e => h (Fin.ext e.symm)
      simp [h, h']

end Sys2Proof.Machine
end

