-- ==== Sys2Proof/Laws/PerInstr.lean ====
section
/-! SUPPORT. Statements made of every instruction, one lemma for each constructor. -/

namespace Sys2Proof.Laws.CommandLength

/-- R63: the length of a well-formed command is what its command word tells: the word itself and the
operands that its OP selects. -/
def Statement (i : Instr) : Prop := WellFormed i → (encode i).length = 1 + operandCount (commandWord i)

/-- The operand count depends on OP alone (R55, R63). -/
theorem operandCount_of_op {w : Word} {o : Opcode} (h : bits w 3 0 = opcodeNumber o) :
    operandCount w = match o with
      | .update => 5
      | .process => 2
      | _ => 0 := by
  unfold operandCount
  rw [(opcodeOf_eq_some_iff _ o).2 h]
  cases o <;> rfl

/-- OP of a command word with a field above it. -/
theorem op_of_field {op k v : Nat} (h : op + v * (16 * k) < 2 ^ 32) (ho : op < 16) :
    bits (BitVec.ofNat 32 (op + v * (16 * k))) 3 0 = op := by
  unfold bits
  rw [BitVec.toNat_ofNat, Nat.mod_eq_of_lt h]
  have : v * (16 * k) = 16 * (v * k) := by ring
  omega

theorem init (mode : Nat) : Statement (.init mode) := by
  intro h
  have hm : mode < 16 := of_decide_eq_true h
  have : bits (commandWord (.init mode)) 3 0 = 1 := op_of_field (k := 1) (by omega) (by omega)
  rw [operandCount_of_op (o := .init) this]; rfl

theorem update (nb : Nat) (sr f0 f1 f2 f3 : F32) : Statement (.update nb sr f0 f1 f2 f3) := by
  intro h
  have hm : nb < 8 := of_decide_eq_true h
  have : bits (commandWord (.update nb sr f0 f1 f2 f3)) 3 0 = 2 :=
    op_of_field (k := 16) (by omega) (by omega)
  rw [operandCount_of_op (o := .update) this]; rfl

theorem reset : Statement .reset := fun _ => by decide

theorem process (nb : Nat) (l r : F32) : Statement (.process nb l r) := by
  intro h
  have hm : nb < 8 := of_decide_eq_true h
  have : bits (commandWord (.process nb l r)) 3 0 = 4 := op_of_field (k := 16) (by omega) (by omega)
  rw [operandCount_of_op (o := .process) this]; rfl

theorem latency : Statement .latency := fun _ => by decide

end Sys2Proof.Laws.CommandLength
end

