-- ==== Sys2Proof/Laws/Rounding.lean ====
section
/-! SUPPORT. Rounding in real numbers: when a result is finite, and how far it lies from the exact one. -/

namespace Sys2Proof.Machine

open Sys2Proof.Config

/-! ### When a rounded result is finite -/

theorem magOf_infinity : magOf 0x7F800000 = 2 ^ 23 * 2 ^ 254 := by decide +kernel

theorem roundBits_lt_iff (n k : Nat) (hn : n < 2 ^ 2 ^ 12) :
    roundBits n k < 0x7F800000 ↔ roundShift n (dropBits n k) * 2 ^ dropBits n k < 2 ^ 23 * 2 ^ (254 + k) := by
  rw [← magOf_strictMono.lt_iff_lt, magOf_infinity, ← magOf_roundBits n k hn, pow_add, ← mul_assoc]
  exact (Nat.mul_lt_mul_right (by positivity)).symm

/-- A result is finite exactly below half a unit past the largest finite magnitude (R92). -/
theorem roundMag_finite_iff (n k : Nat) (hn : n < 2 ^ 2 ^ 12) :
    roundMag n k < 0x7F800000 ↔ n < (2 ^ 25 - 1) * 2 ^ (252 + k) := by
  have hcap : roundMag n k < 0x7F800000 ↔ roundBits n k < 0x7F800000 := by rw [roundMag_eq]; omega
  rw [hcap, roundBits_lt_iff n k hn]
  have hle := roundShift_le n k hn
  have hlow := lt_pow_dropBits n k hn
  have hbig : ∀ h : k < dropBits n k, 2 ^ (dropBits n k + 23) ≤ n := pow_le_of_lt_dropBits n k hn
  have hrs : ∀ h : k < dropBits n k, 0x800000 ≤ roundShift n (dropBits n k) := le_roundShift n k hn
  have hd := le_dropBits n k
  have hdef : roundShift n (dropBits n k) =
      if 2 ^ dropBits n k < 2 * (n % 2 ^ dropBits n k) ∨
          (2 * (n % 2 ^ dropBits n k) = 2 ^ dropBits n k ∧ n / 2 ^ dropBits n k % 2 = 1) then
        n / 2 ^ dropBits n k + 1
      else n / 2 ^ dropBits n k := rfl
  clear hcap hn
  generalize roundShift n (dropBits n k) = r at *
  generalize dropBits n k = d at *
  rcases lt_trichotomy d (253 + k) with h | h | h
  · have h1 : r * 2 ^ d < 2 ^ 23 * 2 ^ (254 + k) := by
      calc r * 2 ^ d ≤ 0x1000000 * 2 ^ d := Nat.mul_le_mul_right _ hle
        _ = 2 ^ (24 + d) := by rw [pow_add]; norm_num
        _ < 2 ^ (23 + (254 + k)) := Nat.pow_lt_pow_right (by norm_num) (by omega)
        _ = 2 ^ 23 * 2 ^ (254 + k) := pow_add _ _ _
    have h2 : n < (2 ^ 25 - 1) * 2 ^ (252 + k) := by
      calc n < 2 ^ (d + 24) := hlow
        _ ≤ 2 ^ (24 + (252 + k)) := Nat.pow_le_pow_right (by norm_num) (by omega)
        _ = 2 ^ 24 * 2 ^ (252 + k) := pow_add _ _ _
        _ ≤ (2 ^ 25 - 1) * 2 ^ (252 + k) := Nat.mul_le_mul_right _ (by norm_num)
    exact ⟨fun _ => h2, fun _ => h1⟩
  · subst h
    have hp : (2 : Nat) ^ (254 + k) = 2 * 2 ^ (253 + k) := by rw [show 254 + k = 253 + k + 1 by omega, pow_succ]; ring
    have hq : (2 : Nat) ^ (253 + k) = 2 * 2 ^ (252 + k) := by rw [show 253 + k = 252 + k + 1 by omega, pow_succ]; ring
    have hm := Nat.mod_lt n (show 0 < 2 ^ (253 + k) by positivity)
    have hdm := Nat.div_add_mod n (2 ^ (253 + k))
    have hpos : 0 < 2 ^ (252 + k) := by positivity
    have hiff : r * 2 ^ (253 + k) < 2 ^ 23 * 2 ^ (254 + k) ↔ r < 2 ^ 24 := by
      rw [hp, show 2 ^ 23 * (2 * 2 ^ (253 + k)) = 2 ^ 24 * 2 ^ (253 + k) by ring]
      exact Nat.mul_lt_mul_right (by positivity)
    rw [hiff]
    clear hiff hp hbig hrs hlow hd
    generalize hQ : n / 2 ^ (253 + k) = Q at *
    generalize n % 2 ^ (253 + k) = R at *
    rw [hq] at hm hdm hdef
    generalize 2 ^ (252 + k) = T at *
    constructor
    · intro hr
      have hQ24 : Q ≤ 2 ^ 24 - 1 := by split_ifs at hdef <;> omega
      rcases Nat.lt_or_ge Q (2 ^ 24 - 1) with hlt | hge
      · have : 2 * T * Q ≤ 2 * T * (2 ^ 24 - 2) := Nat.mul_le_mul_left _ (by omega)
        omega
      · have : Q = 2 ^ 24 - 1 := by omega
        subst this
        split_ifs at hdef with hc
        · omega
        · push Not at hc
          have := hc.2
          omega
    · intro hn'
      have hQ24 : Q < 2 ^ 24 := by
        by_contra hge
        have : 2 * T * 2 ^ 24 ≤ 2 * T * Q := Nat.mul_le_mul_left _ (by omega)
        omega
      rcases Nat.lt_or_ge Q (2 ^ 24 - 1) with hlt | hge
      · split_ifs at hdef <;> omega
      · have : Q = 2 ^ 24 - 1 := by omega
        subst this
        rw [if_neg (by omega)] at hdef
        omega
  · have h1 : 2 ^ 23 * 2 ^ (254 + k) ≤ r * 2 ^ d :=
      Nat.mul_le_mul (by simpa using hrs (by omega)) (Nat.pow_le_pow_right (by norm_num) (by omega))
    have h2 : (2 ^ 25 - 1) * 2 ^ (252 + k) ≤ n := by
      calc (2 ^ 25 - 1) * 2 ^ (252 + k) ≤ 2 ^ 25 * 2 ^ (252 + k) := Nat.mul_le_mul_right _ (by norm_num)
        _ = 2 ^ (25 + (252 + k)) := (pow_add _ _ _).symm
        _ ≤ 2 ^ (d + 23) := Nat.pow_le_pow_right (by norm_num) (by omega)
        _ ≤ n := hbig (by omega)
    omega

/-! ### The error of a rounding -/

/-- A finite result lies within half a unit of the last place from the exact integer. -/
theorem fl_half_unit (n : Int) (k : Nat) (z : Bool) (hn : n.natAbs < 2 ^ 2 ^ 12)
    (hf : isFinite (fl .ieee n k z) = true) :
    2 * |laneVal (fl .ieee n k z) * 2 ^ k - n| ≤ 2 ^ dropBits n.natAbs k := by
  have hr := (isFinite_fl n k z).1 hf
  have hbits : roundMag n.natAbs k = roundBits n.natAbs k := by rw [roundMag_eq] at hr ⊢; omega
  have hmag : laneMag (fl .ieee n k z) * 2 ^ k = roundShift n.natAbs (dropBits n.natAbs k) * 2 ^ dropBits n.natAbs k := by
    rw [laneMag_fl, hbits, magOf_roundBits _ _ hn]
  obtain ⟨h1, h2⟩ := roundShift_error n.natAbs (dropBits n.natAbs k)
  rw [← hmag] at h1 h2
  have hv : laneVal (fl .ieee n k z) * 2 ^ k =
      if n < 0 then -((laneMag (fl .ieee n k z) * 2 ^ k : Nat) : Int)
      else ((laneMag (fl .ieee n k z) * 2 ^ k : Nat) : Int) := by
    rcases eq_or_ne n 0 with rfl | h0
    · have : laneMag (signedZero z) = 0 := (isZero_iff_laneMag _).1 (isZero_signedZero z)
      simp [(laneVal_eq_zero_iff _).2 (isZero_signedZero z), this]
    · unfold laneVal
      rw [laneNegative_fl, if_neg h0]
      by_cases hneg : n < 0 <;> simp [hneg]
  rw [hv]
  have hp : ((2 ^ dropBits n.natAbs k : Nat) : Int) = 2 ^ dropBits n.natAbs k := by push_cast; rfl
  rw [← hp]
  clear hv hmag hbits hr hf hn hp
  generalize laneMag (fl .ieee n k z) * 2 ^ k = M at *
  generalize 2 ^ dropBits n.natAbs k = D at *
  split_ifs with hneg
  · rcases abs_cases (-(M : Int) - n) with h | h <;> omega
  · rcases abs_cases ((M : Int) - n) with h | h <;> omega

/-- The same, relative to the exact integer where the result is normal. -/
theorem fl_relative (n : Int) (k : Nat) (z : Bool) (hn : n.natAbs < 2 ^ 2 ^ 12)
    (hf : isFinite (fl .ieee n k z) = true) :
    2 ^ 24 * |laneVal (fl .ieee n k z) * 2 ^ k - n| ≤ max |n| (2 ^ (k + 23)) := by
  have h := fl_half_unit n k z hn hf
  have hd : (2 : Int) ^ (dropBits n.natAbs k + 23) ≤ max |n| (2 ^ (k + 23)) := by
    rcases Nat.lt_or_ge k (dropBits n.natAbs k) with hlt | hge
    · refine le_trans ?_ (le_max_left _ _)
      rw [Int.abs_eq_natAbs]
      exact_mod_cast pow_le_of_lt_dropBits n.natAbs k hn hlt
    · exact le_trans (pow_le_pow_right₀ (by norm_num) (by omega)) (le_max_right _ _)
  calc 2 ^ 24 * |laneVal (fl .ieee n k z) * 2 ^ k - n|
      = 2 ^ 23 * (2 * |laneVal (fl .ieee n k z) * 2 ^ k - n|) := by ring
    _ ≤ 2 ^ 23 * 2 ^ dropBits n.natAbs k := Int.mul_le_mul_of_nonneg_left h (by norm_num)
    _ = 2 ^ (dropBits n.natAbs k + 23) := by rw [pow_add, mul_comm]
    _ ≤ _ := hd

/-- An integer of units of 2^−149 rounds with relative error alone: below 2^24 units it is exact. -/
theorem fl_relative_units (n : Int) (z : Bool) (hn : n.natAbs < 2 ^ 2 ^ 12)
    (hf : isFinite (fl .ieee n 0 z) = true) : 2 ^ 24 * |laneVal (fl .ieee n 0 z) - n| ≤ |n| := by
  have h := fl_half_unit n 0 z hn hf
  rw [pow_zero, mul_one] at h
  rcases Nat.lt_or_ge 0 (dropBits n.natAbs 0) with hlt | hge
  · have hp := pow_le_of_lt_dropBits n.natAbs 0 hn hlt
    have hp' : (2 : Int) ^ (dropBits n.natAbs 0 + 23) ≤ |n| := by
      rw [Int.abs_eq_natAbs]; exact_mod_cast hp
    rw [pow_add] at hp'
    generalize (2 : Int) ^ dropBits n.natAbs 0 = D at *
    omega
  · rw [Nat.le_zero.1 hge, pow_zero] at h
    have := abs_nonneg n
    have := abs_nonneg (laneVal (fl .ieee n 0 z) - n)
    omega

/-! ### The same in real numbers -/

/-- A finite result of rounding x = n · 2^−(149 + k) lies within |x| · 2^−24 or 2^−150 of x. -/
theorem laneReal_fl_error (n : Int) (k : Nat) (z : Bool) (hn : n.natAbs < 2 ^ 2 ^ 12)
    (hf : isFinite (fl .ieee n k z) = true) :
    |laneReal (fl .ieee n k z) - (n : ℚ) / 2 ^ (149 + k)| ≤ max (|(n : ℚ) / 2 ^ (149 + k)| / 2 ^ 24) (1 / 2 ^ 150) := by
  have h := fl_relative n k z hn hf
  have hq : (2 : ℚ) ^ 24 * |(laneVal (fl .ieee n k z) : ℚ) * 2 ^ k - n| ≤ max |(n : ℚ)| (2 ^ (k + 23)) := by
    exact_mod_cast h
  have hP : (0 : ℚ) < 2 ^ (149 + k) := by positivity
  have he : laneReal (fl .ieee n k z) - (n : ℚ) / 2 ^ (149 + k) =
      ((laneVal (fl .ieee n k z) : ℚ) * 2 ^ k - n) / 2 ^ (149 + k) := by
    rw [laneReal, pow_add]; field_simp
  rw [he, abs_div, abs_div, abs_of_pos hP]
  rcases le_total |(n : ℚ)| (2 ^ (k + 23)) with hle | hle
  · rw [max_eq_right hle] at hq
    refine le_trans ?_ (le_max_right _ _)
    rw [div_le_div_iff₀ hP (by positivity), one_mul]
    have : (2 : ℚ) ^ (k + 23) = 2 ^ k * 2 ^ 23 := pow_add _ _ _
    have : (2 : ℚ) ^ (149 + k) = 2 ^ 149 * 2 ^ k := pow_add _ _ _
    nlinarith
  · rw [max_eq_left hle] at hq
    refine le_trans ?_ (le_max_left _ _)
    rw [div_div, mul_comm _ ((2 : ℚ) ^ 24), ← div_div, div_le_div_iff_of_pos_right hP, le_div_iff₀ (by positivity)]
    linarith

theorem laneVal_lt (a : F32) (h : isFinite a = true) : (laneVal a).natAbs < 2 ^ 277 := by
  rw [laneVal_natAbs]; exact laneMag_lt a h

theorem laneNeg_low (a : F32) : (laneNeg a).toNat % 0x80000000 = a.toNat % 0x80000000 := by
  have h : (a.toNat ^^^ 0x80000000) % 2 ^ 31 = a.toNat % 2 ^ 31 ^^^ 0x80000000 % 2 ^ 31 := Nat.xor_mod_two_pow
  rw [show (0x80000000 : Nat) % 2 ^ 31 = 0 by norm_num, Nat.xor_zero] at h
  rw [laneNeg, BitVec.toNat_xor]
  exact h

theorem laneNegative_laneNeg (a : F32) : laneNegative (laneNeg a) = !laneNegative a := by
  have h : (a.toNat ^^^ 0x80000000) / 2 ^ 31 = a.toNat / 2 ^ 31 ^^^ 0x80000000 / 2 ^ 31 := Nat.xor_div_two_pow
  have hx : (laneNeg a).toNat = a.toNat ^^^ 0x80000000 := by rw [laneNeg, BitVec.toNat_xor]; rfl
  have hlt := a.isLt
  rw [← hx, show (0x80000000 : Nat) / 2 ^ 31 = 1 by norm_num] at h
  unfold laneNegative
  rw [Bool.eq_iff_iff, Nat.ble_eq, Bool.not_eq_true', Bool.eq_false_iff, Ne, Nat.ble_eq]
  rcases Nat.lt_or_ge a.toNat 0x80000000 with hs | hs
  · rw [show a.toNat / 2 ^ 31 = 0 by omega, show 0 ^^^ 1 = 1 from rfl] at h; omega
  · rw [show a.toNat / 2 ^ 31 = 1 by omega, show 1 ^^^ 1 = 0 from rfl] at h; omega

theorem laneMag_laneNeg (a : F32) : laneMag (laneNeg a) = laneMag a := by
  rw [laneMag_eq_magOf, laneNeg_low, ← laneMag_eq_magOf]

@[simp] theorem isFinite_laneNeg (a : F32) : isFinite (laneNeg a) = isFinite a := by
  rw [Bool.eq_iff_iff, isFinite_iff_low, isFinite_iff_low, laneNeg_low]

@[simp] theorem laneVal_laneNeg (a : F32) : laneVal (laneNeg a) = -laneVal a := by
  unfold laneVal
  rw [laneNegative_laneNeg, laneMag_laneNeg]
  by_cases h : laneNegative a = true <;> simp [h]

@[simp] theorem laneReal_laneNeg (a : F32) : laneReal (laneNeg a) = -laneReal a := by
  rw [laneReal, laneVal_laneNeg]; push_cast; rw [neg_div]; rfl

/-- A finite sum of finite operands has relative error at most 2^−24 (R92). -/
theorem laneAdd_error (n : NaN32) {a b : F32} (ha : isFinite a = true) (hb : isFinite b = true)
    (hf : isFinite (laneAdd .ieee n a b) = true) :
    |laneReal (laneAdd .ieee n a b) - (laneReal a + laneReal b)| ≤ |laneReal a + laneReal b| / 2 ^ 24 := by
  rw [laneAdd_finite n ha hb] at hf ⊢
  have hbound : (laneVal a + laneVal b).natAbs < 2 ^ 2 ^ 12 := by
    have h1 := laneVal_lt a ha
    have h2 := laneVal_lt b hb
    refine two_pow_lt_bound (a := 278) (by norm_num) ?_
    rw [pow_succ]
    generalize 2 ^ 277 = B at *
    omega
  have h := fl_relative_units _ (laneNegative a && laneNegative b) hbound hf
  generalize fl .ieee (laneVal a + laneVal b) 0 (laneNegative a && laneNegative b) = r at *
  have hq : (2 : ℚ) ^ 24 * |(laneVal r : ℚ) - (laneVal a + laneVal b)| ≤ |(laneVal a : ℚ) + laneVal b| := by
    exact_mod_cast h
  unfold laneReal
  rw [← add_div, ← sub_div, abs_div, abs_div, abs_of_pos (show (0 : ℚ) < 2 ^ 149 by positivity), div_right_comm,
    div_le_div_iff_of_pos_right (by positivity), le_div_iff₀ (by positivity)]
  linarith

/-- A finite difference of finite operands has relative error at most 2^−24 (R92). -/
theorem laneSub_error (n : NaN32) {a b : F32} (ha : isFinite a = true) (hb : isFinite b = true)
    (hf : isFinite (laneSub .ieee n a b) = true) :
    |laneReal (laneSub .ieee n a b) - (laneReal a - laneReal b)| ≤ |laneReal a - laneReal b| / 2 ^ 24 := by
  have h := laneAdd_error n ha (by rwa [isFinite_laneNeg] : isFinite (laneNeg b) = true) hf
  rwa [laneReal_laneNeg, ← sub_eq_add_neg] at h

/-- A finite product of finite operands has relative error at most 2^−24, or error at most 2^−150 (R92). -/
theorem laneMul_error (n : NaN32) {a b : F32} (ha : isFinite a = true) (hb : isFinite b = true)
    (hf : isFinite (laneMul .ieee n a b) = true) :
    |laneReal (laneMul .ieee n a b) - laneReal a * laneReal b| ≤
      max (|laneReal a * laneReal b| / 2 ^ 24) (1 / 2 ^ 150) := by
  rw [laneMul_finite n ha hb] at hf ⊢
  have hbound : (laneVal a * laneVal b).natAbs < 2 ^ 2 ^ 12 := by
    refine two_pow_lt_bound (a := 277 + 277) (by norm_num) ?_
    rw [Int.natAbs_mul, pow_add]
    exact Nat.mul_lt_mul'' (laneVal_lt a ha) (laneVal_lt b hb)
  have h := laneReal_fl_error _ 149 _ hbound hf
  have he : ((laneVal a * laneVal b : Int) : ℚ) / 2 ^ (149 + 149) = laneReal a * laneReal b := by
    unfold laneReal; rw [pow_add]; push_cast; field_simp
  rwa [he] at h

/-! ### Quotients -/

/-- Twice the quotient with a sticky bit lies within one unit of twice the exact quotient. -/
theorem sticky_error (N b : Nat) (hb : 0 < b) :
    |((2 * (N / b) + (if N % b = 0 then 0 else 1) : Nat) : ℚ) - 2 * ((N : ℚ) / b)| ≤ 1 := by
  have hdm := Nat.div_add_mod N b
  have hlt := Nat.mod_lt N hb
  have hb' : (0 : ℚ) < b := by exact_mod_cast hb
  generalize N / b = q at *
  generalize N % b = r at *
  subst hdm
  have hr : (r : ℚ) < b := by exact_mod_cast hlt
  have hx : (((b * q + r : Nat) : ℚ)) / b = q + r / b := by push_cast; field_simp
  have h1 : (r : ℚ) / b < 1 := by rwa [div_lt_one hb']
  rw [hx]
  rcases Nat.eq_zero_or_pos r with h | h
  · subst h; simp
  · have h0 : 0 < (r : ℚ) / b := by positivity
    rw [if_neg (by omega)]
    push_cast
    rw [abs_le]
    constructor <;> linarith

/-- The quotient magnitude lies within one unit of 2^−152 from the exact quotient. -/
theorem quotientMag_error (a b : Nat) (hb : 0 < b) :
    |(quotientMag a b : ℚ) / 2 ^ 152 - (a : ℚ) / b| ≤ 1 / 2 ^ 152 := by
  have h := sticky_error (a * 2 ^ 151) b hb
  unfold quotientMag
  have hD : ((2 ^ 151 : Nat) : ℚ) * 2 = 2 ^ 152 := by rw [Nat.cast_pow, pow_succ _ 151]; rfl
  have hpos : (0 : ℚ) < 2 ^ 152 := by positivity
  rw [← hD] at hpos ⊢
  clear hD
  rw [Nat.cast_mul] at h
  generalize (2 * (a * 2 ^ 151 / b) + (if a * 2 ^ 151 % b = 0 then 0 else 1) : Nat) = q at *
  generalize ((2 ^ 151 : Nat) : ℚ) = D at *
  have hb' : (0 : ℚ) < b := by exact_mod_cast hb
  have hD' : 0 < D := by linarith
  rw [show (q : ℚ) / (D * 2) - (a : ℚ) / b = ((q : ℚ) - 2 * (a * D / b)) / (D * 2) by field_simp,
    abs_div, abs_of_pos hpos, div_le_div_iff_of_pos_right hpos]
  exact h

/-- The quotient of finite operands, the divisor not zero, as one rounding of the quotient magnitude. -/
theorem laneDiv_finite (n : NaN32) {a b : F32} (ha : isFinite a = true) (hb : isFinite b = true)
    (h0 : isZero b = false) :
    laneDiv .ieee n a b =
      fl .ieee
        (if laneNegative a != laneNegative b then -(quotientMag (laneMag a) (laneMag b) : Int)
          else quotientMag (laneMag a) (laneMag b))
        3 (laneNegative a != laneNegative b) := by
  have hdiv : laneDiv .ieee n a b =
      packBits (laneNegative a != laneNegative b) (roundMag (quotientMag (laneMag a) (laneMag b)) 3) := by
    simp only [laneDiv, flushSubnormal_ieee, isNaN_of_isFinite ha, isNaN_of_isFinite hb, isInf_of_isFinite ha,
      isInf_of_isFinite hb, h0, Bool.or_self, Bool.false_eq_true, if_false]
  rw [hdiv, fl_ieee]
  generalize quotientMag (laneMag a) (laneMag b) = q
  generalize (laneNegative a != laneNegative b) = neg
  have hnat : (if neg then -(q : Int) else q).natAbs = q := by split <;> omega
  have hsign : (if (if neg then -(q : Int) else q) = 0 then neg else decide ((if neg then -(q : Int) else q) < 0)) =
      neg := by cases neg <;> simp <;> omega
  rw [hnat, hsign]

theorem laneReal_div (a b : F32) :
    laneReal a / laneReal b =
      (if laneNegative a != laneNegative b then -1 else 1) * ((laneMag a : ℚ) / laneMag b) := by
  unfold laneReal laneVal
  cases laneNegative a <;> cases laneNegative b <;> simp <;> ring

theorem quotientMag_lt (a b : F32) (ha : isFinite a = true) : quotientMag (laneMag a) (laneMag b) < 2 ^ 430 := by
  have h1 := laneMag_lt a ha
  have h2 : laneMag a * 2 ^ 151 / laneMag b ≤ laneMag a * 2 ^ 151 := Nat.div_le_self _ _
  have h3 : laneMag a * 2 ^ 151 < 2 ^ 428 := by
    rw [show 428 = 277 + 151 from rfl, pow_add]; exact Nat.mul_lt_mul_of_pos_right h1 (by positivity)
  have h4 : (2 : Nat) ^ 430 = 4 * 2 ^ 428 := by rw [show 430 = 428 + 2 from rfl, pow_add, mul_comm]; rfl
  unfold quotientMag
  rw [h4]
  generalize (2 : Nat) ^ 428 = B at *
  split <;> omega

/-- The exact quotient with its sign, from the quotient magnitude. -/
theorem signedQuotient_error (a b : F32) (hb : 0 < laneMag b) :
    |(((if laneNegative a != laneNegative b then -(quotientMag (laneMag a) (laneMag b) : Int)
        else quotientMag (laneMag a) (laneMag b)) : Int) : ℚ) / 2 ^ 152 - laneReal a / laneReal b| ≤ 1 / 2 ^ 152 := by
  have h := quotientMag_error (laneMag a) (laneMag b) hb
  rw [laneReal_div]
  generalize (2 : ℚ) ^ 152 = D at *
  generalize quotientMag (laneMag a) (laneMag b) = q at *
  generalize (laneMag a : ℚ) / laneMag b = x at *
  cases laneNegative a != laneNegative b
  · simpa using h
  · rw [← abs_neg] at h
    refine le_trans (le_of_eq ?_) h
    congr 1
    simp
    ring

/-- The error of one rounding of a number that lies within E of the exact one. -/
theorem rounding_error_trans {r x y B E : ℚ} (hr : |r - x| ≤ max (|x| / 2 ^ 24) B) (hx : |x - y| ≤ E) :
    |r - y| ≤ max (|y| / 2 ^ 24) B + (E + E) := by
  have h0 : 0 ≤ E := le_trans (abs_nonneg _) hx
  have h1 : |r - y| ≤ |r - x| + |x - y| := abs_sub_le _ _ _
  have h2 := abs_sub_abs_le_abs_sub x y
  have h3 : max (|x| / 2 ^ 24) B ≤ max (|y| / 2 ^ 24) B + E := by
    refine max_le ?_ ?_
    · linarith [le_max_left (|y| / 2 ^ 24) B]
    · linarith [le_max_right (|y| / 2 ^ 24) B]
  linarith

/-- A finite quotient of finite operands lies within the error of one rounding, and twice 2^−152 beside it, of the
exact quotient (R92). -/
theorem laneDiv_error (n : NaN32) {a b : F32} (ha : isFinite a = true) (hb : isFinite b = true)
    (h0 : isZero b = false) (hf : isFinite (laneDiv .ieee n a b) = true) :
    |laneReal (laneDiv .ieee n a b) - laneReal a / laneReal b| ≤
      max (|laneReal a / laneReal b| / 2 ^ 24) (1 / 2 ^ 150) + (1 / 2 ^ 152 + 1 / 2 ^ 152) := by
  rw [laneDiv_finite n ha hb h0] at hf ⊢
  have hbm : 0 < laneMag b := by
    rw [Nat.pos_iff_ne_zero, Ne, ← isZero_iff_laneMag, h0]; simp
  have hq := signedQuotient_error a b hbm
  have hlt : (if laneNegative a != laneNegative b then -(quotientMag (laneMag a) (laneMag b) : Int)
      else quotientMag (laneMag a) (laneMag b)).natAbs < 2 ^ 2 ^ 12 := by
    have h := two_pow_lt_bound (a := 430) (by norm_num) (quotientMag_lt a b ha)
    split_ifs
    · rwa [Int.natAbs_neg, Int.natAbs_natCast]
    · rwa [Int.natAbs_natCast]
  exact rounding_error_trans (laneReal_fl_error _ 3 _ hlt hf) hq

end Sys2Proof.Machine
end

