-- ==== Sys2Proof/Tests/Slice0.lean ====
section
/-! SUPPORT. Tests: the form checks, decoding of written-out words, one step of each command, and for each statement a witness that meets its hypotheses. The expected values are the spec's own (95_test_vectors.md and the examples of the rules), or counted by hand from them. -/

namespace Sys2Proof.Tests

open Sys2Proof.Machine Sys2Proof.Config

/-! ### WellFormed refuses what has no encoding -/

theorem test_init_mode_too_wide : ¬ WellFormed (.init 16) := by decide

theorem test_update_nb_too_wide : ¬ WellFormed (.update 8 0#32 0#32 0#32 0#32 0#32) := by decide

theorem test_process_nb_too_wide : ¬ WellFormed (.process 8 0#32 0#32) := by decide

theorem test_widest_fields_are_well_formed :
    WellFormed (.init 15) ∧ WellFormed (.update 7 0#32 0#32 0#32 0#32 0#32) ∧
      WellFormed (.process 7 0#32 0#32) := by decide

/-! ### Decoding: words written out from R53 and R65 -/

/-- rsv 0, NB 000, MODE 1010, OP 0001. -/
theorem test_decode_init : decode [0b000000000000000000000_000_1010_0001#32] = .command (.init 10) 1 := by decide

/-- rsv 0, NB 101, MODE 0000, OP 0010, then five operands. -/
theorem test_decode_update :
    decode [0b000000000000000000000_101_0000_0010#32, 1#32, 2#32, 3#32, 4#32, 5#32, 6#32] =
      .command (.update 5 1#32 2#32 3#32 4#32 5#32) 6 := by decide

/-- rsv 0, NB 000, MODE 0000, OP 0011. -/
theorem test_decode_reset : decode [0b000000000000000000000_000_0000_0011#32] = .command .reset 1 := by decide

/-- rsv 0, NB 110, MODE 0000, OP 0100, then two operands. -/
theorem test_decode_process :
    decode [0b000000000000000000000_110_0000_0100#32, 7#32, 8#32] = .command (.process 6 7#32 8#32) 3 := by
  decide

/-- rsv 0, NB 000, MODE 0000, OP 0101. -/
theorem test_decode_latency : decode [0b000000000000000000000_000_0000_0101#32] = .command .latency 1 := by decide

/-- Words that encode no command: V-30-2. -/
theorem test_decode_rejects :
    decodeOpcode 0x00000000#32 = .error (.illegalOpcode 0) ∧
      decodeOpcode 0x00000006#32 = .error (.illegalOpcode 6) ∧
      decodeOpcode 0xFFFFFFFF#32 = .error (.illegalOpcode 15) ∧
      decodeOpcode 0x00000013#32 = .error .reservedBits ∧
      decodeOpcode 0x00000101#32 = .error .reservedBits ∧
      decodeOpcode 0x80000005#32 = .error .reservedBits := by decide

/-- `UPDATE 2` as bytes, least significant first (R59). -/
theorem test_bytes_of_update : wordsToBytes [0x00000202#32] = [0x02#8, 0x02#8, 0x00#8, 0x00#8] := by decide

/-! ### One step of each command -/

/-- The state one step leaves, given the words of one command. -/
def after (s : State) (ws : List Word) : State :=
  match step (submit ws s) with
  | .next t => t
  | _ => s

/-- The core after an UPDATE of two bands, its kernels left at the identity. -/
def configured : State := State.reset.setConfig 2 .configured

/-- A core halted by the all-zero word (R62). -/
def halted : State := State.reset.setFault .illegalOpcode 0#32 0#8

/-- `INIT 0` on a configured core: STATUS 0 (R112). -/
theorem test_init_recreates : (after configured [0x00000001#32]).resp = [0x00000000#32, 0x00000000#32] := by
  decide +kernel

/-- `INIT 15`: STATUS 0x00000F34 (V-43-2). -/
theorem test_init_illegal_mode : (after State.reset [0x000000F1#32]).resp = [0x00000F34#32, 0x000000F1#32] := by
  decide +kernel

/-- `UPDATE 2, 48000, 1000`: STATUS 0x00020001 (V-43-1). -/
theorem test_update_configures :
    (after State.reset [0x00000202#32, 0x473B8000#32, 0x447A0000#32, 0x7FC00000#32, 0#32, 0#32]).resp =
      [0x00020001#32, 0x00000000#32] := by decide +kernel

/-- `UPDATE 3, 48000, 1000, 24000`: FREQUENCY at index 1 (V-43-2). -/
theorem test_update_frequency_at_half_rate :
    (after State.reset [0x00000302#32, 0x473B8000#32, 0x447A0000#32, 0x46BB8000#32, 0#32, 0#32]).resp =
      [0x00000164#32, 0x00000302#32] := by decide +kernel

/-- RESET clears a delay line and a cursor (R116). -/
theorem test_reset_clears_history :
    let s := after (configured.setHistory 4 (clearLine.set 9 onePair) 77) [0x00000003#32]
    s.cur[4] = 0 ∧ (s.dl[4])[9] = zeroPair ∧ s.resp = [0x00020001#32, 0x00000000#32] := by decide +kernel

/-- R106 at step 60: the impulse (1.0, −2.0) written at entry 0 comes out of slot 0 with the cursor at 60. -/
theorem test_process_delays_by_sixty :
    ((after (State.reset.setHistory 0 (clearLine.set 0 ⟨0x3F800000#32, 0xC0000000#32⟩) 60)
      [0x00000204#32, 0x3F000000#32, 0x3F000000#32]).out)[0] = ⟨0x3F800000#32, 0xC0000000#32⟩ := by
  decide +kernel

/-- The same of a core whose parameters are P. -/
def afterWith (P : Params) (s : State) (ws : List Word) : State :=
  match stepWith P (submit ws s) with
  | .next t => t
  | _ => s

/-- A core one step before a subnormal input of slot 0 comes out in lane l. -/
def subnormalDue : State := State.reset.setHistory 0 (clearLine.set 0 ⟨0x00000001#32, 0x3F800000#32⟩) 60

/-- R95: a subnormal input comes out as it is under ieee, and as a zero of a core with ftz_daz. -/
theorem test_process_subnormal_modes :
    (afterWith (defaultsUnder { defaultArith with subnormal := .ieee }) subnormalDue
      [0x00000204#32, 0#32, 0#32]).out[0] = ⟨0x00000001#32, 0x3F800000#32⟩ ∧
    (afterWith (defaultsUnder { defaultArith with subnormal := .ftzDaz }) subnormalDue
      [0x00000204#32, 0#32, 0#32]).out[0] = ⟨0x00000000#32, 0x3F800000#32⟩ := by decide +kernel

/-- `PROCESS 3` after `UPDATE 2`: STATUS 0x00020375, FAULT_WORD 0x00000304 (V-43-2, V-43-3). -/
theorem test_process_stale :
    (after configured [0x00000304#32, 0x3F800000#32, 0x3F800000#32]).resp =
      [0x00020375#32, 0x00000304#32] := by decide +kernel

/-- `LATENCY`: LAT = 60 (V-43-1). -/
theorem test_latency : (after State.reset [0x00000005#32]).resp = [0#32, 0#32, 0x0000003C#32] := by decide +kernel

/-- A halted core answers LATENCY with STATUS and FAULT_WORD alone (R131). -/
theorem test_latency_halted : (after halted [0x00000005#32]).resp = [0x00000014#32, 0x00000000#32] := by
  decide +kernel

/-- The coefficients of R69's example, and through them the binary64 cosine and sine. -/
theorem test_biquad_coefficients :
    referenceLP 0x473B8000#32 0x447A0000#32 butterworthQ =
      ⟨0x3B8052DA#32, 0x3C0052DA#32, 0x3B8052DA#32, 0xBFE85D19#32, 0x3F54BCC8#32⟩ := by decide +kernel

/-- R69 states no coefficients for a BIQUAD_Q that is zero, infinite or a NaN: they are free (log entry 16). -/
theorem test_unstated_biquad_q (q : F32) (h : q = 0x80000000#32 ∨ q = 0x7F800000#32 ∨ q = 0x7FC00000#32) :
    referenceLP 0x473B8000#32 0x447A0000#32 q = unstatedLP 0x473B8000#32 0x447A0000#32 q := by
  have hs : statedArguments 0x473B8000#32 0x447A0000#32 q = false := by
    rcases h with rfl | rfl | rfl <;> decide +kernel
  rw [referenceLP, hs]; rfl

/-- R72's example: with P = 1 and R69's coefficients the forward pass leaves b0 at the centre, which is BIQUAD_STEP of
1.0 from BQ_RESET. -/
theorem test_forward_pass :
    ((forwardPass { defaults with passes := .single } (referenceLP 0x473B8000#32 0x447A0000#32 butterworthQ)
      designSeed)[60]).l = 0x3B8052DA#32 := by decide +kernel

/-- V-41: the high-pass centre tap fl(−0x3D168919 + 1) is 0x3F76976E (R84). -/
theorem test_high_pass_centre :
    ((spectralInverse defaults (Vector.replicate F (splat 0x3D168919#32)))[60]).l = 0x3F76976E#32 := by
  decide +kernel

/-- V-42: the product is not rounded before the sum, and an exactly zero sum is +0.0. -/
theorem test_fused_rounds_once :
    laneFma .ieee ⟨false, 0⟩ 0x3F800001#32 0x3F800001#32 0xBF800002#32 = 0x28800000#32 ∧
      laneFma .ieee ⟨false, 0⟩ 0x3F800000#32 0x3F800000#32 0xBF800000#32 = 0x00000000#32 := by decide +kernel

/-! ### Witnesses: for each statement with hypotheses, values that meet them, at the ends of each clause's range -/

theorem witness_DecodeOfEncodeIsTheCommand :
    WellFormed (.init 0) ∧ WellFormed (.init 15) ∧ WellFormed (.update 7 1#32 2#32 3#32 4#32 5#32) ∧
      WellFormed .reset ∧ WellFormed (.process 7 1#32 2#32) ∧ WellFormed .latency := by decide

theorem witness_EncodeOfDecodeIsTheWords : decode [0x000000F1#32, 9#32] = .command (.init 15) 1 := by decide

theorem witness_DecodeProcedureInOrder :
    bits 0x00000000#32 3 0 = 0 ∧ 6 ≤ bits 0x00000006#32 3 0 ∧ bits 0x00000001#32 3 0 = 1 ∧
      bits 0x00000005#32 3 0 = 5 ∧ bits 0x00000801#32 31 11 ≠ 0 ∧ bits 0x00000012#32 7 4 ≠ 0 ∧
      bits 0x00000101#32 10 8 ≠ 0 ∧ opcodeOf (bits 0x00000704#32 3 0) = some .process ∧
      bits 0x00000704#32 31 11 = 0 ∧ bits 0x00000704#32 7 4 = 0 ∧
      (∃ r ∈ opcodeTable, r.matchesWord 0x00000704#32 = true) := by decide

theorem witness_BytesCarryTheWords : (0 : Nat) < 4 ∧ (3 : Nat) < 4 := by decide

theorem witness_StatusWordFields : State.reset.cfgNb < 8 ∧ (State.reset.setConfig 7 .processing).cfgNb < 8 := by
  decide

theorem witness_StepPerformsTheDecodedCommand :
    WellFormed (.process 2 1#32 2#32) ∧
      (State.reset.setInput [.word 0x00000204#32, .word 1#32, .word 2#32, .powerOn]).input =
        (encode (.process 2 1#32 2#32)).map .word ++ [.powerOn] := by decide

theorem witness_StepFaultsOnAnUndecodableWord :
    Running State.reset ∧ decodeOpcode 0x00000006#32 = .error (.illegalOpcode 6) ∧
      ([] : List Word).length = operandCount 0x00000006#32 ∧
      decodeOpcode 0x00000014#32 = .error .reservedBits ∧ [1#32, 2#32].length = operandCount 0x00000014#32 ∧
      (State.reset.setInput [.word 0x00000014#32, .word 1#32, .word 2#32]).input =
        (0x00000014#32 :: [1#32, 2#32]).map .word ++ [] := ⟨rfl, by decide⟩

theorem halted_not_running : ¬ Running halted := by unfold Running; decide

theorem witness_HaltedCorePerformsNoCommand : ¬ Running halted := halted_not_running

theorem witness_OnlyPowerOnResetLeavesTheHalt : ¬ Running halted := halted_not_running

theorem witness_PowerOnResetRestoresTheState :
    (halted.setInput [.powerOn, .word 5#32]).input = .powerOn :: [.word 5#32] := rfl

theorem witness_WaitingCoreHoldsItsState :
    (State.reset.setInput []).input = ([] : List Word).map .word ∧ decode [] = .incomplete ∧
      (State.reset.setInput [.word 0x00000204#32, .word 1#32]).input =
        [0x00000204#32, 1#32].map .word ∧ decode [0x00000204#32, 1#32] = .incomplete := by decide

theorem witness_ResponseReflectsTheStateAfter :
    ∃ t, exec (.init 1) State.reset = .next t ∧ ¬ Running t := ⟨_, rfl, by unfold Running; decide⟩

theorem witness_InitRecreatesTheEngineOrFaults :
    Running configured ∧ (0 : Nat) < 16 ∧ (15 : Nat) < 16 ∧ (15 : Nat) ≠ 0 ∧ (1 : Nat) ≠ 0 := ⟨rfl, by decide⟩

theorem witness_ResetClearsEveryHistory : Running configured := rfl

theorem witness_LatencyAnswersSixty : Running configured := rfl

theorem witness_ResetLatencyUpdateAreIdempotent :
    (∃ t, exec .reset configured = .next t) ∧ (∃ t, exec .latency configured = .next t) ∧
      ∃ t, exec (.update 2 0x473B8000#32 0x447A0000#32 0#32 0#32 0#32) configured = .next t :=
  ⟨exec_next _ _, exec_next _ _, exec_next _ _⟩

/-- The sample rate 48000 and, below half of it, 1000, the least positive number and the number before 24000. -/
theorem legal_rates :
    SampleRateLegal 0x473B8000#32 ∧
      ∀ f ∈ [0x447A0000#32, 0x00000001#32, 0x46BB7FFF#32, 0x447A0000#32], FrequencyLegal 0x473B8000#32 f := by
  have h : SampleRateLegal 0x473B8000#32 := (legalSampleRate_iff _).1 (by decide +kernel)
  have hl : ([0x447A0000#32, 0x00000001#32, 0x46BB7FFF#32, 0x447A0000#32].all
      fun f => legalFrequency 0x473B8000#32 f) = true := by decide +kernel
  exact ⟨h, fun f hf => (legalFrequency_iff _ f h).1 (List.all_eq_true.1 hl f hf)⟩

theorem witness_UpdateLoadsTheBandKernels :
    Running State.reset ∧ SampleRateLegal 0x473B8000#32 ∧
      (∀ f ∈ [0x447A0000#32, 0x00000001#32, 0x46BB7FFF#32, 0x447A0000#32].take (5 - 1),
        FrequencyLegal 0x473B8000#32 f) ∧
      (∀ f ∈ [0x447A0000#32, 0x00000001#32, 0x46BB7FFF#32, 0x447A0000#32].take (2 - 1),
        FrequencyLegal 0x473B8000#32 f) :=
  ⟨rfl, legal_rates.1, fun f hf => legal_rates.2 f (List.mem_of_mem_take hf),
    fun f hf => legal_rates.2 f (List.mem_of_mem_take hf)⟩

/-- Band counts 1, 6 and 7; the rate 0; and 24000 Hz at indices 0 and 3, with legal frequencies before it. -/
theorem witness_UpdateFaultsInOrder :
    Running State.reset ∧ (1 < 2 ∨ 5 < 1) ∧ (6 < 2 ∨ 5 < 6) ∧ (7 : Nat) < 8 ∧ ¬ SampleRateLegal 0#32 ∧
      SampleRateLegal 0x473B8000#32 ∧ ¬ FrequencyLegal 0x473B8000#32 0x46BB8000#32 ∧
      ([0x46BB8000#32, 0#32, 0#32, 0#32].take (2 - 1))[0]? = some 0x46BB8000#32 ∧
      ([0x447A0000#32, 0x447A0000#32, 0x447A0000#32, 0x46BB8000#32].take (5 - 1))[3]? = some 0x46BB8000#32 ∧
      (∀ g ∈ [0x447A0000#32, 0x447A0000#32, 0x447A0000#32, 0x46BB8000#32].take 3,
        FrequencyLegal 0x473B8000#32 g) := by
  refine ⟨rfl, by decide, by decide, by decide, ?_, legal_rates.1, ?_, rfl, rfl, ?_⟩
  · rw [← legalSampleRate_iff]; decide +kernel
  · rw [← legalFrequency_iff _ _ legal_rates.1]; decide +kernel
  · intro g hg
    exact legal_rates.2 g (List.mem_of_mem_take (i := 1) (by simpa using hg))

theorem witness_UpdateIgnoresUnusedFrequencies :
    [1#32, 2#32, 3#32, 4#32].take (2 - 1) = [1#32, 5#32, 6#32, 7#32].take (2 - 1) := rfl

theorem witness_UpdateIsAFunctionOfItsOperands :
    Running State.reset ∧ Running configured ∧ SampleRateLegal 0x473B8000#32 ∧
      (∀ f ∈ [0x447A0000#32, 0#32, 0#32, 0#32].take (2 - 1), FrequencyLegal 0x473B8000#32 f) ∧
      (∃ t, exec (.update 2 0x473B8000#32 0x447A0000#32 0#32 0#32 0#32) State.reset = .next t) ∧
      (∃ t, exec (.update 2 0x473B8000#32 0x447A0000#32 0#32 0#32 0#32) configured = .next t) := by
  refine ⟨rfl, rfl, legal_rates.1, ?_, exec_next _ _, exec_next _ _⟩
  intro f hf
  exact legal_rates.2 f (List.mem_of_mem_take (i := 1) (by simpa using hf))

theorem witness_ProcessStepsTheActiveSlots :
    Running State.reset ∧ State.reset.fsm = .uninit ∧ Running configured ∧ 2 ≤ configured.cfgNb ∧
      Running (State.reset.setConfig 5 .processing) ∧ 5 ≤ (State.reset.setConfig 5 .processing).cfgNb :=
  ⟨rfl, rfl, rfl, by decide, rfl, by decide⟩

theorem witness_ProcessFaultsInOrder :
    Running configured ∧ (1 < 2 ∨ 5 < 1) ∧ (6 < 2 ∨ 5 < 6) ∧ (7 : Nat) < 8 ∧ configured.fsm ≠ .uninit ∧
      configured.cfgNb < 3 ∧ configured.cfgNb < 5 := ⟨rfl, by decide⟩

/-- Two cores that differ in slot 1 alone, seen from slot 0. -/
theorem witness_ActiveSlotsShareNoState :
    let s := State.reset
    let s' := State.reset.setHistory 1 (clearLine.set 0 onePair) 1
    Running s ∧ Running s' ∧ (0 : Fin NSLOT).val < 2 ∧ s.fsm = s'.fsm ∧ s.cfgNb = s'.cfgNb ∧ s.draws = s'.draws ∧
      s.coef[0] = s'.coef[0] ∧ s.dl[0] = s'.dl[0] ∧ s.cur[0] = s'.cur[0] ∧ s.out[0] = s'.out[0] ∧
      (∃ t, exec (.process 2 1#32 2#32) s = .next t) ∧ ∃ t, exec (.process 2 1#32 2#32) s' = .next t :=
  ⟨rfl, rfl, by decide, rfl, rfl, rfl, rfl, rfl, rfl, rfl, exec_next _ _, exec_next _ _⟩

theorem witness_ProcessStreamFeedsTheActiveSlots :
    Running configured ∧ 2 ≤ configured.cfgNb ∧ (1 : Fin NSLOT).val < 2 ∧ 2 ≤ (2 : Fin NSLOT).val :=
  ⟨rfl, by decide⟩

theorem witness_ProcessedImpulseBringsOutTheKernel :
    Running configured ∧ 2 ≤ configured.cfgNb ∧ (1 : Fin NSLOT).val < 2 ∧
      (∀ j : Fin L, configured.dl[(1 : Fin NSLOT)][j] = zeroPair) ∧ KernelFinite configured.coef[(1 : Fin NSLOT)] ∧
      (120 : Fin F).val = 120 ∧ (0 : Fin F).val = 0 ∧ 121 ≤ 121 := by
  refine ⟨rfl, by decide, by decide, ?_, ?_, rfl, rfl, le_rfl⟩
  · intro j
    simp [configured, State.reset, clearLine]
  · intro k
    show PairFinite identityKernel[k]
    rw [identityKernel_at]
    split <;> exact ⟨by decide, by decide⟩

/-- Two cores with different histories in slot 1 and equal kernels. -/
theorem witness_ReplayAfterResetGivesTheSameOutput :
    let s := configured
    let s' := configured.setHistory 1 (clearLine.set 0 onePair) 1
    Running s ∧ Running s' ∧ 2 ≤ s.cfgNb ∧ 2 ≤ s'.cfgNb ∧ s.coef[(1 : Fin NSLOT)] = s'.coef[(1 : Fin NSLOT)] ∧
      (1 : Fin NSLOT).val < 2 ∧ [onePair] ≠ [] ∧ (∃ t, exec .reset s = .next t) ∧ ∃ t, exec .reset s' = .next t :=
  ⟨rfl, rfl, by decide, by decide, rfl, by decide, by simp, exec_next _ _, exec_next _ _⟩

theorem witness_EngineStateTransitions :
    Running configured ∧ (∃ t, exec .latency configured = .next t ∧ Running t) := ⟨rfl, _, rfl, rfl⟩

theorem witness_CommandsWriteOnlyTheirOwnState :
    Running configured ∧ (∃ t, exec .latency configured = .next t ∧ Running t) ∧
      ∃ t, exec (.init 1) configured = .next t ∧ ¬ Running t :=
  ⟨rfl, ⟨_, rfl, rfl⟩, ⟨_, rfl, by unfold Running; decide⟩⟩

/-- The halted core meets the invariant. -/
theorem witness_EveryStepKeepsTheInvariant : EngineInv halted ∧ ∃ t, step halted = .next t := by
  refine ⟨⟨.inl rfl, rfl, by decide, ?_, ?_, ?_, by decide⟩, _, rfl⟩
  · intro _ b
    simp [halted, State.reset]
  · intro b k
    have e : halted.coef[b] = identityKernel := by simp [halted, State.reset]
    have hk : k.val < 121 := k.isLt
    rw [e, identityKernel_at, identityKernel_at, mirrorTap_val]
    congr 1
    apply propext
    constructor <;> intro h <;> omega
  · intro b k
    have e : halted.coef[b] = identityKernel := by simp [halted, State.reset]
    rw [e, identityKernel_at]
    split <;> rfl

theorem witness_TwoPassesAreTwoCascadedSections : rightHalf.Nodup ∧ rightHalf.length = 61 :=
  ⟨rightHalf_nodup, by decide⟩

theorem witness_PassesLeaveTheLeftEntries : (59 : Fin F).val < 60 ∧ (58 : Fin F).val < 59 := by decide

theorem witness_WindowWeightsTheRightHalf :
    (60 : Fin F).val = 60 + (0 : Fin 61).val ∧ (120 : Fin F).val = 60 + (60 : Fin 61).val ∧
      (59 : Fin F).val < 60 := by decide

theorem witness_NormalisationScalesTheRightHalf :
    60 ≤ (60 : Fin F).val ∧ 60 ≤ (120 : Fin F).val ∧ (59 : Fin F).val < 60 := by decide

theorem witness_KernelDependsOnTheRightHalfAlone :
    (∀ k : Fin F, 60 ≤ k.val → designSeed[k] = (designSeed.set 59 onePair)[k]) ∧
      designSeed ≠ designSeed.set 59 onePair := by
  constructor
  · intro k hk
    simp only [Fin.getElem_fin, Vector.getElem_set]
    rw [if_neg (by omega)]
  · intro h
    have := congrArg (fun v : Kernel => v[59]) h
    revert this
    decide +kernel

theorem witness_AssemblyGivesOneKernelPerBand : (2 ≤ 2 ∧ 2 ≤ 5) ∧ (2 ≤ 5 ∧ (5 : Nat) ≤ 5) := by decide

theorem witness_ThreeBandKernels : (59 : Fin F).val ≠ 60 ∧ (61 : Fin F).val ≠ 60 := by decide

theorem witness_TwoBandKernels : (59 : Fin F).val ≠ 60 ∧ (61 : Fin F).val ≠ 60 := by decide

theorem witness_BandKernelsAreSymmetricWithEqualLanes :
    lowPass defaults 0x473B8000#32 0x447A0000#32 ∈ assemble defaults 0x473B8000#32 2 [0x447A0000#32] :=
  List.mem_cons_self

/-- A collaborator that passes its input through, so that the designed kernel is the impulse. -/
def passThrough : Params :=
  { defaults with
    biquadLP := fun _ _ _ => ⟨oneBits, zeroBits, zeroBits, zeroBits, zeroBits⟩
    biquadStep := fun _ st x => (x, st)
    passes := .single }

theorem passThrough_bounded :
    ((lowPass passThrough 0x473B8000#32 0x447A0000#32).toList.all fun x =>
      isFinite x.l && isFinite x.r && Nat.ble (laneMag x.l) (2 ^ 149) && Nat.ble (laneMag x.r) (2 ^ 149)) =
      true := by decide +kernel

theorem laneReal_le_one {a : F32} (h : Nat.ble (laneMag a) (2 ^ 149) = true) : |laneReal a| ≤ 1 := by
  have h' : laneMag a ≤ 2 ^ 149 := Nat.le_of_ble_eq_true h
  unfold laneReal
  rw [abs_div, abs_of_pos (by positivity : (0 : ℚ) < 2 ^ 149), div_le_one (by positivity), ← Int.cast_abs,
    Int.abs_eq_natAbs, laneVal_natAbs]
  exact_mod_cast h'

theorem witness_BandKernelsReconstructTheImpulse :
    passThrough.arith.subnormal = .ieee ∧
      (∀ f ∈ [0x447A0000#32, 0#32, 0#32, 0#32].take (2 - 1),
        KernelBounded (lowPass passThrough 0x473B8000#32 f)) ∧
      ∀ f ∈ [0x447A0000#32, 0x447A0000#32, 0x447A0000#32, 0x447A0000#32].take (5 - 1),
        KernelBounded (lowPass passThrough 0x473B8000#32 f) := by
  have key : KernelBounded (lowPass passThrough 0x473B8000#32 0x447A0000#32) := by
    have h := List.all_eq_true.1 passThrough_bounded
    have hk : ∀ k : Fin F, PairFinite (lowPass passThrough 0x473B8000#32 0x447A0000#32)[k] ∧
        |laneReal (lowPass passThrough 0x473B8000#32 0x447A0000#32)[k].l| ≤ 1 ∧
          |laneReal (lowPass passThrough 0x473B8000#32 0x447A0000#32)[k].r| ≤ 1 := by
      intro k
      have := h _ (Vector.mem_toList_iff.2 (Vector.getElem_mem k.isLt))
      simp only [Bool.and_eq_true] at this
      exact ⟨⟨this.1.1.1, this.1.1.2⟩, laneReal_le_one this.1.2, laneReal_le_one this.2⟩
    exact ⟨fun k => (hk k).1, fun k => (hk k).2⟩
  refine ⟨rfl, ?_, ?_⟩
  · intro f hf
    obtain rfl : f = 0x447A0000#32 := by simpa using hf
    exact key
  · intro f hf
    obtain rfl : f = 0x447A0000#32 := by simpa using hf
    exact key

/-- The values of the impulse's windowed right half, and their total, with the collaborator that passes through. -/
theorem passThrough_total :
    let co : BiquadCoefs := ⟨oneBits, zeroBits, zeroBits, zeroBits, zeroBits⟩
    let work := applyWindow passThrough (reversePass passThrough co (forwardPass passThrough co designSeed))
    work.toList.drop 60 = onePair :: List.replicate 60 zeroPair ∧ kernelTotal passThrough work = onePair := by
  decide +kernel

/-- A right half of ONE and then ZERO with the total ONE is well conditioned. -/
theorem wellConditioned_of_impulse (P : Params) (work : Kernel)
    (h1 : work.toList.drop 60 = onePair :: List.replicate 60 zeroPair) (h2 : kernelTotal P work = onePair) :
    WellConditioned P work := by
  have hone : laneReal oneBits = 1 := by
    unfold laneReal; rw [laneVal_one]; norm_num
  have hzero : laneReal zeroBits = 0 := by
    unfold laneReal; rw [(laneVal_eq_zero_iff _).2 (by decide)]; norm_num
  have hl : rightAbsL work = 1 := by
    unfold rightAbsL
    rw [rightHalf_map work (fun x => |laneReal x.l|), h1]
    simp [onePair, zeroPair, splat, hone, hzero]
  have hr : rightAbsR work = 1 := by
    unfold rightAbsR
    rw [rightHalf_map work (fun x => |laneReal x.r|), h1]
    simp [onePair, zeroPair, splat, hone, hzero]
  have t1 : laneReal (kernelTotal P work).l = 1 := by rw [h2]; exact hone
  have t2 : laneReal (kernelTotal P work).r = 1 := by rw [h2]; exact hone
  refine ⟨?_, ?_, ⟨by rw [t1]; norm_num, by rw [t1]; norm_num, by rw [t1, hl]⟩,
    ⟨by rw [t2]; norm_num, by rw [t2]; norm_num, by rw [t2, hr]⟩⟩
  · intro k hk
    have : work[k] ∈ work.toList.drop 60 := by
      rw [List.mem_drop_iff_getElem]
      have hk' : k.val < 121 := k.isLt
      refine ⟨k.val - 60, by simp; show k.val - 60 + 60 < 121; omega, ?_⟩
      simp
      congr 1; omega
    rw [h1] at this
    rcases List.mem_cons.1 this with e | e
    · rw [e]; exact ⟨by decide, by decide⟩
    · rw [List.eq_of_mem_replicate e]; exact ⟨by decide, by decide⟩
  · rw [h2]; exact ⟨by decide, by decide⟩

theorem witness_DesignedKernelSumsToOne :
    let co : BiquadCoefs := ⟨oneBits, zeroBits, zeroBits, zeroBits, zeroBits⟩
    passThrough.arith.subnormal = .ieee ∧
      WellConditioned passThrough
        (applyWindow passThrough (reversePass passThrough co (forwardPass passThrough co designSeed))) :=
  ⟨rfl, wellConditioned_of_impulse _ _ passThrough_total.1 passThrough_total.2⟩

theorem witness_FirStepIsTheTapSum : (1 : Fin NSLOT) ≠ 0 := by decide

theorem witness_DelayLineHoldsTheHistory : 1 ≤ 1 ∧ 1 ≤ 120 ∧ (120 : Nat) ≤ 120 := by decide

theorem witness_EightEntriesAreNeverRead :
    (5 : Fin L) = 5 ∧ (∃ k, 121 ≤ k ∧ k ≤ 127 ∧ (12 : Fin L).val = ((5 : Fin L).val + 128 - k) % 128) ∧
      ∃ k, 121 ≤ k ∧ k ≤ 127 ∧ (6 : Fin L).val = ((5 : Fin L).val + 128 - k) % 128 :=
  ⟨rfl, ⟨121, by decide⟩, ⟨127, by decide⟩⟩

/-- Lines that agree in lane l and differ in lane r. -/
theorem witness_LanesDoNotMix :
    (∀ k : Fin F, identityKernel[k].l = identityKernel[k].l) ∧
      (∀ j : Fin L, clearLine[j].l = (clearLine.set 3 ⟨zeroBits, oneBits⟩)[j].l) ∧
      clearLine ≠ clearLine.set 3 ⟨zeroBits, oneBits⟩ ∧ (⟨1#32, 2#32⟩ : Pair).l = (⟨1#32, 3#32⟩ : Pair).l := by
  refine ⟨fun _ => rfl, ?_, by decide +kernel, rfl⟩
  decide +kernel

theorem witness_NaNReachesTheOutput :
    isNaN (⟨0x7FC00000#32, 0#32⟩ : Pair).l = true ∧
      (∃ k, 1 ≤ k ∧ k ≤ 120 ∧ isNaN (clearLine.set 4 (splat 0x7F800001#32))[historyIndex 5 k].l = true) ∧
      ∃ k, 1 ≤ k ∧ k ≤ 120 ∧ isNaN (clearLine.set 13 (splat 0xFFFFFFFF#32))[historyIndex 5 k].l = true :=
  ⟨by decide, ⟨1, by decide +kernel⟩, ⟨120, by decide +kernel⟩⟩

theorem witness_IdentityKernelIsAPureDelay :
    defaults.arith.subnormal = .ieee ∧ State.reset.coef[0] = identityKernel ∧
      (∀ x ∈ List.replicate 61 onePair, PairFinite x) ∧
      (∃ y, (filterOutputs defaults 0 (List.replicate 61 onePair) (firClear 0 State.reset))[59]? = some y) ∧
      (∃ y, (filterOutputs defaults 0 (List.replicate 61 onePair) (firClear 0 State.reset))[60]? = some y) ∧
      (List.replicate 61 onePair)[60 - 60]? = some onePair := by
  have hl := filterOutputs_length defaults 0 (List.replicate 61 onePair) (firClear 0 State.reset)
  rw [List.length_replicate] at hl
  refine ⟨rfl, rfl, ?_, ⟨_, List.getElem?_eq_getElem (by omega)⟩, ⟨_, List.getElem?_eq_getElem (by omega)⟩, rfl⟩
  intro x hx
  obtain rfl := List.eq_of_mem_replicate hx
  exact ⟨by decide, by decide⟩

theorem witness_ImpulseBringsOutTheKernel :
    defaults.arith.subnormal = .ieee ∧ KernelFinite State.reset.coef[0] ∧
      (∃ y, (filterOutputs defaults 0 (onePair :: List.replicate 121 zeroPair)
        (firClear 0 State.reset))[0]? = some y) ∧
      (∃ y, (filterOutputs defaults 0 (onePair :: List.replicate 121 zeroPair)
        (firClear 0 State.reset))[120]? = some y) ∧
      (∃ y, (filterOutputs defaults 0 (onePair :: List.replicate 121 zeroPair)
        (firClear 0 State.reset))[121]? = some y) := by
  have hl := filterOutputs_length defaults 0 (onePair :: List.replicate 121 zeroPair) (firClear 0 State.reset)
  rw [List.length_cons, List.length_replicate] at hl
  refine ⟨rfl, ?_, ⟨_, List.getElem?_eq_getElem (by omega)⟩, ⟨_, List.getElem?_eq_getElem (by omega)⟩,
    ⟨_, List.getElem?_eq_getElem (by omega)⟩⟩
  intro k
  show PairFinite identityKernel[k]
  rw [identityKernel_at]
  split <;> exact ⟨by decide, by decide⟩

theorem witness_FusedMultiplyAddIsNearest :
    isFinite 0x3F800001#32 = true ∧ isFinite 0xBF800002#32 = true ∧ isFinite 0x7F7FFFFF#32 = true ∧
      isFinite (laneFma .ieee ⟨false, 0⟩ 0x3F800001#32 0x3F800001#32 0xBF800002#32) = true := by decide +kernel

theorem witness_SumsAndProductsAreNearest :
    isFinite 0x3F800001#32 = true ∧ isFinite 0x00000001#32 = true ∧
      isFinite (laneAdd .ieee ⟨false, 0⟩ 0x3F800001#32 0x00000001#32) = true ∧
      isFinite (laneSub .ieee ⟨false, 0⟩ 0x3F800001#32 0x00000001#32) = true ∧
      isFinite (laneMul .ieee ⟨false, 0⟩ 0x3F800001#32 0x00000001#32) = true := by decide +kernel

/-- 1 · 1 + 2^−24 lies as near to 1 + 2^−23 as to 1. -/
theorem witness_TiesRoundToEven :
    isFinite 0x3F800000#32 = true ∧ isFinite 0x33800000#32 = true ∧ isFinite 0x3F800001#32 = true ∧
      isFinite (laneFma .ieee ⟨false, 0⟩ 0x3F800000#32 0x3F800000#32 0x33800000#32) = true ∧
      laneReal 0x3F800001#32 ≠ laneReal (laneFma .ieee ⟨false, 0⟩ 0x3F800000#32 0x3F800000#32 0x33800000#32) ∧
      |laneReal (laneFma .ieee ⟨false, 0⟩ 0x3F800000#32 0x3F800000#32 0x33800000#32) -
          (laneReal 0x3F800000#32 * laneReal 0x3F800000#32 + laneReal 0x33800000#32)| =
        |laneReal 0x3F800001#32 - (laneReal 0x3F800000#32 * laneReal 0x3F800000#32 + laneReal 0x33800000#32)| := by
  have h1 : laneFma .ieee ⟨false, 0⟩ 0x3F800000#32 0x3F800000#32 0x33800000#32 = 0x3F800000#32 := by decide +kernel
  have v1 : laneVal 0x3F800000#32 = 2 ^ 149 := by decide +kernel
  have v2 : laneVal 0x33800000#32 = 2 ^ 125 := by decide +kernel
  have v3 : laneVal 0x3F800001#32 = 2 ^ 149 + 2 ^ 126 := by decide +kernel
  rw [h1]
  refine ⟨by decide, by decide, by decide, by decide, ?_, ?_⟩ <;> unfold laneReal <;> rw [v1, v3]
  · norm_num
  · rw [v2]; norm_num

theorem witness_OverflowGivesInfinityOfTheSign :
    isFinite 0x7F7FFFFF#32 = true ∧ isFinite 0x73000000#32 = true ∧
      isFinite (laneAdd .ieee ⟨false, 0⟩ 0x7F7FFFFF#32 0x73000000#32) = false ∧
      isFinite (laneAdd .ieee ⟨false, 0⟩ 0xFF7FFFFF#32 0xF3000000#32) = false := by decide +kernel

/-- 1 · 1 − 1, and 0 · (−1) + (−0). -/
theorem witness_ExactZeroSumsAreSigned :
    laneReal 0x3F800000#32 * laneReal 0x3F800000#32 + laneReal 0xBF800000#32 = 0 ∧
      laneReal 0x00000000#32 * laneReal 0xBF800000#32 + laneReal 0x80000000#32 = 0 := by
  have v1 : laneVal 0x3F800000#32 = 2 ^ 149 := by decide +kernel
  have v2 : laneVal 0xBF800000#32 = -2 ^ 149 := by decide +kernel
  have v3 : laneVal 0x00000000#32 = 0 := by decide +kernel
  have v4 : laneVal 0x80000000#32 = 0 := by decide +kernel
  unfold laneReal
  rw [v1, v2, v3, v4]
  norm_num

theorem witness_SpecialOperands :
    isNaN 0x7F800001#32 = true ∧ isInf 0xFF800000#32 = true ∧ isZero 0x80000000#32 = true ∧
      isZero 0x00000000#32 = true ∧ isFinite 0x00800000#32 = true ∧ isZero 0x00800000#32 = false ∧
      isSubnormal 0x00800000#32 = false := by decide

theorem witness_FlushModeNeverSeesSubnormals :
    isSubnormal 0x00000001#32 = true ∧ isSubnormal 0x807FFFFF#32 = true := by decide

/-- The premises for a command at the port, for UPDATE and for PROCESS, each at its boundaries. -/
theorem witness_EveryParameterChoiceHasItsMachine :
    (WellFormed (.process 2 1#32 2#32) ∧
      (State.reset.setInput [.word 0x00000204#32, .word 1#32, .word 2#32, .powerOn]).input =
        (encode (.process 2 1#32 2#32)).map .word ++ [.powerOn]) ∧
    (Running State.reset ∧ SampleRateLegal 0x473B8000#32 ∧
      ∀ f ∈ [0x447A0000#32, 0x00000001#32, 0x46BB7FFF#32, 0x447A0000#32].take (5 - 1),
        FrequencyLegal 0x473B8000#32 f) ∧
    State.reset.fsm = .uninit ∧ Running configured ∧ 2 ≤ configured.cfgNb :=
  ⟨witness_StepPerformsTheDecodedCommand,
    ⟨rfl, legal_rates.1, fun f hf => legal_rates.2 f (List.mem_of_mem_take hf)⟩, rfl, rfl, by decide⟩

end Sys2Proof.Tests
end

section
/-! The command at the port: the words of a well-formed command decode to that command, whatever follows them,
so a command step performs it (R53, R55, R60, R107). -/

namespace Sys2Proof

/-- The opcode of a command (R54). -/
def Instr.opcode (i : Instr) : Opcode :=
  match i with
  | .init _ => .init
  | .update _ _ _ _ _ _ => .update
  | .reset => .reset
  | .process _ _ _ => .process
  | .latency => .latency

/-- The value of w[7:4] in a command's word, 0 where the command does not use it (R53). -/
def Instr.modeField (i : Instr) : Nat :=
  match i with
  | .init mode => mode
  | _ => 0

/-- The value of w[10:8] in a command's word, 0 where the command does not use it (R53). -/
def Instr.nbField (i : Instr) : Nat :=
  match i with
  | .update nb _ _ _ _ _ => nb
  | .process nb _ _ => nb
  | _ => 0

/-- The five formulas of R65 are one: the opcode and the two fields at their places. -/
theorem commandWord_eq_fields (i : Instr) :
    commandWord i = BitVec.ofNat 32 (opcodeNumber i.opcode + i.modeField * 16 + i.nbField * 256) := by
  cases i <;> simp [commandWord, Instr.opcode, Instr.modeField, Instr.nbField, opcodeNumber]

theorem opcodeNumber_lt (o : Opcode) : opcodeNumber o < 16 := by
  cases o <;> decide

theorem modeField_lt {i : Instr} (h : WellFormed i) : i.modeField < 16 := by
  cases i with
  | init mode => exact of_decide_eq_true h
  | _ => exact Nat.zero_lt_succ _

theorem nbField_lt {i : Instr} (h : WellFormed i) : i.nbField < 8 := by
  cases i with
  | update nb sr f0 f1 f2 f3 => exact of_decide_eq_true h
  | process nb l r => exact of_decide_eq_true h
  | _ => exact Nat.zero_lt_succ _

/-- The four fields of a word put together from values that fit them (R53). -/
theorem bits_ofNat_fields {op mode nb : Nat} (hop : op < 16) (hmode : mode < 16) (hnb : nb < 8) :
    bits (BitVec.ofNat 32 (op + mode * 16 + nb * 256)) 3 0 = op ∧
      bits (BitVec.ofNat 32 (op + mode * 16 + nb * 256)) 7 4 = mode ∧
      bits (BitVec.ofNat 32 (op + mode * 16 + nb * 256)) 10 8 = nb ∧
      bits (BitVec.ofNat 32 (op + mode * 16 + nb * 256)) 31 11 = 0 := by
  have hlt : op + mode * 16 + nb * 256 < 2 ^ 32 := by omega
  unfold bits
  rw [BitVec.toNat_ofNat, Nat.mod_eq_of_lt hlt]
  omega

/-- The four fields of a command word (R53, R65). -/
theorem bits_commandWord {i : Instr} (h : WellFormed i) :
    bits (commandWord i) 3 0 = opcodeNumber i.opcode ∧ bits (commandWord i) 7 4 = i.modeField ∧
      bits (commandWord i) 10 8 = i.nbField ∧ bits (commandWord i) 31 11 = 0 := by
  rw [commandWord_eq_fields]
  exact bits_ofNat_fields (opcodeNumber_lt _) (modeField_lt h) (nbField_lt h)

/-- The decode procedure accepts a command word and finds its opcode (R60). -/
theorem decodeOpcode_commandWord {i : Instr} (h : WellFormed i) :
    decodeOpcode (commandWord i) = .ok i.opcode := by
  obtain ⟨hop, hmode, hnb, hreserved⟩ := bits_commandWord h
  rw [decodeOpcode_ok_iff, opcodeOf_eq_some_iff]
  refine ⟨hop, ?_⟩
  unfold unusedBitsClear
  rw [hmode, hnb, hreserved]
  cases i <;> rfl

/-- A command word announces as many operands as the command has (R55, R63). -/
theorem operandCount_commandWord {i : Instr} (h : WellFormed i) :
    operandCount (commandWord i) = (operandWords i).length := by
  rw [Laws.CommandLength.operandCount_of_op (bits_commandWord h).1]
  cases i <;> rfl

/-- Decoding the words of a well-formed command gives it back, whatever words follow (R53, R55, R60). -/
theorem decode_encode_append {i : Instr} (rest : List Word) (h : WellFormed i) :
    decode (encode i ++ rest) = .command i (encode i).length := by
  have hcomplete : ¬ (operandWords i ++ rest).length < operandCount (commandWord i) := by
    rw [operandCount_commandWord h, List.length_append]; omega
  have hop := decodeOpcode_commandWord h
  obtain ⟨-, hmode, hnb, -⟩ := bits_commandWord h
  simp only [encode, List.cons_append, decode, if_neg hcomplete, hop, hmode, hnb]
  cases i <;> rfl

namespace Machine

/-- However a core performs its commands, with the words of a well-formed command at the port it performs that
command on the state from which the words are taken (R107). -/
theorem commandStep_encode (perform : Instr → State → Host.Outcome State Fault Refusal) {s : State} {i : Instr}
    {rest : List HostEvent} (h : WellFormed i) (hin : s.input = (encode i).map .word ++ rest) :
    commandStep perform s = perform i { s with input := rest } := by
  have hdecode : decode (leadingWords s.input) = .command i (encode i).length := by
    rw [hin, leadingWords_append, decode_encode_append _ h]
  have hdrop : s.input.drop (encode i).length = rest := by
    rw [hin]; exact List.drop_left' (List.length_map _)
  simp only [commandStep, hdecode, hdrop]
  rfl

end Machine

end Sys2Proof
end

section
/-! UPDATE and PROCESS on legal operands, for every value of the parameters: which state they leave, slot by slot
(R81, R113, R114, R118, R119). -/

namespace Sys2Proof.Machine

open Sys2Proof.Config

/-- One kernel for each frequency of an interior band, and the final band's (R83, R84). -/
theorem assembleFrom_length (P : Params) (sr : F32) (acc : Kernel) (freqs : List F32) :
    (assembleFrom P sr acc freqs).length = freqs.length + 1 := by
  induction freqs generalizing acc with
  | nil => rfl
  | cons f rest ih => simp only [assembleFrom, List.length_cons, ih]

/-- ASSEMBLE gives one kernel for each band when it has a frequency for each of its crossovers (R81). -/
theorem assemble_length (P : Params) (sr : F32) {nb : Nat} {freqs : List F32} (h : 2 ≤ nb)
    (hlen : nb ≤ freqs.length + 1) : (assemble P sr nb freqs).length = nb := by
  have htake : (freqs.take (nb - 1)).length = nb - 1 := by rw [List.length_take]; omega
  unfold assemble
  cases hused : freqs.take (nb - 1) with
  | nil => rw [hused, List.length_nil] at htake; omega
  | cons f rest =>
    rw [hused, List.length_cons] at htake
    simp only [assembleUsed, List.length_cons, assembleFrom_length]
    omega

/-- UPDATE of a running core on legal operands raises no fault (R113). -/
theorem execWith_update_legal (P : Params) {s : State} {nb : Nat} {sr f0 f1 f2 f3 : F32} (h : Running s)
    (h2 : 2 ≤ nb) (h5 : nb ≤ 5) (hsr : SampleRateLegal sr)
    (hf : ∀ f ∈ [f0, f1, f2, f3].take (nb - 1), FrequencyLegal sr f) :
    execWith P (.update nb sr f0 f1 f2 f3) s =
      .next (respond [] (updateEngine P nb sr [f0, f1, f2, f3] s)) :=
  congrArg Host.Outcome.next (checked_run h (updateCheck_none h2 h5 hsr hf))

/-- UPDATE loads slot b with band b of ASSEMBLE (R113). -/
theorem updateEngine_coef_loaded (P : Params) (nb : Nat) (sr : F32) (freqs : List F32) (s : State)
    (b : Fin NSLOT) (h : b.val < (assemble P sr nb freqs).length) :
    (assemble P sr nb freqs)[b.val]? = some (updateEngine P nb sr freqs s).coef[b] := by
  rw [List.getElem?_eq_getElem h]
  exact congrArg some (loadBands_at _ s b h).symm

/-- UPDATE leaves the kernels of the slots past its bands (R114). -/
theorem updateEngine_coef_stale (P : Params) (nb : Nat) (sr : F32) (freqs : List F32) (s : State)
    (b : Fin NSLOT) (h : (assemble P sr nb freqs).length ≤ b.val) :
    (updateEngine P nb sr freqs s).coef[b] = s.coef[b] := loadBands_other _ s b h

/-- PROCESS raises no fault on a legal band count that the loaded kernels cover (R118, R121). -/
theorem processCheck_none {nb : Nat} {s : State} (h2 : 2 ≤ nb) (h5 : nb ≤ 5)
    (hfresh : s.fsm = .uninit ∨ nb ≤ s.cfgNb) : processCheck nb s = none := by
  have hstale : ¬ (s.fsm ≠ .uninit ∧ s.cfgNb < nb) := by
    rintro ⟨hfsm, hlt⟩
    exact hfresh.elim hfsm (Nat.not_le.2 hlt)
  simp [processCheck, legalBandCount_true h2 h5, hstale]

/-- A fresh PROCESS of a running core answers with every slot's OUT (R118). -/
theorem execWith_process_fresh (P : Params) {s : State} {nb : Nat} (l r : F32) (h : Running s) (h2 : 2 ≤ nb)
    (h5 : nb ≤ 5) (hfresh : s.fsm = .uninit ∨ nb ≤ s.cfgNb) :
    execWith P (.process nb l r) s =
      .next (respond (outWords (processEngine P nb ⟨l, r⟩ s)) (processEngine P nb ⟨l, r⟩ s)) :=
  congrArg Host.Outcome.next (checked_run h (processCheck_none h2 h5 hfresh))

/-- PROCESS steps an active slot by its own FIR_STEP, whose NaN draws follow those of the slots below it
(R118, log entry 1). -/
theorem processEngine_active (P : Params) {nb : Nat} (x : Pair) (s : State) {b : Fin NSLOT} (h : b.val < nb) :
    (processEngine P nb x s).out[b] = (firStep P b x { s with draws := s.draws + 242 * b.val }).1 ∧
      (processEngine P nb x s).dl[b] = s.dl[b].set s.cur[b] x ∧
      (processEngine P nb x s).cur[b].val = (s.cur[b].val + 1) % 128 := by
  obtain ⟨hdl, hcur, hout⟩ := stepSlots_at P nb x s b h
  refine ⟨?_, hdl, ?_⟩
  · rw [firStep_output]; exact hout
  · rw [← nextCursor_val, ← hcur]; rfl

/-- PROCESS leaves the inactive slots (R119). -/
theorem processEngine_inactive (P : Params) {nb : Nat} (x : Pair) (s : State) {b : Fin NSLOT} (h : nb ≤ b.val) :
    (processEngine P nb x s).out[b] = s.out[b] ∧ (processEngine P nb x s).dl[b] = s.dl[b] ∧
      (processEngine P nb x s).cur[b] = s.cur[b] := by
  obtain ⟨hdl, hcur, hout⟩ := stepSlots_other P nb x s b h
  exact ⟨hout, hdl, hcur⟩

/-- FSM after PROCESS: UNINIT stays, the other two states become PROCESSING (R24). -/
theorem afterProcess_eq (e : EngineState) : afterProcess e = if e = .uninit then .uninit else .processing := by
  cases e <;> rfl

/-- Settles O60: the step by decoding the words of the command, UPDATE and PROCESS by what the engine leaves in
each slot and by their frames. -/
theorem everyParameterChoiceHasItsMachine : Obligations.EveryParameterChoiceHasItsMachine := by
  unfold Obligations.EveryParameterChoiceHasItsMachine
  refine ⟨congrFun step_eq_stepWith, fun P s i rest hwf hin => commandStep_encode (execWith P) hwf hin,
    fun P s nb sr f0 f1 f2 f3 hrun h2 h5 hsr hf => ?update, fun P s nb l r hrun h2 h5 hfresh => ?process⟩
  case update =>
    have hlen : (assemble P sr nb [f0, f1, f2, f3]).length = nb := assemble_length P sr h2 h5
    refine ⟨_, execWith_update_legal P hrun h2 h5 hsr hf,
      fun b hb => updateEngine_coef_loaded P nb sr _ s b (hlen.symm ▸ hb),
      fun b hb => updateEngine_coef_stale P nb sr _ s b (hlen.symm ▸ hb), ?_⟩
    obtain ⟨c, hframe⟩ := updateEngine_frame P nb sr [f0, f1, f2, f3] s
    rw [hframe]
    exact ⟨rfl, rfl, rfl, rfl, rfl, rfl, ⟨rfl, rfl, rfl⟩, ⟨rfl, rfl⟩, rfl⟩
  case process =>
    refine ⟨_, execWith_process_fresh P l r hrun h2 h5 hfresh, fun b hb => processEngine_active P ⟨l, r⟩ s hb,
      fun b hb => processEngine_inactive P ⟨l, r⟩ s hb, ?_⟩
    obtain ⟨d, c, o, hframe⟩ := processEngine_frame P nb ⟨l, r⟩ s
    rw [hframe]
    exact ⟨afterProcess_eq s.fsm, rfl, rfl, rfl, ⟨rfl, rfl, rfl⟩, rfl⟩

end Sys2Proof.Machine
end

section
/-! The kernels of UPDATE: every designed and every band kernel is symmetric and has equal lanes, for every value
of the parameters (R29, R70, R78, R86). -/

namespace Sys2Proof.Machine

open Sys2Proof.Config

/-- Both lanes of the pair hold the same bits (R29). -/
def PairLanesEqual (x : Pair) : Prop := x.l = x.r

/-- What UPDATE keeps of every kernel it makes: symmetry and equal lanes (R29, R32). -/
def KernelShape (K : Kernel) : Prop := KernelSymmetric K ∧ KernelLanesEqual K

/-! ### Equal lanes through the pair operations of R11: both lanes perform the same operation on the same operands -/

theorem splat_lanesEqual (v : F32) : PairLanesEqual (splat v) := rfl

theorem padd_lanesEqual (A : Arith) {a b : Pair} (ha : PairLanesEqual a) (hb : PairLanesEqual b) :
    PairLanesEqual (padd A a b) := congrArg₂ (designAdd A) ha hb

theorem psub_lanesEqual (A : Arith) {a b : Pair} (ha : PairLanesEqual a) (hb : PairLanesEqual b) :
    PairLanesEqual (psub A a b) := congrArg₂ (designSub A) ha hb

theorem pmul_lanesEqual (A : Arith) {a b : Pair} (ha : PairLanesEqual a) (hb : PairLanesEqual b) :
    PairLanesEqual (pmul A a b) := congrArg₂ (designMul A) ha hb

theorem precip_lanesEqual (A : Arith) {a : Pair} (ha : PairLanesEqual a) : PairLanesEqual (precip A a) :=
  congrArg (designDiv A oneBits) ha

theorem pneg_lanesEqual {a : Pair} (ha : PairLanesEqual a) : PairLanesEqual (pneg a) := congrArg laneNeg ha

/-! ### Equal lanes through the design unit -/

/-- Writing a tap with equal lanes keeps the lanes of the kernel equal. -/
theorem kernelLanesEqual_set {K : Kernel} {x : Pair} (n : Fin F) (hK : KernelLanesEqual K)
    (hx : PairLanesEqual x) : KernelLanesEqual (K.set n x) := by
  intro k
  simp only [Fin.getElem_fin, Vector.getElem_set]
  split
  · exact hx
  · exact hK k

theorem identityKernel_lanesEqual : KernelLanesEqual identityKernel := by
  intro k
  rw [identityKernel_at]
  split <;> rfl

/-- In the course of a pass the two channels stand alike: the work array has equal lanes and the two biquads
hold the same state (R70). -/
def ChannelsAgree (acc : Kernel × BiquadState × BiquadState) : Prop :=
  KernelLanesEqual acc.1 ∧ acc.2.1 = acc.2.2

/-- A pass runs the same biquad over the same samples in both channels, whatever the collaborator is. -/
theorem biquadPass_lanesEqual (P : Params) (co : BiquadCoefs) (indices : List (Fin F)) {work : Kernel}
    (h : KernelLanesEqual work) : KernelLanesEqual (biquadPass P co indices work) := by
  refine (foldl_keeps ChannelsAgree _ indices _ ⟨h, rfl⟩ ?turn).1
  rintro ⟨K, st, st'⟩ n - ⟨hK, hst⟩
  obtain rfl : st = st' := hst
  have hout : P.biquadStep co st K[n].l = P.biquadStep co st K[n].r := congrArg _ (hK n)
  exact ⟨kernelLanesEqual_set n hK (congrArg Prod.fst hout), congrArg Prod.snd hout⟩

theorem biquadPasses_lanesEqual (P : Params) (co : BiquadCoefs) (indices : List (Fin F)) (n : Nat) {work : Kernel}
    (h : KernelLanesEqual work) : KernelLanesEqual (biquadPasses P co indices n work) := by
  induction n generalizing work with
  | zero => exact h
  | succ n ih => exact ih (biquadPass_lanesEqual P co indices h)

theorem applyWindow_lanesEqual (P : Params) {work : Kernel} (h : KernelLanesEqual work) :
    KernelLanesEqual (applyWindow P work) :=
  foldl_keeps KernelLanesEqual _ rightHalf work h fun _ n _ hw =>
    kernelLanesEqual_set n hw (pmul_lanesEqual P.arith (hw n) (splat_lanesEqual _))

theorem kernelTotal_lanesEqual (P : Params) {work : Kernel} (h : KernelLanesEqual work) :
    PairLanesEqual (kernelTotal P work) := by
  have hsum : PairLanesEqual (rightSum P work) :=
    foldl_keeps PairLanesEqual _ rightHalf zeroPair rfl fun _ n _ hs => padd_lanesEqual P.arith hs (h n)
  exact psub_lanesEqual P.arith (pmul_lanesEqual P.arith (splat_lanesEqual _) hsum) (h 60)

theorem normalise_lanesEqual (P : Params) {work : Kernel} (h : KernelLanesEqual work) :
    KernelLanesEqual (normalise P work) := by
  have hfactor : PairLanesEqual (precip P.arith (kernelTotal P work)) :=
    precip_lanesEqual P.arith (kernelTotal_lanesEqual P h)
  unfold normalise
  exact foldl_keeps KernelLanesEqual _ rightHalf work h fun _ n _ hw =>
    kernelLanesEqual_set n hw (pmul_lanesEqual P.arith (hw n) hfactor)

theorem mirror_lanesEqual {work : Kernel} (h : KernelLanesEqual work) : KernelLanesEqual (mirror work) := by
  intro k
  rw [mirror_at]
  split
  · exact h _
  · exact h k

/-- The steps of R67 in order keep the lanes equal, beginning with the seed, which is the identity kernel. -/
theorem designLP_lanesEqual (P : Params) (co : BiquadCoefs) : KernelLanesEqual (designLP P co) :=
  have hforward : KernelLanesEqual (forwardPass P co designSeed) :=
    biquadPasses_lanesEqual P co _ _ identityKernel_lanesEqual
  have hreverse : KernelLanesEqual (reversePass P co (forwardPass P co designSeed)) :=
    biquadPasses_lanesEqual P co _ _ hforward
  mirror_lanesEqual (normalise_lanesEqual P (applyWindow_lanesEqual P hreverse))

/-- Settles O33: every step of the design unit does the same in both lanes. -/
theorem designedKernelLanesAreEqual : Obligations.DesignedKernelLanesAreEqual := designLP_lanesEqual

/-! ### Symmetry -/

/-- The centre is its own mirror image, and the image of no other tap. -/
theorem mirrorTap_eq_centre_iff (k : Fin F) : (mirrorTap k).val = 60 ↔ k.val = 60 := by
  have hk : k.val < 121 := k.isLt
  rw [mirrorTap_val]
  omega

/-- Mirroring makes any work array symmetric (R77, R78). -/
theorem mirror_symmetric (work : Kernel) : KernelSymmetric (mirror work) := by
  intro k
  have hk : k.val < 121 := k.isLt
  have hval := mirrorTap_val k
  simp only [mirror_at, mirrorTap_mirrorTap]
  rcases lt_trichotomy k.val 60 with hlt | heq | hgt
  · rw [if_pos hlt, if_neg (by omega)]
  · have hself : mirrorTap k = k := Fin.ext (by omega)
    simp only [hself]
  · rw [if_neg (by omega), if_pos (by omega)]

/-- Writing the centre tap keeps a kernel symmetric. -/
theorem kernelSymmetric_set_centre {K : Kernel} (x : Pair) (hK : KernelSymmetric K) :
    KernelSymmetric (K.set C x) := by
  intro k
  have hcentre := mirrorTap_eq_centre_iff k
  simp only [Fin.getElem_fin, Vector.getElem_set]
  by_cases h : k.val = 60
  · rw [if_pos h.symm, if_pos (hcentre.2 h).symm]
  · rw [if_neg (Ne.symm h), if_neg fun e => h (hcentre.1 e.symm)]
    exact hK k

theorem identityKernel_symmetric : KernelSymmetric identityKernel :=
  kernelSymmetric_set_centre onePair fun k => by simp

theorem designLP_symmetric (P : Params) (co : BiquadCoefs) : KernelSymmetric (designLP P co) :=
  mirror_symmetric _

/-! ### The band assembler keeps the shape -/

theorem identityKernel_shape : KernelShape identityKernel := ⟨identityKernel_symmetric, identityKernel_lanesEqual⟩

theorem lowPass_shape (P : Params) (sr f : F32) : KernelShape (lowPass P sr f) :=
  ⟨designLP_symmetric P _, designLP_lanesEqual P _⟩

/-- A tap-by-tap operation that keeps lanes equal keeps the shape. -/
theorem zipWith_shape {op : Pair → Pair → Pair}
    (hop : ∀ {a b}, PairLanesEqual a → PairLanesEqual b → PairLanesEqual (op a b)) {a b : Kernel}
    (ha : KernelShape a) (hb : KernelShape b) : KernelShape (Vector.zipWith op a b) := by
  have htap (k : Fin F) : (Vector.zipWith op a b)[k] = op a[k] b[k] := Vector.getElem_zipWith _
  refine ⟨fun k => ?_, fun k => ?_⟩
  · rw [htap, htap, ha.1 k, hb.1 k]
  · rw [htap]; exact hop (ha.2 k) (hb.2 k)

theorem map_pneg_shape {K : Kernel} (hK : KernelShape K) : KernelShape (K.map pneg) := by
  have htap (k : Fin F) : (K.map pneg)[k] = pneg K[k] := Vector.getElem_map _ _
  refine ⟨fun k => ?_, fun k => ?_⟩
  · rw [htap, htap, hK.1 k]
  · rw [htap]; exact pneg_lanesEqual (hK.2 k)

theorem kernelSub_shape (P : Params) {a b : Kernel} (ha : KernelShape a) (hb : KernelShape b) :
    KernelShape (kernelSub P a b) := zipWith_shape (psub_lanesEqual P.arith) ha hb

theorem kernelAdd_shape (P : Params) {a b : Kernel} (ha : KernelShape a) (hb : KernelShape b) :
    KernelShape (kernelAdd P a b) := zipWith_shape (padd_lanesEqual P.arith) ha hb

/-- Spectral inversion writes no tap but the centre after the negation (R84). -/
theorem spectralInverse_shape (P : Params) {acc : Kernel} (h : KernelShape acc) :
    KernelShape (spectralInverse P acc) := by
  obtain ⟨hsym, hlanes⟩ := map_pneg_shape h
  exact ⟨kernelSymmetric_set_centre _ hsym,
    kernelLanesEqual_set 60 hlanes (padd_lanesEqual P.arith (hlanes 60) (splat_lanesEqual _))⟩

/-- The interior bands and the final band, by induction on the frequencies; the accumulated response keeps the
shape (R83, R84). -/
theorem assembleFrom_shape (P : Params) (sr : F32) {acc : Kernel} (freqs : List F32) (h : KernelShape acc) :
    ∀ K ∈ assembleFrom P sr acc freqs, KernelShape K := by
  induction freqs generalizing acc with
  | nil =>
    intro K hK
    obtain rfl := List.mem_singleton.1 hK
    exact spectralInverse_shape P h
  | cons f rest ih =>
    have hband : KernelShape (kernelSub P (lowPass P sr f) acc) := kernelSub_shape P (lowPass_shape P sr f) h
    intro K hK
    rcases List.mem_cons.1 hK with rfl | hK
    · exact hband
    · exact ih (kernelAdd_shape P h hband) K hK

/-- Every band kernel is symmetric with equal lanes (R29, R86). -/
theorem assemble_shape (P : Params) (sr : F32) (nb : Nat) (freqs : List F32) :
    ∀ K ∈ assemble P sr nb freqs, KernelShape K := by
  unfold assemble
  cases freqs.take (nb - 1) with
  | nil => exact fun K hK => absurd hK List.not_mem_nil
  | cons f rest =>
    intro K hK
    rcases List.mem_cons.1 hK with rfl | hK
    · exact lowPass_shape P sr f
    · exact assembleFrom_shape P sr rest (lowPass_shape P sr f) K hK

/-- Settles O43, by induction on the frequencies of ASSEMBLE. -/
theorem bandKernelsAreSymmetricWithEqualLanes : Obligations.BandKernelsAreSymmetricWithEqualLanes :=
  assemble_shape

end Sys2Proof.Machine
end

section
/-! What each command does to the engine state and to the invariant of the state: a command checks its operands,
then answers; the invariant passes through respond, fault entry, power-on reset and each of the five engines
(R21 to R25, R35, R107, R121). -/

namespace Sys2Proof.Machine

open Sys2Proof.Config

/-! ### Every command is one checked command -/

/-- The check a command makes of its operands before it runs (R130). -/
def commandCheck (i : Instr) (s : State) : Option Violation :=
  match i with
  | .init mode => initCheck mode
  | .update nb sr f0 f1 f2 f3 => updateCheck nb sr [f0, f1, f2, f3]
  | .process nb _ _ => processCheck nb s
  | .reset => none
  | .latency => none

/-- The data words of a command's response, from the state it leaves (R57). -/
def dataWords (i : Instr) (s : State) : List Word :=
  match i with
  | .process _ _ _ => outWords s
  | .latency => [latencyWord]
  | _ => []

/-- R107 in one equation: the test for the halt, the check, then the command's own state and its response. -/
theorem execWith_eq_checked (P : Params) (i : Instr) (s : State) :
    execWith P i s = .next (checked (commandCheck i) (commandWord i)
      (fun s => respond (dataWords i (ranState P i s)) (ranState P i s)) s) := by
  cases i <;> rfl

theorem commandCheck_code {i : Instr} {s : State} {v : Violation} (h : commandCheck i s = some v) :
    v.code ≠ .none := by
  cases i with
  | init mode => exact initCheck_code h
  | update nb sr f0 f1 f2 f3 => exact updateCheck_code h
  | process nb l r => exact processCheck_code h
  | reset => cases h
  | latency => cases h

/-- INIT of a mode that passes its check is INIT 0 (R111). -/
theorem initCheck_eq_none_iff (mode : Nat) : initCheck mode = none ↔ mode = 0 := by
  unfold initCheck
  split <;> simp [*]

/-- UPDATE of operands that pass its checks has a legal band count (R113). -/
theorem legalBandCount_of_updateCheck {nb : Nat} {sr : F32} {freqs : List F32}
    (h : updateCheck nb sr freqs = none) : 2 ≤ nb ∧ nb ≤ 5 := by
  rw [← legalBandCount_iff]
  by_contra hnb
  rw [Bool.not_eq_true] at hnb
  simp [updateCheck, hnb] at h

/-! ### FSM -/

/-- FSM as a command that runs leaves it (R24). -/
theorem ranState_fsm (P : Params) (i : Instr) (s : State) :
    (ranState P i s).fsm =
      match i with
      | .init _ => .uninit
      | .update _ _ _ _ _ _ => .configured
      | .reset => s.fsm
      | .process _ _ _ => if s.fsm = .uninit then .uninit else .processing
      | .latency => s.fsm := by
  cases i with
  | init mode => simp only [ranState, initEngine_eq]
  | update nb sr f0 f1 f2 f3 => rfl
  | reset => simp only [ranState, clearAll_eq]
  | process nb l r =>
    obtain ⟨d, c, o, hframe⟩ := processEngine_frame P nb ⟨l, r⟩ s
    simp only [ranState, hframe, afterProcess_eq]
  | latency => rfl

/-- Settles O28: a command that completes without a fault has run, and left FSM as R24 says. -/
theorem engineStateTransitions : Obligations.EngineStateTransitions := by
  unfold Obligations.EngineStateTransitions
  intro i s t hs he ht
  rcases exec_running i hs he with ⟨v, hv, rfl⟩ | ⟨data, rfl⟩
  · exact absurd ht hv
  · exact ranState_fsm defaults i s

/-! ### LATENCY and power-on reset -/

/-- Settles O16: LATENCY of a running core only responds. -/
theorem latencyAnswersSixty : Obligations.LatencyAnswersSixty := by
  unfold Obligations.LatencyAnswersSixty
  intro s hs
  refine ⟨respond [latencyWord] s, congrArg Host.Outcome.next (unlessHalted_running hs), ?_, ⟨rfl, rfl⟩, rfl⟩
  exact ⟨rfl, rfl, rfl, rfl, rfl, rfl, rfl, rfl, rfl, rfl⟩

/-- A power-on reset that stands first at the port is applied, whatever state the core is in (R141). -/
theorem step_powerOn {s : State} {rest : List HostEvent} (h : s.input = .powerOn :: rest) :
    step s = .next (powerOnReset rest s) := by
  simp [step, commandStep, waitForHost, h, leadingWords, afterWords, decode]

/-- Settles O11: the step is power-on reset, whose fields are those of the reset state. -/
theorem powerOnResetRestoresTheState : Obligations.PowerOnResetRestoresTheState := by
  unfold Obligations.PowerOnResetRestoresTheState
  intro s rest hin
  refine ⟨powerOnReset rest s, step_powerOn hin, rfl, rfl, rfl, fun b k => ?coef, fun b j => ?line, fun b => ?cursor,
    fun b => ?output, rfl, rfl, rfl, rfl⟩
  case coef => rw [← identityKernel_at k]; simp [powerOnReset, State.reset]
  case line => simp [powerOnReset, State.reset, clearLine]
  case cursor => simp [powerOnReset, State.reset]
  case output => simp [powerOnReset, State.reset]

/-! ### The invariant -/

/-- R21: FAULT_WORD and FAULT_INFO are 0 while FAULT_CODE is. -/
def FaultRegistersClear (s : State) : Prop := s.faultCode = .none → s.faultWord = 0#32 ∧ s.faultInfo = 0#8

/-- An engine with no UPDATE since its creation meets the invariant (R35, R121). -/
theorem engineInv_of_uninit {s : State} (hfsm : s.fsm = .uninit) (hmode : s.mode = 0#4) (hnb : s.cfgNb = 0)
    (hcoef : s.coef = Vector.replicate NSLOT identityKernel) (hfault : FaultRegistersClear s) : EngineInv s := by
  have hslot (b : Fin NSLOT) : s.coef[b] = identityKernel := by rw [hcoef]; exact Vector.getElem_replicate _
  exact {
    legalBands := .inl hnb
    legalMode := hmode
    uninitIff := iff_of_true hfsm hnb
    uninitIdentity := fun _ => hslot
    symmetric := fun b => hslot b ▸ identityKernel_symmetric
    lanesEqual := fun b => hslot b ▸ identityKernel_lanesEqual
    noFault := hfault }

/-- Settles O31: the reset state is an engine with no UPDATE since its creation. -/
theorem resetStateSatisfiesTheInvariant : Obligations.ResetStateSatisfiesTheInvariant :=
  engineInv_of_uninit rfl rfl rfl rfl fun _ => ⟨rfl, rfl⟩

/-- Beside the FAULT_* registers the invariant reads only what `SameButFault` fixes. -/
theorem engineInv_of_sameButFault {s t : State} (hi : EngineInv s) (h : SameButFault s t)
    (hfault : FaultRegistersClear t) : EngineInv t := by
  obtain ⟨hfsm, hmode, hnb, hcoef, -, -, -⟩ := h
  exact {
    legalBands := hnb ▸ hi.legalBands
    legalMode := hmode.trans hi.legalMode
    uninitIff := by rw [hfsm, hnb]; exact hi.uninitIff
    uninitIdentity := by rw [hfsm, hcoef]; exact hi.uninitIdentity
    symmetric := by rw [hcoef]; exact hi.symmetric
    lanesEqual := by rw [hcoef]; exact hi.lanesEqual
    noFault := hfault }

theorem engineInv_setInput {s : State} (es : List HostEvent) (hi : EngineInv s) : EngineInv (s.setInput es) :=
  engineInv_of_sameButFault hi ⟨rfl, rfl, rfl, rfl, rfl, rfl, rfl⟩ hi.noFault

theorem engineInv_respond {s : State} (data : List Word) (hi : EngineInv s) : EngineInv (respond data s) :=
  engineInv_of_sameButFault hi ⟨rfl, rfl, rfl, rfl, rfl, rfl, rfl⟩ hi.noFault

/-- Fault entry records a code other than 0, so it may record a word and a value (R21, R129). -/
theorem engineInv_faultEntry {s : State} {v : Violation} (w : Word) (hv : v.code ≠ .none) (hi : EngineInv s) :
    EngineInv (faultEntry v w s) := by
  obtain ⟨hcode, -, -, hsame, -, -⟩ := faultEntry_taken v w s
  exact engineInv_of_sameButFault hi hsame fun hnone => absurd (hcode.symm.trans hnone) hv

/-- A checked command keeps the invariant where its faults have a code and its run keeps the invariant. -/
theorem engineInv_checked {check : State → Option Violation} {w : Word} {run : State → State} {s : State}
    (hi : EngineInv s) (hcode : ∀ v, check s = some v → v.code ≠ .none)
    (hrun : check s = none → EngineInv (run s)) : EngineInv (checked check w run s) := by
  rcases checked_cases check w run s with ⟨-, e⟩ | ⟨v, -, hv, e⟩ | ⟨-, hnone, e⟩
  · rw [e]; exact engineInv_respond [] hi
  · rw [e]; exact engineInv_faultEntry w (hcode v hv) hi
  · rw [e]; exact hrun hnone

/-! ### The engines keep the invariant -/

theorem engineInv_initEngine {s : State} (hi : EngineInv s) : EngineInv (initEngine 0 s) := by
  rw [initEngine_eq]
  exact engineInv_of_uninit rfl rfl rfl rfl hi.noFault

theorem engineInv_clearAll {s : State} (hi : EngineInv s) : EngineInv (clearAll s) := by
  rw [clearAll_eq]
  exact { hi with }

/-- PROCESS leaves COEF and CFG_NB, and leaves UNINIT where it finds it (R24, R118). -/
theorem engineInv_processEngine (P : Params) (nb : Nat) (x : Pair) {s : State} (hi : EngineInv s) :
    EngineInv (processEngine P nb x s) := by
  have huninit : afterProcess s.fsm = .uninit ↔ s.fsm = .uninit := by
    rw [afterProcess_eq]
    split <;> simp [*]
  obtain ⟨d, c, o, hframe⟩ := processEngine_frame P nb x s
  rw [hframe]
  exact { hi with
    uninitIff := huninit.trans hi.uninitIff
    uninitIdentity := fun h => hi.uninitIdentity (huninit.1 h) }

/-- After UPDATE a slot holds a band kernel, or its own as before (R113, R114). -/
theorem updateEngine_coef_shape (P : Params) (nb : Nat) (sr : F32) (freqs : List F32) {s : State}
    (hi : EngineInv s) (b : Fin NSLOT) : KernelShape (updateEngine P nb sr freqs s).coef[b] := by
  by_cases hb : b.val < (assemble P sr nb freqs).length
  · exact assemble_shape P sr nb freqs _ (List.mem_of_getElem? (updateEngine_coef_loaded P nb sr freqs s b hb))
  · rw [updateEngine_coef_stale P nb sr freqs s b (Nat.le_of_not_lt hb)]
    exact ⟨hi.symmetric b, hi.lanesEqual b⟩

/-- UPDATE of a legal band count leaves UNINIT and loads kernels of the right shape. -/
theorem engineInv_updateEngine (P : Params) {nb : Nat} (sr : F32) (freqs : List F32) {s : State} (h2 : 2 ≤ nb)
    (h5 : nb ≤ 5) (hi : EngineInv s) : EngineInv (updateEngine P nb sr freqs s) := by
  have hshape := updateEngine_coef_shape P nb sr freqs hi
  obtain ⟨c, hframe⟩ := updateEngine_frame P nb sr freqs s
  rw [hframe] at hshape ⊢
  exact {
    legalBands := by show nb = 0 ∨ nb = 2 ∨ nb = 3 ∨ nb = 4 ∨ nb = 5; omega
    legalMode := hi.legalMode
    uninitIff := iff_of_false EngineState.noConfusion (Nat.ne_of_gt (Nat.lt_of_lt_of_le Nat.two_pos h2))
    uninitIdentity := EngineState.noConfusion
    symmetric := fun b => (hshape b).1
    lanesEqual := fun b => (hshape b).2
    noFault := hi.noFault }

/-- A command whose operands pass its check keeps the invariant when it runs. -/
theorem engineInv_ranState (P : Params) {i : Instr} {s : State} (hc : commandCheck i s = none)
    (hi : EngineInv s) : EngineInv (ranState P i s) := by
  cases i with
  | init mode =>
    obtain rfl : mode = 0 := (initCheck_eq_none_iff mode).1 hc
    exact engineInv_initEngine hi
  | update nb sr f0 f1 f2 f3 =>
    obtain ⟨h2, h5⟩ := legalBandCount_of_updateCheck hc
    exact engineInv_updateEngine P sr _ h2 h5 hi
  | reset => exact engineInv_clearAll hi
  | process nb l r => exact engineInv_processEngine P nb ⟨l, r⟩ hi
  | latency => exact hi

/-! ### The steps keep the invariant -/

/-- Every command keeps the invariant: on a halted core, as a fault, or when it runs. -/
theorem engineInv_execWith (P : Params) (i : Instr) {s t : State} (hi : EngineInv s)
    (he : execWith P i s = .next t) : EngineInv t := by
  rw [execWith_eq_checked] at he
  injection he with he
  rw [← he]
  exact engineInv_checked hi (fun _ => commandCheck_code) fun hc =>
    engineInv_respond _ (engineInv_ranState P hc hi)

theorem engineInv_rejectWord (f : DecodeFault) (w : Word) {s : State} (hi : EngineInv s) :
    EngineInv (rejectWord f w s) := by
  refine engineInv_checked hi (fun v hv => ?_) fun hnone => nomatch hnone
  obtain rfl := Option.some.inj hv
  exact decodeViolation_code f

theorem engineInv_powerOnReset (rest : List HostEvent) (s : State) : EngineInv (powerOnReset rest s) :=
  engineInv_of_uninit rfl rfl rfl rfl fun _ => ⟨rfl, rfl⟩

theorem engineInv_waitForHost {s : State} (hi : EngineInv s) : EngineInv (waitForHost s) := by
  unfold waitForHost
  split
  · exact engineInv_powerOnReset _ s
  · exact hi

/-- The invariant survives every step of the core, whatever its parameters are. -/
theorem engineInv_stepWith (P : Params) {s t : State} (hi : EngineInv s) (hstep : stepWith P s = .next t) :
    EngineInv t := by
  unfold stepWith at hstep
  rcases commandStep_cases (execWith P) s with ⟨i, n, -, e⟩ | ⟨f, w, n, -, e⟩ | ⟨-, e⟩
  · exact engineInv_execWith P i (engineInv_setInput _ hi) (e.symm.trans hstep)
  · obtain rfl := Host.Outcome.next.inj (e.symm.trans hstep)
    exact engineInv_rejectWord f w (engineInv_setInput _ hi)
  · obtain rfl := Host.Outcome.next.inj (e.symm.trans hstep)
    exact engineInv_waitForHost hi

/-- Settles O30: the step is that of the core at the default parameters, and each of its three outcomes (a
command, a rejected word, waiting) keeps the invariant. -/
theorem everyStepKeepsTheInvariant : Obligations.EveryStepKeepsTheInvariant := by
  unfold Obligations.EveryStepKeepsTheInvariant
  intro s t hi hstep
  rw [step_eq_stepWith] at hstep
  exact engineInv_stepWith defaults hi hstep

end Sys2Proof.Machine
end

section
/-! Which state a command writes, and what a second performance of it finds: the frames of R41, and the
idempotence and determinism of R42 (R88, R107, R114, R117, R129). -/

namespace Sys2Proof.Machine

open Sys2Proof.Config

/-! ### The frame of each command -/

/-- The persistent state that the table of R41 lets the command change, beside the FAULT_* registers. -/
def OnlyOwnStateWritten (i : Instr) (s t : State) : Prop :=
  match i with
  | .init _ => True
  | .update _ _ _ _ _ _ => t.mode = s.mode ∧ t.dl = s.dl ∧ t.cur = s.cur ∧ t.out = s.out
  | .reset => t.fsm = s.fsm ∧ t.mode = s.mode ∧ t.cfgNb = s.cfgNb ∧ t.coef = s.coef ∧ t.out = s.out
  | .process _ _ _ => t.mode = s.mode ∧ t.cfgNb = s.cfgNb ∧ t.coef = s.coef
  | .latency => SamePersistent s t

/-- A command that runs writes its own state alone (R41). -/
theorem ranState_onlyOwnStateWritten (P : Params) (i : Instr) (s : State) :
    OnlyOwnStateWritten i s (ranState P i s) := by
  cases i with
  | init mode => trivial
  | update nb sr f0 f1 f2 f3 =>
    obtain ⟨c, hframe⟩ := updateEngine_frame P nb sr [f0, f1, f2, f3] s
    simp only [ranState, hframe]
    exact ⟨rfl, rfl, rfl, rfl⟩
  | reset =>
    simp only [ranState, clearAll_eq]
    exact ⟨rfl, rfl, rfl, rfl, rfl⟩
  | process nb l r =>
    obtain ⟨d, c, o, hframe⟩ := processEngine_frame P nb ⟨l, r⟩ s
    simp only [ranState, hframe]
    exact ⟨rfl, rfl, rfl⟩
  | latency => exact ⟨rfl, rfl, rfl, rfl, rfl, rfl, rfl, rfl, rfl, rfl⟩

/-- A response is no persistent state (R16). -/
theorem onlyOwnStateWritten_respond {i : Instr} {s t : State} (data : List Word) (h : OnlyOwnStateWritten i s t) :
    OnlyOwnStateWritten i s (respond data t) := by
  cases i <;> exact h

/-- Settles O29: a running core enters the fault, which halts it, or runs the command, which leaves it running. -/
theorem commandsWriteOnlyTheirOwnState : Obligations.CommandsWriteOnlyTheirOwnState := by
  unfold Obligations.CommandsWriteOnlyTheirOwnState
  intro i s t hs he
  rcases exec_running i hs he with ⟨v, hv, rfl⟩ | ⟨data, rfl⟩
  · obtain ⟨-, -, -, hsame, -, -⟩ := faultEntry_taken v (commandWord i) s
    exact ⟨fun _ => hsame, fun hrun => absurd hrun hv⟩
  · have hfault : SameFault s (ranState defaults i s) := ranState_fault defaults i s
    have hrun : Running (respond data (ranState defaults i s)) := hfault.1.trans hs
    exact ⟨fun hhalt => absurd hrun hhalt, fun _ =>
      ⟨hfault, onlyOwnStateWritten_respond data (ranState_onlyOwnStateWritten defaults i s)⟩⟩

/-! ### UPDATE -/

/-- The state UPDATE leaves, in one equation: band b of ASSEMBLE in slot b, the stale kernels behind the bands
(R113, R114). -/
theorem updateEngine_eq (P : Params) (nb : Nat) (sr : F32) (freqs : List F32) (s : State) :
    updateEngine P nb sr freqs s =
      { s with
        coef := Vector.ofFn fun b => (assemble P sr nb freqs)[b.val]?.getD s.coef[b]
        cfgNb := nb, fsm := .configured } := by
  obtain ⟨loaded, hframe⟩ := updateEngine_frame P nb sr freqs s
  have hslot (b : Fin NSLOT) : loaded[b] = (assemble P sr nb freqs)[b.val]?.getD s.coef[b] := by
    have hcoef : (updateEngine P nb sr freqs s).coef = loaded := by rw [hframe]
    rw [← hcoef]
    by_cases hb : b.val < (assemble P sr nb freqs).length
    · rw [updateEngine_coef_loaded P nb sr freqs s b hb, Option.getD_some]
    · rw [updateEngine_coef_stale P nb sr freqs s b (Nat.le_of_not_lt hb),
        List.getElem?_eq_none (Nat.le_of_not_lt hb), Option.getD_none]
  rw [hframe]
  congr 1
  ext1 b hb
  rw [Vector.getElem_ofFn]
  exact hslot ⟨b, hb⟩

/-- Settles O21: in either core slot b holds band b of the same ASSEMBLE, which reads no state. -/
theorem updateIsAFunctionOfItsOperands : Obligations.UpdateIsAFunctionOfItsOperands := by
  unfold Obligations.UpdateIsAFunctionOfItsOperands
  intro s s' t t' nb sr f0 f1 f2 f3 hs hs' h2 h5 hsr hf he he' b hb
  rw [exec_eq_execWith] at he he'
  obtain rfl := Host.Outcome.next.inj ((execWith_update_legal defaults hs h2 h5 hsr hf).symm.trans he)
  obtain rfl := Host.Outcome.next.inj ((execWith_update_legal defaults hs' h2 h5 hsr hf).symm.trans he')
  have hlen : (assemble defaults sr nb [f0, f1, f2, f3]).length = nb := assemble_length defaults sr h2 h5
  have hloaded (u : State) := updateEngine_coef_loaded defaults nb sr [f0, f1, f2, f3] u b (hlen.symm ▸ hb)
  exact Option.some.inj ((hloaded s).symm.trans (hloaded s'))

/-! ### Performing a command twice -/

/-- A second response in the same words changes nothing. -/
theorem respond_respond (data : List Word) (s : State) : respond data (respond data s) = respond data s := rfl

/-- A checked command is idempotent where its faults have a code, so that they halt the core, and where the state
it leaves passes the check again and is left as it is (R107, R131). -/
theorem checked_idempotent {check : State → Option Violation} {w : Word} {run : State → State} {s : State}
    (hcode : ∀ v, check s = some v → v.code ≠ .none)
    (hrun : Running s → check s = none → Running (run s) ∧ check (run s) = none ∧ run (run s) = run s) :
    checked check w run (checked check w run s) = checked check w run s := by
  rcases checked_cases check w run s with ⟨hhalt, e⟩ | ⟨v, -, hv, e⟩ | ⟨hs, hnone, e⟩
  · have hhalt' : ¬ Running (respond [] s) := hhalt
    rw [e, checked_halted hhalt', respond_respond]
  · have hhalt' : ¬ Running (faultEntry v w s) := hcode v hv
    rw [e, checked_halted hhalt', faultEntry, respond_respond]
  · obtain ⟨hs', hnone', hsame⟩ := hrun hs hnone
    rw [e, checked_run hs' hnone', hsame]

/-- No check but that of PROCESS reads the state (R111, R113, R121). -/
theorem commandCheck_state {i : Instr} (hi : ∀ nb l r, i ≠ .process nb l r) (s t : State) :
    commandCheck i s = commandCheck i t := by
  cases i with
  | process nb l r => exact absurd rfl (hi nb l r)
  | _ => rfl

/-- The data words are read from OUT, which a response leaves (R57). -/
theorem dataWords_respond (i : Instr) (data : List Word) (s : State) :
    dataWords i (respond data s) = dataWords i s := by
  cases i <;> rfl

/-- Whatever the response between them, a second run of a command other than PROCESS finds what it would write:
UPDATE its kernels, RESET cleared histories, INIT the engine just made (R42). -/
theorem ranState_again (P : Params) {i : Instr} (hi : ∀ nb l r, i ≠ .process nb l r) (data : List Word)
    (s : State) : ranState P i (respond data (ranState P i s)) = respond data (ranState P i s) := by
  cases i with
  | init mode => simp only [ranState, initEngine_eq]; rfl
  | update nb sr f0 f1 f2 f3 =>
    have hkernels (o : Option Kernel) (K : Kernel) : o.getD (o.getD K) = o.getD K := by cases o <;> rfl
    simp only [ranState, updateEngine_eq, respond_coef, Fin.getElem_fin, Vector.getElem_ofFn, hkernels]
    rfl
  | reset => simp only [ranState, clearAll_eq]; rfl
  | process nb l r => exact absurd rfl (hi nb l r)
  | latency => rfl

/-- Every command but PROCESS leaves the same state twice in a row as once, for every value of the parameters:
on a halted core, as a fault, or when it runs (R42). -/
theorem execWith_idempotent (P : Params) {i : Instr} (hi : ∀ nb l r, i ≠ .process nb l r) {s t : State}
    (he : execWith P i s = .next t) : execWith P i t = .next t := by
  rw [execWith_eq_checked] at he ⊢
  injection he with he
  rw [← he]
  refine congrArg Host.Outcome.next (checked_idempotent (fun _ => commandCheck_code) fun hs hnone => ⟨?_, ?_, ?_⟩)
  · exact (ranState_fault P i s).1.trans hs
  · rw [← hnone]; exact commandCheck_state hi _ s
  · rw [ranState_again P hi, dataWords_respond, respond_respond]

/-- Settles O17: none of the three commands is PROCESS. -/
theorem resetLatencyUpdateAreIdempotent : Obligations.ResetLatencyUpdateAreIdempotent := by
  unfold Obligations.ResetLatencyUpdateAreIdempotent
  rw [exec_eq_execWith]
  exact ⟨fun _ _ => execWith_idempotent defaults fun _ _ _ => Instr.noConfusion,
    fun _ _ => execWith_idempotent defaults fun _ _ _ => Instr.noConfusion,
    fun _ _ _ _ _ _ _ _ => execWith_idempotent defaults fun _ _ _ => Instr.noConfusion⟩

end Sys2Proof.Machine
end

section
/-! Replay: two filters with equal kernels and equal histories, fed the same inputs, give outputs that differ at
most in which NaN a lane holds, whatever NaNs their operations draw (R42, R94, R97, R116). -/

namespace Sys2Proof.Machine

open Sys2Proof.Config

/-! ### Agreement through the lane operations -/

theorem laneAgrees_refl (a : F32) : LaneAgrees a a := .inl rfl

theorem laneAgrees_nanBits (n n' : NaN32) : LaneAgrees (nanBits n) (nanBits n') :=
  .inr ⟨isNaN_nanBits n, isNaN_nanBits n'⟩

theorem laneAgrees_ite {c : Prop} [Decidable c] {a a' b b' : F32} (ha : LaneAgrees a a') (hb : LaneAgrees b b') :
    LaneAgrees (if c then a else b) (if c then a' else b') := by
  split
  · exact ha
  · exact hb

/-- The operands of a multiplication decide its result but for the NaN it draws (R94). -/
theorem laneMul_agrees (m : SubnormalMode) (n n' : NaN32) (a b : F32) :
    LaneAgrees (laneMul m n a b) (laneMul m n' a b) :=
  laneAgrees_ite (laneAgrees_nanBits n n')
    (laneAgrees_ite (laneAgrees_ite (laneAgrees_nanBits n n') (laneAgrees_refl _)) (laneAgrees_refl _))

/-- A fused multiply-add hands agreement of the accumulators on: a NaN accumulator gives a NaN, and equal
operands decide the result but for the NaN drawn (R93, R94). -/
theorem laneFma_agrees (m : SubnormalMode) (n n' : NaN32) (a b : F32) {c c' : F32} (h : LaneAgrees c c') :
    LaneAgrees (laneFma m n a b c) (laneFma m n' a b c') := by
  rcases h with rfl | ⟨hc, hc'⟩
  · exact laneAgrees_ite (laneAgrees_nanBits n n')
      (laneAgrees_ite (laneAgrees_ite (laneAgrees_nanBits n n') (laneAgrees_refl _))
        (laneAgrees_ite (laneAgrees_refl _) (laneAgrees_refl _)))
  · rw [laneFma_nan m n a b c (.inr (.inr hc)), laneFma_nan m n' a b c' (.inr (.inr hc'))]
    exact laneAgrees_nanBits n n'

theorem streamMul_agrees (P : Params) (d d' : Nat) (a b : Pair) :
    PairAgrees (streamMul P d a b) (streamMul P d' a b) := by
  rw [streamMul_eq, streamMul_eq]
  exact ⟨laneMul_agrees _ _ _ _ _, laneMul_agrees _ _ _ _ _⟩

theorem streamFma_agrees (P : Params) (d d' : Nat) (a b : Pair) {c c' : Pair} (h : PairAgrees c c') :
    PairAgrees (streamFma P d a b c) (streamFma P d' a b c') := by
  rw [streamFma_eq, streamFma_eq]
  exact ⟨laneFma_agrees _ _ _ _ _ h.1, laneFma_agrees _ _ _ _ _ h.2⟩

/-- The draw index a convolution begins at decides only which NaN its output is (R97, log entry 1). -/
theorem convolve_agrees (P : Params) (d d' : Nat) (K : Kernel) (hist : DelayLine) (p : Fin L) (x : Pair) :
    PairAgrees (convolve P d K hist p x) (convolve P d' K hist p x) := by
  unfold convolve
  exact List.foldl_rel (streamMul_agrees P d d' _ x) fun k _ acc acc' h => streamFma_agrees P _ _ _ _ h

/-! ### PROCESS, command by command -/

/-- PROCESS of band count nb raises no fault in the state: the core runs, and the kernels are fresh (R118, R121). -/
structure ProcessReady (nb : Nat) (s : State) : Prop where
  running : Running s
  fresh : s.fsm = .uninit ∨ nb ≤ s.cfgNb

/-- The state after a PROCESS that raises no fault, its response included (R118). -/
def processed (P : Params) (nb : Nat) (x : Pair) (s : State) : State :=
  respond (outWords (processEngine P nb x s)) (processEngine P nb x s)

theorem processAll_cons {nb : Nat} {s : State} (x : Pair) (xs : List Pair) (h2 : 2 ≤ nb) (h5 : nb ≤ 5)
    (h : ProcessReady nb s) : processAll nb (x :: xs) s = processAll nb xs (processed defaults nb x s) := by
  have he : exec (.process nb x.l x.r) s = .next (processed defaults nb x s) := by
    rw [exec_eq_execWith]; exact execWith_process_fresh defaults x.l x.r h.running h2 h5 h.fresh
  rw [processAll, he]

/-- PROCESS leaves the core ready for the next one: it keeps CFG_NB, and UNINIT where it finds it (R24). -/
theorem processReady_processed (P : Params) {nb : Nat} (x : Pair) {s : State} (h : ProcessReady nb s) :
    ProcessReady nb (processed P nb x s) := by
  obtain ⟨d, c, o, hframe⟩ := processEngine_frame P nb x s
  rw [processed, hframe]
  refine ⟨h.running, h.fresh.imp_left fun huninit => ?_⟩
  exact congrArg afterProcess huninit

/-! ### Two filters side by side -/

/-- The filter of slot b is the same in both states: its kernel, its delay line and its cursor (R97). -/
structure SameFilter (b : Fin NSLOT) (s s' : State) : Prop where
  kernel : s.coef[b] = s'.coef[b]
  line : s.dl[b] = s'.dl[b]
  cursor : s.cur[b] = s'.cur[b]

/-- PROCESS keeps the filter of an active slot the same in both states, and its outputs agree (R118). -/
theorem processed_sameFilter (P : Params) {nb : Nat} (x : Pair) {s s' : State} {b : Fin NSLOT} (hb : b.val < nb)
    (h : SameFilter b s s') :
    SameFilter b (processed P nb x s) (processed P nb x s') ∧
      PairAgrees (processed P nb x s).out[b] (processed P nb x s').out[b] := by
  have hcoef (u : State) : (processed P nb x u).coef = u.coef := by
    obtain ⟨d, c, o, hframe⟩ := processEngine_frame P nb x u
    rw [processed, hframe]; rfl
  have hslot (u : State) :
      (processed P nb x u).dl[b] = u.dl[b].set u.cur[b] x ∧ (processed P nb x u).cur[b] = nextCursor u.cur[b] ∧
        (processed P nb x u).out[b] =
          convolve P (u.draws + drawsPerStep * b.val) u.coef[b] u.dl[b] u.cur[b] x := stepSlots_at P nb x u b hb
  obtain ⟨hdl, hcur, hout⟩ := hslot s
  obtain ⟨hdl', hcur', hout'⟩ := hslot s'
  refine ⟨⟨?_, ?_, ?_⟩, ?_⟩
  · rw [hcoef, hcoef]; exact h.kernel
  · simp only [hdl, hdl', h.line, h.cursor]
  · rw [hcur, hcur', h.cursor]
  · rw [hout, hout', h.kernel, h.line, h.cursor]
    exact convolve_agrees P _ _ _ _ _ x

/-- A stream of PROCESS commands keeps the outputs of equal filters in agreement, by induction on the inputs. -/
theorem processAll_agrees {nb : Nat} {b : Fin NSLOT} (h2 : 2 ≤ nb) (h5 : nb ≤ 5) (hb : b.val < nb)
    (xs : List Pair) {s s' : State} (hs : ProcessReady nb s) (hs' : ProcessReady nb s') (h : SameFilter b s s')
    (hout : PairAgrees s.out[b] s'.out[b]) :
    PairAgrees (processAll nb xs s).out[b] (processAll nb xs s').out[b] := by
  induction xs generalizing s s' with
  | nil => exact hout
  | cons x xs ih =>
    obtain ⟨hfilter, hagree⟩ := processed_sameFilter defaults x hb h
    rw [processAll_cons x xs h2 h5 hs, processAll_cons x xs h2 h5 hs']
    exact ih (processReady_processed defaults x hs) (processReady_processed defaults x hs') hfilter hagree

/-! ### RESET -/

theorem exec_reset_running {s : State} (h : Running s) : exec .reset s = .next (respond [] (clearAll s)) :=
  congrArg Host.Outcome.next (unlessHalted_running h)

/-- RESET leaves FSM, CFG_NB and the FAULT_* registers, which PROCESS checks (R117, R121). -/
theorem processReady_reset {nb : Nat} {s : State} (data : List Word) (h : ProcessReady nb s) :
    ProcessReady nb (respond data (clearAll s)) := by
  rw [clearAll_eq]
  exact ⟨h.running, h.fresh⟩

/-- After RESET the kernel alone tells two filters apart (R116). -/
theorem sameFilter_reset {b : Fin NSLOT} {s s' : State} (data data' : List Word) (h : s.coef[b] = s'.coef[b]) :
    SameFilter b (respond data (clearAll s)) (respond data' (clearAll s')) := by
  rw [clearAll_eq, clearAll_eq]
  exact ⟨h, rfl, rfl⟩

/-- Settles O27: RESET makes the two filters the same; the first PROCESS makes their outputs agree, and the rest
of the stream keeps them so. -/
theorem replayAfterResetGivesTheSameOutput : Obligations.ReplayAfterResetGivesTheSameOutput := by
  unfold Obligations.ReplayAfterResetGivesTheSameOutput
  intro s s' t t' nb xs b hs hs' h2 h5 hfresh hfresh' hcoef hb hxs he he'
  obtain ⟨x, xs, rfl⟩ := List.exists_cons_of_ne_nil hxs
  obtain rfl := Host.Outcome.next.inj ((exec_reset_running hs).symm.trans he)
  obtain rfl := Host.Outcome.next.inj ((exec_reset_running hs').symm.trans he')
  have hready := processReady_reset [] ⟨hs, hfresh⟩
  have hready' := processReady_reset [] ⟨hs', hfresh'⟩
  obtain ⟨hfilter, hagree⟩ := processed_sameFilter defaults x hb (sameFilter_reset [] [] hcoef)
  rw [processAll_cons x xs h2 h5 hready, processAll_cons x xs h2 h5 hready']
  exact processAll_agrees h2 h5 hb xs (processReady_processed defaults x hready)
    (processReady_processed defaults x hready') hfilter hagree

end Sys2Proof.Machine
end

section
/-! The encoding in both directions: what the decode procedure accepts (R60), which words decode to a command
(R53, R55), the rows of the opcode table, and the bytes of a word (R59). -/

namespace Sys2Proof

/-! ### The decode procedure -/

/-- The reserved opcodes (R54, step 1 of R60). -/
theorem opcodeOf_eq_none_iff (n : Nat) : opcodeOf n = none ↔ n = 0 ∨ 6 ≤ n := by
  match n with
  | 0 | 1 | 2 | 3 | 4 | 5 => simp [opcodeOf]
  | n + 6 => simp [opcodeOf]

/-- Step 2 of R60: the reserved bits are 0, and so is each field that the command does not use. -/
theorem unusedBitsClear_iff (o : Opcode) (w : Word) :
    unusedBitsClear o w = true ↔ bits w 31 11 = 0 ∧ (usesMode o = true ∨ bits w 7 4 = 0) ∧
      (usesNb o = true ∨ bits w 10 8 = 0) := by
  simp only [unusedBitsClear, Bool.and_eq_true, Bool.or_eq_true, beq_iff_eq, and_assoc]

theorem usesMode_iff (o : Opcode) : usesMode o = true ↔ opcodeNumber o = 1 := by
  cases o <;> decide

theorem usesNb_iff (o : Opcode) : usesNb o = true ↔ opcodeNumber o = 2 ∨ opcodeNumber o = 4 := by
  cases o <;> decide

/-- What the decode procedure accepts, told by the number in OP (R60). -/
theorem decodeOpcode_ok_iff_fields (w : Word) (o : Opcode) :
    decodeOpcode w = .ok o ↔ bits w 3 0 = opcodeNumber o ∧ bits w 31 11 = 0 ∧
      (bits w 3 0 = 1 ∨ bits w 7 4 = 0) ∧ (bits w 3 0 = 2 ∨ bits w 3 0 = 4 ∨ bits w 10 8 = 0) := by
  rw [decodeOpcode_ok_iff, opcodeOf_eq_some_iff, unusedBitsClear_iff, usesMode_iff, usesNb_iff, or_assoc]
  exact and_congr_right fun hop => by rw [hop]

/-- Step 1 of R60. -/
theorem decodeOpcode_reservedOpcode {w : Word} (h : bits w 3 0 = 0 ∨ 6 ≤ bits w 3 0) :
    decodeOpcode w = .error (.illegalOpcode (bits w 3 0)) := by
  unfold decodeOpcode
  rw [(opcodeOf_eq_none_iff _).2 h]

/-- A word with an opcode of R54 that does not decode to it has failed step 2 of R60. -/
theorem decodeOpcode_reservedBits {w : Word} {o : Opcode} (hop : bits w 3 0 = opcodeNumber o)
    (h : decodeOpcode w ≠ .ok o) : decodeOpcode w = .error .reservedBits := by
  unfold decodeOpcode at h ⊢
  rw [(opcodeOf_eq_some_iff _ o).2 hop] at h ⊢
  exact if_neg fun hclear => h (if_pos hclear)

/-- A field that an accepted word's command does not use is 0 (R53, R60). -/
theorem unusedFields_eq_zero {w : Word} {o : Opcode} (h : decodeOpcode w = .ok o) :
    (usesMode o = false → bits w 7 4 = 0) ∧ (usesNb o = false → bits w 10 8 = 0) := by
  obtain ⟨-, hclear⟩ := (decodeOpcode_ok_iff w o).1 h
  obtain ⟨-, hmode, hnb⟩ := (unusedBitsClear_iff o w).1 hclear
  exact ⟨fun hu => hmode.resolve_left (Bool.eq_false_iff.1 hu), fun hu => hnb.resolve_left (Bool.eq_false_iff.1 hu)⟩

/-! ### The words of a command -/

/-- A command is well formed when its two fields fit their places (R53). -/
theorem wellFormed_iff_fields (i : Instr) : WellFormed i ↔ i.modeField < 16 ∧ i.nbField < 8 := by
  refine ⟨fun h => ⟨modeField_lt h, nbField_lt h⟩, fun ⟨hmode, hnb⟩ => ?_⟩
  cases i with
  | init mode => exact decide_eq_true hmode
  | update nb sr f0 f1 f2 f3 => exact decide_eq_true hnb
  | reset => rfl
  | process nb l r => exact decide_eq_true hnb
  | latency => rfl

/-- A word with the four fields of a command is that command's word (R53, R65). -/
theorem eq_commandWord {w : Word} {i : Instr} (hop : bits w 3 0 = opcodeNumber i.opcode)
    (hmode : bits w 7 4 = i.modeField) (hnb : bits w 10 8 = i.nbField) (hreserved : bits w 31 11 = 0) :
    w = commandWord i := by
  apply BitVec.eq_of_toNat_eq
  have hw := word_eq_fields w
  rw [commandWord_eq_fields, ← hop, ← hmode, ← hnb, BitVec.toNat_ofNat, Nat.mod_eq_of_lt (by have := w.isLt; omega)]
  omega

/-- The decoder reads the command's opcode, its operands and the fields it uses from the words, and R60 makes
the fields it does not use 0. -/
theorem decode_command_inv {ws : List Word} {i : Instr} {n : Nat} (h : decode ws = .command i n) :
    n = (encode i).length ∧ ∃ w rest, ws = w :: operandWords i ++ rest ∧ decodeOpcode w = .ok i.opcode ∧
      bits w 7 4 = i.modeField ∧ bits w 10 8 = i.nbField := by
  cases ws with
  | nil => cases h
  | cons w rest =>
    cases hop : decodeOpcode w with
    | error f => simp only [decode, hop] at h; split at h <;> cases h
    | ok o =>
      obtain ⟨hmode, hnb⟩ := unusedFields_eq_zero hop
      simp only [decode, hop] at h
      split at h
      · cases h
      · cases o with
        | init => cases h; exact ⟨rfl, w, rest, rfl, hop, rfl, hnb rfl⟩
        | update =>
          dsimp only at h
          split at h <;> cases h
          exact ⟨rfl, w, _, rfl, hop, hmode rfl, rfl⟩
        | reset => cases h; exact ⟨rfl, w, rest, rfl, hop, hmode rfl, hnb rfl⟩
        | process =>
          dsimp only at h
          split at h <;> cases h
          exact ⟨rfl, w, _, rfl, hop, hmode rfl, rfl⟩
        | latency => cases h; exact ⟨rfl, w, rest, rfl, hop, hmode rfl, hnb rfl⟩

/-- The round trip in both directions: the decoder reads a command exactly where the words of that command, which
is well formed, stand in front. -/
theorem decode_eq_command_iff (ws : List Word) (i : Instr) (n : Nat) :
    decode ws = .command i n ↔ WellFormed i ∧ n = (encode i).length ∧ ∃ rest, ws = encode i ++ rest := by
  constructor
  · intro h
    obtain ⟨hn, w, rest, rfl, hop, hmode, hnb⟩ := decode_command_inv h
    obtain ⟨hnum, hreserved, -, -⟩ := (decodeOpcode_ok_iff_fields w _).1 hop
    obtain rfl := eq_commandWord hnum hmode hnb hreserved
    exact ⟨(wellFormed_iff_fields i).2 ⟨hmode ▸ bits_mode_lt _, hnb ▸ bits_nb_lt _⟩, hn, rest, rfl⟩
  · rintro ⟨hwf, rfl, rest, rfl⟩
    exact decode_encode_append rest hwf

/-- Settles O1: a word list that begins with a command's words. -/
theorem decodeOfEncodeIsTheCommand : Obligations.DecodeOfEncodeIsTheCommand :=
  fun _ rest hwf => decode_encode_append rest hwf

/-- Settles O2: the words are those of the command and a rest. -/
theorem encodeOfDecodeIsTheWords : Obligations.EncodeOfDecodeIsTheWords := by
  unfold Obligations.EncodeOfDecodeIsTheWords
  intro ws i n h
  obtain ⟨hwf, rfl, rest, rfl⟩ := (decode_eq_command_iff ws i n).1 h
  exact ⟨hwf, rfl, List.take_left⟩

/-- Settles O4, by running the decoder on the words. -/
theorem writtenWordsDecode : Obligations.WrittenWordsDecode := by
  unfold Obligations.WrittenWordsDecode
  decide

/-! ### The opcode table -/

/-- Two words are equal when their four fields are (R53). -/
theorem word_ext_fields (w v : Word) :
    w = v ↔ bits w 3 0 = bits v 3 0 ∧ bits w 7 4 = bits v 7 4 ∧ bits w 10 8 = bits v 10 8 ∧
      bits w 31 11 = bits v 31 11 := by
  constructor
  · rintro rfl; exact ⟨rfl, rfl, rfl, rfl⟩
  · rintro ⟨hop, hmode, hnb, hreserved⟩
    apply BitVec.eq_of_toNat_eq
    rw [word_eq_fields w, word_eq_fields v, hop, hmode, hnb, hreserved]

/-- A mask acts on each field by itself. -/
theorem bits_and (w m : Word) (hi lo : Nat) : bits (w &&& m) hi lo = bits w hi lo &&& bits m hi lo := by
  unfold bits
  rw [BitVec.toNat_and, Nat.and_div_two_pow, Nat.and_mod_two_pow]

/-- A mask with every bit of a field set leaves the field. -/
theorem bits_and_full (w : Word) (hi lo : Nat) {m : Nat} (hm : m + 1 = 2 ^ (hi - lo + 1)) :
    bits w hi lo &&& m = bits w hi lo := by
  obtain rfl : m = 2 ^ (hi - lo + 1) - 1 := by omega
  unfold bits
  rw [Nat.and_two_pow_sub_one_eq_mod, Nat.mod_mod]

/-- A mask that leaves out a used field asks of the others that they be 0 (R60). -/
theorem bits_and_ite_eq_zero_iff (w : Word) (hi lo : Nat) {m : Nat} (hm : m + 1 = 2 ^ (hi - lo + 1)) (used : Bool) :
    bits w hi lo &&& (if used then 0 else m) = 0 ↔ used = true ∨ bits w hi lo = 0 := by
  cases used
  · simp only [Bool.false_eq_true, if_false, false_or, bits_and_full w hi lo hm]
  · simp

/-- A row's mask leaves out the fields its command uses, and its pattern is its opcode in OP (R60). -/
theorem opcodeTable_fields : ∀ row ∈ opcodeTable,
    (bits row.mask 3 0 = 0xF ∧ bits row.mask 7 4 = (if usesMode row.opcode then 0 else 0xF) ∧
      bits row.mask 10 8 = (if usesNb row.opcode then 0 else 0x7) ∧ bits row.mask 31 11 = 0x1FFFFF) ∧
    bits row.pattern 3 0 = opcodeNumber row.opcode ∧ bits row.pattern 7 4 = 0 ∧ bits row.pattern 10 8 = 0 ∧
      bits row.pattern 31 11 = 0 := by
  decide

/-- The match against a row is the decode procedure for the row's opcode (R60). -/
theorem matchesWord_iff_decodeOpcode {row : OpcodeRow} (h : row ∈ opcodeTable) (w : Word) :
    row.matchesWord w = true ↔ decodeOpcode w = .ok row.opcode := by
  obtain ⟨⟨hmop, hmmode, hmnb, hmres⟩, hpop, hpmode, hpnb, hpres⟩ := opcodeTable_fields row h
  rw [decodeOpcode_ok_iff, opcodeOf_eq_some_iff, unusedBitsClear_iff, OpcodeRow.matchesWord, beq_iff_eq,
    word_ext_fields, bits_and, bits_and, bits_and, bits_and, hmop, hmmode, hmnb, hmres, hpop, hpmode, hpnb, hpres,
    bits_and_full w 3 0 (by decide), bits_and_ite_eq_zero_iff w 7 4 (by decide),
    bits_and_ite_eq_zero_iff w 10 8 (by decide), bits_and_full w 31 11 (by decide)]
  exact and_congr_right fun _ => and_rotate.symm

/-- Every opcode has a row (R54). -/
theorem exists_row (o : Opcode) : ∃ row ∈ opcodeTable, row.opcode = o := by
  cases o <;> decide

theorem row_eq_of_opcode_eq : ∀ r ∈ opcodeTable, ∀ r' ∈ opcodeTable, r.opcode = r'.opcode → r = r' := by
  decide

/-- Settles O3: the tests of R60 one by one; a row matches exactly the words that decode to its opcode, and no
opcode has two rows. -/
theorem decodeProcedureInOrder : Obligations.DecodeProcedureInOrder := by
  unfold Obligations.DecodeProcedureInOrder
  intro w
  refine ⟨fun hop => ⟨decodeOpcode_reservedOpcode hop, rfl⟩, fun hop hbits => ⟨?reserved, rfl⟩,
    fun o ho hreserved hmode hnb => ?accepted, fun o => ⟨fun ho => ?row, ?opcode⟩, fun r hr r' hr' hw hw' => ?unique⟩
  case reserved =>
    have hsome : opcodeOf (bits w 3 0) ≠ none := by rw [ne_eq, opcodeOf_eq_none_iff]; omega
    obtain ⟨o, ho⟩ := Option.ne_none_iff_exists'.1 hsome
    rw [opcodeOf_eq_some_iff] at ho
    refine decodeOpcode_reservedBits ho fun hok => ?_
    obtain ⟨-, hclear⟩ := (decodeOpcode_ok_iff_fields w o).1 hok
    omega
  case accepted =>
    exact (decodeOpcode_ok_iff_fields w o).2 ⟨(opcodeOf_eq_some_iff _ o).1 ho, hreserved, hmode, hnb⟩
  case row =>
    obtain ⟨row, hrow, rfl⟩ := exists_row o
    exact ⟨row, hrow, rfl, (matchesWord_iff_decodeOpcode hrow w).2 ho⟩
  case opcode =>
    rintro ⟨row, hrow, rfl, hw⟩
    exact (matchesWord_iff_decodeOpcode hrow w).1 hw
  case unique =>
    have heq := ((matchesWord_iff_decodeOpcode hr w).1 hw).symm.trans ((matchesWord_iff_decodeOpcode hr' w).1 hw')
    exact row_eq_of_opcode_eq r hr r' hr' (Except.ok.inj heq)

/-! ### The bytes of a word -/

/-- A byte of a word, as a number (R59). -/
theorem extractByte_eq (w : Word) (start : Nat) :
    w.extractLsb' start 8 = BitVec.ofNat 8 (w.toNat / 2 ^ start) := by
  rw [← Nat.shiftRight_eq_div_pow]; rfl

/-- The four bytes of a word, the most significant first, are the word. -/
theorem append_bytes (w : Word) :
    w.extractLsb' 24 8 ++ w.extractLsb' 16 8 ++ w.extractLsb' 8 8 ++ w.extractLsb' 0 8 = w := by
  have := w.isLt
  apply BitVec.eq_of_toNat_eq
  simp only [append_toNat, extractByte_eq, BitVec.toNat_ofNat]
  omega

/-- Four bytes of a word in front are read as that word (R59). -/
theorem bytesToWords_wordToBytes_append (w : Word) (bs : List Byte) :
    bytesToWords (wordToBytes w ++ bs) = w :: bytesToWords bs :=
  congrArg (· :: bytesToWords bs) (append_bytes w)

theorem bytesToWords_wordsToBytes (ws : List Word) : bytesToWords (wordsToBytes ws) = ws := by
  induction ws with
  | nil => rfl
  | cons w ws ih =>
    calc bytesToWords (wordsToBytes (w :: ws))
        = bytesToWords (wordToBytes w ++ wordsToBytes ws) := rfl
      _ = w :: bytesToWords (wordsToBytes ws) := bytesToWords_wordToBytes_append w _
      _ = w :: ws := by rw [ih]

/-- Settles O5: each byte by its place, the bundle by induction on its words. -/
theorem bytesCarryTheWords : Obligations.BytesCarryTheWords := by
  unfold Obligations.BytesCarryTheWords
  refine ⟨fun w j hj => ?_, bytesToWords_wordsToBytes⟩
  simp only [wordToBytes, extractByte_eq]
  interval_cases j <;> rfl

end Sys2Proof
end

section
/-! What the core shows of its state: the fields of STATUS (R58), the response of a command (R57), and the fault of
a word that encodes none (R60, R129). -/

namespace Sys2Proof.Machine

/-! ### STATUS -/

/-- The fields of STATUS are those put into it: as a number it is a sum in which they do not overlap (R58). -/
theorem bits_statusWord {s : State} (h : s.cfgNb < 8) :
    bits (statusWord s) 1 0 = (engineStateBits s.fsm).toNat ∧
      bits (statusWord s) 2 2 = (if s.faultCode = .none then 0 else 1) ∧ bits (statusWord s) 3 3 = 0 ∧
      bits (statusWord s) 7 4 = (faultCodeBits s.faultCode).toNat ∧
      bits (statusWord s) 15 8 = s.faultInfo.toNat ∧ bits (statusWord s) 18 16 = s.cfgNb ∧
      bits (statusWord s) 31 19 = 0 := by
  have hfsm := (engineStateBits s.fsm).isLt
  have hcode := (faultCodeBits s.faultCode).isLt
  have hinfo := s.faultInfo.isLt
  unfold bits
  rw [statusWord_toNat s h]
  split <;> omega

/-- Settles O6: the fields of STATUS, with the numbers of FSM and FAULT_CODE written out (R58, R128). -/
theorem statusWordFields : Obligations.StatusWordFields := by
  unfold Obligations.StatusWordFields
  intro s h
  obtain ⟨hfsm, hfaulted, hzero, hcode, hinfo, hnb, hreserved⟩ := bits_statusWord h
  refine ⟨hfsm.trans ?fsm, ?faulted, hzero, hcode.trans ?code, hinfo, hnb, hreserved⟩
  case fsm => cases s.fsm <;> rfl
  case faulted => rw [hfaulted]; split <;> simp [*]
  case code => cases s.faultCode <;> rfl

/-! ### Responses -/

/-- A command answers by `respond`, and with data words only on a core that it leaves running (R57). -/
theorem exec_responds {i : Instr} {s t : State} (h : exec i s = .next t) :
    ∃ data u, t = respond data u ∧ (¬ Running u → data = []) := by
  by_cases hs : Running s
  · rcases exec_running i hs h with ⟨v, -, rfl⟩ | ⟨data, rfl⟩
    · exact ⟨[], _, rfl, fun _ => rfl⟩
    · have hran : Running (ranState defaults i s) := (ranState_fault defaults i s).1.trans hs
      exact ⟨data, _, rfl, fun hhalted => absurd hran hhalted⟩
  · obtain rfl := Host.Outcome.next.inj ((exec_halted i hs).symm.trans h)
    exact ⟨[], s, rfl, fun _ => rfl⟩

/-- Settles O13: every response is one of `respond`. -/
theorem responseReflectsTheStateAfter : Obligations.ResponseReflectsTheStateAfter := by
  unfold Obligations.ResponseReflectsTheStateAfter
  intro i s t h
  obtain ⟨data, u, rfl, hdata⟩ := exec_responds h
  refine ⟨rfl, fun hhalted => ?_⟩
  obtain rfl := hdata hhalted
  rfl

/-! ### A word that encodes no command -/

/-- A bundle whose command word encodes no command is rejected, whatever words follow it (R60, log entry 5). -/
theorem decode_rejected {w : Word} {f : DecodeFault} {operands : List Word} (rest : List Word)
    (h : decodeOpcode w = .error f) (hlen : operands.length = operandCount w) :
    decode (w :: operands ++ rest) = .rejected f w (1 + operandCount w) := by
  have hcomplete : ¬ (operands ++ rest).length < operandCount w := by rw [List.length_append]; omega
  simp only [List.cons_append, decode, if_neg hcomplete, h]

/-- A running core enters the fault of a word that encodes no command (R60, R129). -/
theorem rejectWord_running {f : DecodeFault} {w : Word} {s : State} (h : Running s) :
    rejectWord f w s = faultEntry (decodeViolation f) w s := checked_fault h rfl

/-- However a core performs its commands, a bundle at the port that encodes none is rejected on the state from
which its words are taken (R60, R107). -/
theorem commandStep_rejected (perform : Instr → State → Host.Outcome State Fault Refusal) {s : State} {w : Word}
    {operands : List Word} {rest : List HostEvent} {f : DecodeFault} (h : decodeOpcode w = .error f)
    (hlen : operands.length = operandCount w) (hin : s.input = (w :: operands).map .word ++ rest) :
    commandStep perform s = .next (rejectWord f w { s with input := rest }) := by
  have hdecode : decode (leadingWords s.input) = .rejected f w (1 + operandCount w) := by
    rw [hin, leadingWords_append, decode_rejected _ h hlen]
  have hdrop : s.input.drop (1 + operandCount w) = rest := by
    rw [hin]
    exact List.drop_left' (by rw [List.length_map, List.length_cons, hlen, Nat.add_comm])
  simp only [commandStep, hdecode, hdrop]
  rfl

/-- Settles O8: the step rejects the bundle, which on a running core is fault entry. -/
theorem stepFaultsOnAnUndecodableWord : Obligations.StepFaultsOnAnUndecodableWord := by
  unfold Obligations.StepFaultsOnAnUndecodableWord
  intro s w operands rest f hs hop hlen hin
  refine ⟨_, commandStep_rejected exec hop hlen hin, ?_⟩
  rw [rejectWord_running (s := { s with input := rest }) hs]
  exact faultEntry_taken _ _ _

end Sys2Proof.Machine
end

section
/-! The steps of DESIGN_LP one by one: what each does to every tap of the working array (R67, R71 to R78). -/

namespace Sys2Proof.Machine

open Sys2Proof.Config

/-! ### Writing one tap -/

theorem kernel_set_at (K : Kernel) (n : Fin F) (x : Pair) : (K.set n x)[n] = x := by simp

theorem kernel_set_other (K : Kernel) {n k : Fin F} (x : Pair) (h : k ≠ n) : (K.set n x)[k] = K[k] := by
  have hval : n.val ≠ k.val := fun e => h (Fin.ext e.symm)
  simp [hval]

/-! ### The biquad passes -/

/-- A pass in its course: the working array and the biquad state of each lane (R70). -/
abbrev PassState := Kernel × BiquadState × BiquadState

/-- One turn of a pass: the sample at n runs through the biquad of its lane (R72, R73). -/
def passTurn (P : Params) (co : BiquadCoefs) (acc : PassState) (n : Fin F) : PassState :=
  let left := P.biquadStep co acc.2.1 acc.1[n].l
  let right := P.biquadStep co acc.2.2 acc.1[n].r
  (acc.1.set n ⟨left.1, right.1⟩, left.2, right.2)

theorem biquadPass_eq (P : Params) (co : BiquadCoefs) (indices : List (Fin F)) (work : Kernel) :
    biquadPass P co indices work = (indices.foldl (passTurn P co) (work, biquadReset, biquadReset)).1 := rfl

/-- A pass leaves the entries whose index it does not visit. -/
theorem foldl_passTurn_other (P : Params) (co : BiquadCoefs) (indices : List (Fin F)) (acc : PassState) {k : Fin F}
    (h : k ∉ indices) : (indices.foldl (passTurn P co) acc).1[k] = acc.1[k] := by
  refine foldl_keeps (fun acc' : PassState => acc'.1[k] = acc.1[k]) _ indices acc rfl fun acc' n hn hacc => ?_
  have hne : k ≠ n := fun e => h (e ▸ hn)
  exact (kernel_set_other _ _ hne).trans hacc

theorem biquadPasses_other (P : Params) (co : BiquadCoefs) (indices : List (Fin F)) (n : Nat) (work : Kernel)
    {k : Fin F} (h : k ∉ indices) : (biquadPasses P co indices n work)[k] = work[k] := by
  induction n generalizing work with
  | zero => rfl
  | succ n ih => exact (ih _).trans (foldl_passTurn_other P co indices _ h)

theorem le_of_mem_reverseRange {k : Fin F} (h : k ∈ reverseRange) : 59 ≤ k.val := by
  rw [reverseRange, List.mem_reverse, List.mem_drop_iff_getElem] at h
  obtain ⟨i, -, rfl⟩ := h
  simp

/-- Settles O35: a pass writes the entries it visits, and these lie at C and above, or at C − 1 and above. -/
theorem passesLeaveTheLeftEntries : Obligations.PassesLeaveTheLeftEntries := by
  unfold Obligations.PassesLeaveTheLeftEntries
  refine fun P co work k => ⟨fun hk => ?forward, fun hk => ?reverse⟩
  case forward => exact biquadPasses_other P co _ _ work fun h => absurd ((mem_rightHalf k).1 h) (by omega)
  case reverse => exact biquadPasses_other P co _ _ work fun h => absurd (le_of_mem_reverseRange h) (by omega)

/-! ### Two passes as one pass of two cascaded sections -/

/-- A pass of two cascaded sections in its course: the working array and both biquad states of each lane (R72). -/
abbrev CascadeState := Kernel × (BiquadState × BiquadState) × (BiquadState × BiquadState)

/-- One turn of `cascadePass`: the sample at n runs through both sections of its lane in turn (R72). -/
def cascadeTurn (P : Params) (co : BiquadCoefs) (acc : CascadeState) (n : Fin F) : CascadeState :=
  let l1 := P.biquadStep co acc.2.1.1 acc.1[n].l
  let l2 := P.biquadStep co acc.2.1.2 l1.1
  let r1 := P.biquadStep co acc.2.2.1 acc.1[n].r
  let r2 := P.biquadStep co acc.2.2.2 r1.1
  (acc.1.set n ⟨l2.1, r2.1⟩, (l1.2, l2.2), (r1.2, r2.2))

theorem cascadePass_eq (P : Params) (co : BiquadCoefs) (indices : List (Fin F)) (work : Kernel) :
    cascadePass P co indices work =
      (indices.foldl (cascadeTurn P co) (work, (biquadReset, biquadReset), (biquadReset, biquadReset))).1 := rfl

/-- A turn at one index and the writing of another entry may change places. -/
theorem passTurn_set (P : Params) (co : BiquadCoefs) (acc : PassState) {n k : Fin F} (x : Pair) (h : n ≠ k) :
    passTurn P co (acc.1.set k x, acc.2) n = ((passTurn P co acc n).1.set k x, (passTurn P co acc n).2) := by
  have hval : k.val ≠ n.val := fun e => h (Fin.ext e.symm)
  unfold passTurn
  simp only [kernel_set_other _ _ h]
  rw [Vector.set_comm _ _ hval]

/-- So may a whole pass and the writing of an entry it does not visit. -/
theorem foldl_passTurn_set (P : Params) (co : BiquadCoefs) (indices : List (Fin F)) (acc : PassState) {k : Fin F}
    (x : Pair) (h : k ∉ indices) :
    (indices.foldl (passTurn P co) (acc.1.set k x, acc.2)).1 = (indices.foldl (passTurn P co) acc).1.set k x := by
  induction indices generalizing acc with
  | nil => rfl
  | cons n indices ih =>
    obtain ⟨hn, hrest⟩ := not_or.1 (List.mem_cons.not.1 h)
    rw [List.foldl_cons, List.foldl_cons, passTurn_set P co acc x (Ne.symm hn)]
    exact ih _ hrest

/-- A turn at an index that a pass does not visit may be taken before the pass: it reads and writes what the pass
leaves alone. -/
theorem passTurn_after_pass (P : Params) (co : BiquadCoefs) {indices : List (Fin F)} {n : Fin F} (h : n ∉ indices)
    (acc : PassState) (st : BiquadState × BiquadState) :
    passTurn P co ((indices.foldl (passTurn P co) acc).1, st) n =
      ((indices.foldl (passTurn P co) ((passTurn P co (acc.1, st) n).1, acc.2)).1,
        (passTurn P co (acc.1, st) n).2) := by
  have hread : (indices.foldl (passTurn P co) acc).1[n] = acc.1[n] := foldl_passTurn_other P co indices acc h
  have hwrite (x : Pair) := foldl_passTurn_set P co indices acc x h
  simp only [passTurn, hread, hwrite]

/-- A turn of the cascade is a turn of the first section and then one of the second at the same index (R72). -/
theorem cascadeTurn_eq (P : Params) (co : BiquadCoefs) {work : Kernel} {l1 l2 r1 r2 : BiquadState} {n : Fin F}
    {first second : PassState} (h1 : passTurn P co (work, l1, r1) n = first)
    (h2 : passTurn P co (first.1, l2, r2) n = second) :
    cascadeTurn P co (work, (l1, l2), (r1, r2)) n =
      (second.1, (first.2.1, second.2.1), (first.2.2, second.2.2)) := by
  subst h1 h2
  simp only [cascadeTurn, passTurn, kernel_set_at, Vector.set_set]

/-- Two passes over distinct indices, from any biquad states, by induction on the indices: the second pass's turn at
the first index may be taken right after the first pass's turn there, which makes the two a turn of the cascade. -/
theorem foldl_passTurn_twice (P : Params) (co : BiquadCoefs) (indices : List (Fin F)) (hn : indices.Nodup)
    (work : Kernel) (l1 l2 r1 r2 : BiquadState) :
    (indices.foldl (passTurn P co) ((indices.foldl (passTurn P co) (work, l1, r1)).1, l2, r2)).1 =
      (indices.foldl (cascadeTurn P co) (work, (l1, l2), (r1, r2))).1 := by
  induction indices generalizing work l1 l2 r1 r2 with
  | nil => rfl
  | cons n indices ih =>
    obtain ⟨hnot, hrest⟩ := List.nodup_cons.1 hn
    rw [List.foldl_cons, List.foldl_cons, List.foldl_cons, passTurn_after_pass P co hnot,
      cascadeTurn_eq P co rfl rfl]
    exact ih hrest _ _ _ _ _

/-- Settles O34: both biquads of each lane start from BQ_RESET. -/
theorem twoPassesAreTwoCascadedSections : Obligations.TwoPassesAreTwoCascadedSections := by
  unfold Obligations.TwoPassesAreTwoCascadedSections
  intro P co indices work hn
  exact foldl_passTurn_twice P co indices hn work _ _ _ _

/-! ### Window and normalisation -/

/-- The window weights each tap of the right half and leaves the others (R74). -/
theorem applyWindow_at (P : Params) (work : Kernel) (k : Fin F) :
    (applyWindow P work)[k] =
      if 60 ≤ k.val then pmul P.arith work[k] (splat (windowAt P (k.val - 60))) else work[k] := by
  rw [applyWindow, foldl_set_at (f := fun n x => pmul P.arith x (splat (windowAt P (n.val - C)))) rightHalf
    rightHalf_nodup]
  simp only [mem_rightHalf]

/-- Normalisation scales each tap of the right half and leaves the others (R76). -/
theorem normalise_at (P : Params) (work : Kernel) (k : Fin F) :
    (normalise P work)[k] =
      if 60 ≤ k.val then pmul P.arith work[k] (precip P.arith (kernelTotal P work)) else work[k] := by
  rw [normalise, foldl_set_at (f := fun _ x => pmul P.arith x (precip P.arith (kernelTotal P work))) rightHalf
    rightHalf_nodup]
  simp only [mem_rightHalf]

theorem windowAt_eq (P : Params) (i : Fin 61) : windowAt P i.val = P.win[i] := by simp [windowAt]

/-- Settles O36: entry i of the table weights tap C + i. -/
theorem windowWeightsTheRightHalf : Obligations.WindowWeightsTheRightHalf := by
  unfold Obligations.WindowWeightsTheRightHalf
  refine fun P work k => ⟨fun i hi => ?_, fun hk => ?_⟩
  · have hentry : k.val - 60 = i.val := by omega
    rw [applyWindow_at, if_pos (by omega), hentry, windowAt_eq]
  · rw [applyWindow_at, if_neg (by omega)]

/-- Settles O37: the factor is the rounded reciprocal of the total. -/
theorem normalisationScalesTheRightHalf : Obligations.NormalisationScalesTheRightHalf := by
  unfold Obligations.NormalisationScalesTheRightHalf
  refine fun P work k => ⟨fun hk => ?_, fun hk => ?_⟩
  · rw [normalise_at, if_pos hk]; rfl
  · rw [normalise_at, if_neg (by omega)]

/-! ### What the kernel depends on -/

/-- Two working arrays have the same right half, the entries C to F − 1. -/
def SameRightHalf (work work' : Kernel) : Prop := ∀ k : Fin F, 60 ≤ k.val → work[k] = work'[k]

theorem applyWindow_sameRightHalf (P : Params) {work work' : Kernel} (h : SameRightHalf work work') :
    SameRightHalf (applyWindow P work) (applyWindow P work') := by
  intro k hk
  rw [applyWindow_at, applyWindow_at, if_pos hk, if_pos hk, h k hk]

theorem rightSum_congr (P : Params) {work work' : Kernel} (h : SameRightHalf work work') :
    rightSum P work = rightSum P work' :=
  List.foldl_ext _ _ _ fun s k hk => congrArg (padd P.arith s) (h k ((mem_rightHalf k).1 hk))

theorem kernelTotal_congr (P : Params) {work work' : Kernel} (h : SameRightHalf work work') :
    kernelTotal P work = kernelTotal P work' := by
  have hcentre : work[C] = work'[C] := h 60 (le_refl 60)
  rw [kernelTotal, kernelTotal, rightSum_congr P h, hcentre]

theorem normalise_sameRightHalf (P : Params) {work work' : Kernel} (h : SameRightHalf work work') :
    SameRightHalf (normalise P work) (normalise P work') := by
  intro k hk
  rw [normalise_at, normalise_at, if_pos hk, if_pos hk, h k hk, kernelTotal_congr P h]

/-- Mirroring reads the right half alone (R77). -/
theorem mirror_congr {work work' : Kernel} (h : SameRightHalf work work') : mirror work = mirror work' := by
  have htap (k : Fin F) : (mirror work)[k] = (mirror work')[k] := by
    rw [mirror_at, mirror_at]
    split
    · exact h _ (by rw [mirrorTap_val]; omega)
    · exact h k (by omega)
  exact Vector.ext fun i hi => htap ⟨i, hi⟩

/-- Settles O38: each of the three steps carries equality of the right halves on. -/
theorem kernelDependsOnTheRightHalfAlone : Obligations.KernelDependsOnTheRightHalfAlone := by
  unfold Obligations.KernelDependsOnTheRightHalfAlone
  exact fun P work work' h => mirror_congr (normalise_sameRightHalf P (applyWindow_sameRightHalf P h))

/-! ### Symmetry -/

/-- Settles O32: mirroring is the last step, and makes any working array symmetric. -/
theorem designedKernelIsSymmetric : Obligations.DesignedKernelIsSymmetric := designLP_symmetric

end Sys2Proof.Machine
end

section
/-! A designed kernel sums to 1 (R9, R76, R79): how far the computed total lies from the sum of the taps it stands
for, how far each scaled tap lies from the tap divided by the total, and what the 121 taps then sum to. The error
bounds count units of 2^−24, the relative error of one rounding; TOL_SUM is more than 167 of them. -/

namespace Sys2Proof.Machine

open Sys2Proof.Config

/-! ### Finite results -/

theorem isFinite_iff_not_nan_inf (a : F32) : isFinite a = true ↔ isNaN a = false ∧ isInf a = false := by
  simp only [isFinite, isNaN, isInf, bne_iff_ne, Bool.and_eq_false_iff, beq_eq_false_iff_ne, bne_eq_false_iff_eq]
  constructor
  · exact fun h => ⟨.inl h, .inl h⟩
  · rintro ⟨h | h, h' | h'⟩
    · exact h
    · exact h
    · exact h'
    · exact absurd h h'

theorem not_isFinite_nanBits (n : NaN32) : ¬ isFinite (nanBits n) = true := by
  rw [isFinite_iff_not_nan_inf, isNaN_nanBits]; simp

theorem not_isFinite_signedInf (neg : Bool) : ¬ isFinite (signedInf neg) = true := by
  cases neg <;> decide

/-- A sum that is finite has finite operands (R94). -/
theorem isFinite_of_laneAdd (n : NaN32) {a b : F32} (h : isFinite (laneAdd .ieee n a b) = true) :
    isFinite a = true ∧ isFinite b = true := by
  simp only [laneAdd, flushSubnormal_ieee] at h
  split_ifs at h with hnan ha hopposite hb
  · exact absurd h (not_isFinite_nanBits n)
  · exact absurd h (not_isFinite_nanBits n)
  · rw [isFinite_iff_not_nan_inf, ha] at h; simp at h
  · rw [isFinite_iff_not_nan_inf, hb] at h; simp at h
  · simp only [Bool.or_eq_true, not_or, Bool.not_eq_true] at hnan ha hb
    exact ⟨(isFinite_iff_not_nan_inf a).2 ⟨hnan.1, ha⟩, (isFinite_iff_not_nan_inf b).2 ⟨hnan.2, hb⟩⟩

/-- A difference that is finite has finite operands (R94). -/
theorem isFinite_of_laneSub (n : NaN32) {a b : F32} (h : isFinite (laneSub .ieee n a b) = true) :
    isFinite a = true ∧ isFinite b = true := by
  obtain ⟨ha, hb⟩ := isFinite_of_laneAdd n h
  exact ⟨ha, by rwa [isFinite_laneNeg] at hb⟩

/-- A product that is finite has finite operands (R94). -/
theorem isFinite_of_laneMul (n : NaN32) {a b : F32} (h : isFinite (laneMul .ieee n a b) = true) :
    isFinite a = true ∧ isFinite b = true := by
  simp only [laneMul, flushSubnormal_ieee] at h
  split_ifs at h with hnan hinf hzero
  · exact absurd h (not_isFinite_nanBits n)
  · exact absurd h (not_isFinite_nanBits n)
  · exact absurd h (not_isFinite_signedInf _)
  · simp only [Bool.or_eq_true, not_or, Bool.not_eq_true] at hnan hinf
    exact ⟨(isFinite_iff_not_nan_inf a).2 ⟨hnan.1, hinf.1⟩, (isFinite_iff_not_nan_inf b).2 ⟨hnan.2, hinf.2⟩⟩

/-- An exact result of magnitude at most 2^126 is far from overflow (R92). -/
theorem isFinite_fl_of_abs_le (n : Int) (k : Nat) (z : Bool) (hn : n.natAbs < 2 ^ 2 ^ 12)
    (h : |(n : ℚ) / 2 ^ (149 + k)| ≤ 2 ^ 126) : isFinite (fl .ieee n k z) = true := by
  rw [isFinite_fl, roundMag_finite_iff _ _ hn]
  have hpos : (0 : ℚ) < 2 ^ (149 + k) := by positivity
  rw [abs_div, abs_of_pos hpos, div_le_iff₀ hpos, ← pow_add, ← Int.cast_abs, Int.abs_eq_natAbs] at h
  have hnat : n.natAbs ≤ 2 ^ (126 + (149 + k)) := by exact_mod_cast h
  calc n.natAbs ≤ 2 ^ (126 + (149 + k)) := hnat
    _ = 2 ^ 23 * 2 ^ (252 + k) := by rw [← pow_add]; congr 1; omega
    _ < (2 ^ 25 - 1) * 2 ^ (252 + k) := Nat.mul_lt_mul_of_pos_right (by norm_num) (by positivity)

theorem laneVal_mul_natAbs_lt {a b : F32} (ha : isFinite a = true) (hb : isFinite b = true) :
    (laneVal a * laneVal b).natAbs < 2 ^ 2 ^ 12 := by
  refine two_pow_lt_bound (a := 277 + 277) (by norm_num) ?_
  rw [Int.natAbs_mul, pow_add]
  exact Nat.mul_lt_mul'' (laneVal_lt a ha) (laneVal_lt b hb)

theorem isFinite_laneMul_of_abs_le (n : NaN32) {a b : F32} (ha : isFinite a = true) (hb : isFinite b = true)
    (h : |laneReal a * laneReal b| ≤ 2 ^ 126) : isFinite (laneMul .ieee n a b) = true := by
  have hexact : ((laneVal a * laneVal b : Int) : ℚ) / 2 ^ (149 + 149) = laneReal a * laneReal b := by
    unfold laneReal; rw [pow_add]; push_cast; field_simp
  rw [laneMul_finite n ha hb]
  exact isFinite_fl_of_abs_le _ _ _ (laneVal_mul_natAbs_lt ha hb) (by rwa [hexact])

theorem isFinite_laneDiv_of_abs_le (n : NaN32) {a b : F32} (ha : isFinite a = true) (hb : isFinite b = true)
    (h0 : isZero b = false) (h : |laneReal a / laneReal b| ≤ 2 ^ 125) : isFinite (laneDiv .ieee n a b) = true := by
  have hb0 : 0 < laneMag b := by
    rw [Nat.pos_iff_ne_zero, Ne, ← isZero_iff_laneMag, h0]; simp
  have hquotient := signedQuotient_error a b hb0
  have hlt := two_pow_lt_bound (a := 430) (by norm_num) (quotientMag_lt a b ha)
  rw [laneDiv_finite n ha hb h0]
  refine isFinite_fl_of_abs_le _ _ _ ?_ ?_
  · split_ifs
    · rwa [Int.natAbs_neg, Int.natAbs_natCast]
    · rwa [Int.natAbs_natCast]
  · have hnear := (abs_sub_abs_le_abs_sub _ _).trans hquotient
    have hroom : (2 ^ 125 + 1 / 2 ^ 152 : ℚ) ≤ 2 ^ 126 := by norm_num
    exact (sub_le_iff_le_add.1 hnear).trans ((add_comm _ _).trans_le ((add_le_add_left h _).trans hroom))

/-! ### The real numbers of the constants -/

theorem laneReal_one : laneReal oneBits = 1 := by rw [laneReal, laneVal_one]; norm_num

theorem laneReal_zero : laneReal zeroBits = 0 := by
  rw [laneReal, (laneVal_eq_zero_iff zeroBits).2 (by decide)]; norm_num

theorem laneReal_two : laneReal twoBits = 2 := by
  have hval : laneVal twoBits = 2 ^ 150 := by decide +kernel
  rw [laneReal, hval]; norm_num

theorem isZero_of_laneReal_pos {a : F32} (h : 0 < laneReal a) : isZero a = false := by
  rw [Bool.eq_false_iff, Ne, ← laneVal_eq_zero_iff]
  exact ((laneReal_pos_iff a).1 h).ne'

/-! ### The roundings of R76, in rational numbers -/

/-- One more rounding, of relative error u, at the front of a running sum whose other roundings make up a relative
error of g − 1. -/
theorem running_error_step {u g s x y rest mags result : ℚ} (hu : 0 ≤ u) (hg : 1 ≤ g) (hmags : 0 ≤ mags)
    (hround : |y - (s + x)| ≤ u * |s + x|) (hrest : |result - (y + rest)| ≤ (g - 1) * (|y| + mags)) :
    |result - (s + (x + rest))| ≤ (g * (1 + u) - 1) * (|s| + (|x| + mags)) := by
  have hsx : u * |s + x| ≤ u * (|s| + |x|) := mul_le_mul_of_nonneg_left (abs_add_le s x) hu
  have hy : |y| + mags ≤ (1 + u) * (|s| + |x|) + mags := by
    linarith [abs_sub_abs_le_abs_sub y (s + x), abs_add_le s x]
  have hrest' := hrest.trans (mul_le_mul_of_nonneg_left hy (sub_nonneg.2 hg))
  have hslack : 0 ≤ g * u * mags := by positivity
  calc |result - (s + (x + rest))|
      = |(result - (y + rest)) + (y - (s + x))| := by congr 1; ring
    _ ≤ |result - (y + rest)| + |y - (s + x)| := abs_add_le _ _
    _ ≤ (g * (1 + u) - 1) * (|s| + (|x| + mags)) := by linarith

/-- Sums of terms that lie close to each other lie as close as all the bounds together. -/
theorem abs_sum_sub_sum_le {α : Type} (l : List α) {f g e : α → ℚ} (h : ∀ x ∈ l, |f x - g x| ≤ e x) :
    |(l.map f).sum - (l.map g).sum| ≤ (l.map e).sum := by
  induction l with
  | nil => simp
  | cons x l ih =>
    have hx := h x List.mem_cons_self
    have hl := ih fun y hy => h y (List.mem_cons_of_mem x hy)
    simp only [List.map_cons, List.sum_cons]
    calc |f x + (l.map f).sum - (g x + (l.map g).sum)|
        = |(f x - g x) + ((l.map f).sum - (l.map g).sum)| := by congr 1; ring
      _ ≤ |f x - g x| + |(l.map f).sum - (l.map g).sum| := abs_add_le _ _
      _ ≤ e x + (l.map e).sum := add_le_add hx hl

/-- The roundings of the total: the running sum, its doubling and the subtraction of the centre (R76). -/
theorem total_rounding {sum right doubled centre total mags ε : ℚ} (hsum : |sum| ≤ mags) (hcentre : |centre| ≤ mags)
    (hε : 0 ≤ ε) (hright : |right - sum| ≤ 62 / 2 ^ 24 * mags)
    (hdouble : |doubled - 2 * right| ≤ max (|2 * right| / 2 ^ 24) ε)
    (htotal : |total - (doubled - centre)| ≤ |doubled - centre| / 2 ^ 24) :
    |total - (2 * sum - centre)| ≤ 136 / 2 ^ 24 * mags + 2 * ε := by
  have hmags : 0 ≤ mags := (abs_nonneg sum).trans hsum
  have hright' : |2 * right| ≤ 3 * mags := by
    rw [abs_mul, abs_two]
    linarith [abs_sub_abs_le_abs_sub right sum]
  have hdouble' : |doubled - 2 * right| ≤ 3 / 2 ^ 24 * mags + ε :=
    hdouble.trans (max_le (by linarith) (by linarith))
  have hdifference : |doubled - centre| ≤ 5 * mags + ε := by
    linarith [abs_sub doubled centre, abs_sub_abs_le_abs_sub doubled (2 * right)]
  calc |total - (2 * sum - centre)|
      = |(total - (doubled - centre)) + (doubled - 2 * right) + 2 * (right - sum)| := by congr 1; ring
    _ ≤ |total - (doubled - centre)| + |doubled - 2 * right| + |2 * (right - sum)| := abs_add_three _ _ _
    _ = |total - (doubled - centre)| + |doubled - 2 * right| + 2 * |right - sum| := by rw [abs_mul, abs_two]
    _ ≤ 136 / 2 ^ 24 * mags + 2 * ε := by linarith

/-- A factor near i moves a multiple of it little. -/
theorem factor_rounding {i factor : ℚ} (x : ℚ) (hfactor : |factor - i| ≤ 2 / 2 ^ 24 * i) :
    |x * factor - x * i| ≤ 2 / 2 ^ 24 * (|x| * i) := by
  rw [← mul_sub, abs_mul]
  linarith [mul_le_mul_of_nonneg_left hfactor (abs_nonneg x)]

theorem abs_mul_factor_le {i factor : ℚ} (x : ℚ) (hi : 0 ≤ i) (hfactor : |factor - i| ≤ 2 / 2 ^ 24 * i) :
    |x * factor| ≤ 2 * (|x| * i) := by
  have hix : 0 ≤ |x| * i := mul_nonneg (abs_nonneg x) hi
  have habs : |x * i| = |x| * i := by rw [abs_mul, abs_of_nonneg hi]
  linarith [factor_rounding x hfactor, abs_sub_abs_le_abs_sub (x * factor) (x * i)]

theorem one_div_le_of_one_div_le {t : ℚ} (h : 1 / 2 ^ 100 ≤ t) : 1 / t ≤ 2 ^ 100 :=
  (one_div_le_one_div_of_le (by positivity) h).trans_eq (one_div_one_div _)

/-- The roundings of a scaled tap: the factor near i, and the product (R76). -/
theorem scaled_rounding {x i factor scaled ε : ℚ} (hi : 0 ≤ i) (hε : 0 ≤ ε)
    (hfactor : |factor - i| ≤ 2 / 2 ^ 24 * i) (hscaled : |scaled - x * factor| ≤ max (|x * factor| / 2 ^ 24) ε) :
    |scaled - x * i| ≤ 4 / 2 ^ 24 * i * |x| + ε := by
  have hix : 0 ≤ |x| * i := mul_nonneg (abs_nonneg x) hi
  have hproduct := abs_mul_factor_le x hi hfactor
  have hscaled' : |scaled - x * factor| ≤ 2 / 2 ^ 24 * (|x| * i) + ε :=
    hscaled.trans (max_le (by linarith) (by linarith))
  calc |scaled - x * i| ≤ |scaled - x * factor| + |x * factor - x * i| := abs_sub_le _ _ _
    _ ≤ 4 / 2 ^ 24 * i * |x| + ε := by linarith [factor_rounding x hfactor]

/-- The scaled taps of a symmetric kernel sum to 1 where the total is near their sum: the centre is counted once,
every other tap of the right half twice (R76, R79). -/
theorem normalised_rounding {sum centre total i mags sum' centre' : ℚ} (hi : 0 ≤ i) (hti : total * i = 1)
    (hismall : i ≤ 2 ^ 100) (hmags : mags ≤ total) (hcentre : |centre| ≤ mags)
    (htotal : |total - (2 * sum - centre)| ≤ 136 / 2 ^ 24 * mags + 2 / 2 ^ 150)
    (hsum' : |sum' - sum * i| ≤ 4 / 2 ^ 24 * i * mags + 61 * (1 / 2 ^ 150))
    (hcentre' : |centre' - centre * i| ≤ 4 / 2 ^ 24 * i * |centre| + 1 / 2 ^ 150) :
    |2 * sum' - centre' - 1| ≤ tolSum := by
  have hmagsi : mags * i ≤ 1 := (mul_le_mul_of_nonneg_right hmags hi).trans_eq hti
  have hcentrei : |centre| * i ≤ 1 := (mul_le_mul_of_nonneg_right hcentre hi).trans hmagsi
  have htotali : |i * (2 * sum - centre - total)| ≤ 136 / 2 ^ 24 + 2 / 2 ^ 50 := by
    rw [abs_mul, abs_of_nonneg hi, abs_sub_comm]
    linarith [mul_le_mul_of_nonneg_left htotal hi]
  calc |2 * sum' - centre' - 1|
      = |2 * (sum' - sum * i) - (centre' - centre * i) + i * (2 * sum - centre - total)| := by
        congr 1; linear_combination hti
    _ ≤ |2 * (sum' - sum * i)| + |centre' - centre * i| + |i * (2 * sum - centre - total)| :=
        (abs_add_le _ _).trans (add_le_add_left (abs_sub _ _) _)
    _ ≤ tolSum := by rw [abs_mul, abs_two, tolSum]; linarith

/-! ### The right half in one lane -/

/-- The sum of the magnitudes of the values. -/
def laneAbsSum (half : List F32) : ℚ := (half.map fun x => |laneReal x|).sum

theorem laneAbsSum_cons (x : F32) (half : List F32) : laneAbsSum (x :: half) = |laneReal x| + laneAbsSum half := rfl

theorem laneAbsSum_nonneg (half : List F32) : 0 ≤ laneAbsSum half := List.sum_nonneg (by simp)

theorem abs_le_laneAbsSum {half : List F32} {x : F32} (hx : x ∈ half) : |laneReal x| ≤ laneAbsSum half :=
  List.single_le_sum (by simp) _ (List.mem_map_of_mem hx)

theorem abs_sum_le_laneAbsSum (half : List F32) : |(half.map laneReal).sum| ≤ laneAbsSum half := by
  have h := abs_sum_sub_sum_le half (f := laneReal) (g := fun _ => 0) (e := fun x => |laneReal x|) (by simp)
  simpa [laneAbsSum] using h

/-- The total of R76 in one lane, from the taps of the right half and the centre tap. -/
def laneTotal (A : Arith) (half : List F32) (centre : F32) : F32 :=
  designSub A (designMul A twoBits (half.foldl (designAdd A) zeroBits)) centre

/-- A tap after normalisation in one lane (R76). -/
def scaledTap (A : Arith) (total x : F32) : F32 := designMul A x (designDiv A oneBits total)

/-- The right half of a well-conditioned working array, in one lane: its taps and its total are finite, and the
total is far from underflow and overflow and no less than the magnitudes of the taps together (R79). -/
structure LaneConditioned (A : Arith) (half : List F32) (centre : F32) : Prop where
  length : half.length = 61
  finite : ∀ x ∈ half, isFinite x = true
  centre_mem : centre ∈ half
  total_finite : isFinite (laneTotal A half centre) = true
  total_ge : 1 / 2 ^ 100 ≤ laneReal (laneTotal A half centre)
  total_le : laneReal (laneTotal A half centre) ≤ 2 ^ 100
  abs_le_total : laneAbsSum half ≤ laneReal (laneTotal A half centre)

/-! ### The operations of the design under gradual underflow -/

section Ieee

variable {A : Arith} (hA : A.subnormal = .ieee)
include hA

theorem designAdd_ieee (a b : F32) : designAdd A a b = laneAdd .ieee (A.nan .add a b) a b := by
  rw [designAdd_eq, hA]

theorem designSub_ieee (a b : F32) : designSub A a b = laneSub .ieee (A.nan .sub a b) a b := by
  rw [designSub_eq, hA]

theorem designMul_ieee (a b : F32) : designMul A a b = laneMul .ieee (A.nan .mul a b) a b := by
  rw [designMul_eq, hA]

theorem designDiv_ieee (a b : F32) : designDiv A a b = laneDiv .ieee (A.nan .div a b) a b := by
  rw [designDiv_eq, hA]

/-! ### The total -/

/-- A running sum whose last value is finite began with a finite value, and lies from the exact sum within the
relative error of as many roundings as it has terms. -/
theorem foldl_designAdd_error (xs : List F32) (s : F32) (hxs : ∀ x ∈ xs, isFinite x = true)
    (hf : isFinite (xs.foldl (designAdd A) s) = true) :
    isFinite s = true ∧
      |laneReal (xs.foldl (designAdd A) s) - (laneReal s + (xs.map laneReal).sum)| ≤
        ((1 + 1 / 2 ^ 24) ^ xs.length - 1) * (|laneReal s| + laneAbsSum xs) := by
  induction xs generalizing s with
  | nil => exact ⟨hf, by simp⟩
  | cons x xs ih =>
    obtain ⟨hstep, herror⟩ := ih (designAdd A s x) (fun y hy => hxs y (List.mem_cons_of_mem _ hy)) hf
    have hx := hxs x List.mem_cons_self
    rw [designAdd_ieee hA] at hstep
    have hs := (isFinite_of_laneAdd _ hstep).1
    refine ⟨hs, ?_⟩
    have hround := laneAdd_error _ hs hx hstep
    rw [← designAdd_ieee hA, div_eq_inv_mul, ← one_div] at hround
    rw [List.foldl_cons, List.map_cons, List.sum_cons, laneAbsSum_cons, List.length_cons, pow_succ]
    have hgrown : (1 : ℚ) ≤ (1 + 1 / 2 ^ 24) ^ xs.length := one_le_pow₀ (by norm_num)
    have hunit : (0 : ℚ) ≤ 1 / 2 ^ 24 := by norm_num
    exact running_error_step hunit hgrown (laneAbsSum_nonneg xs) hround herror

/-- A finite total lies near the sum it stands for, the taps of the right half twice and the centre once. -/
theorem laneTotal_error {half : List F32} {centre : F32} (hlen : half.length = 61)
    (hhalf : ∀ x ∈ half, isFinite x = true) (hc : centre ∈ half) (hf : isFinite (laneTotal A half centre) = true) :
    |laneReal (laneTotal A half centre) - (2 * (half.map laneReal).sum - laneReal centre)| ≤
      136 / 2 ^ 24 * laneAbsSum half + 2 / 2 ^ 150 := by
  unfold laneTotal at hf ⊢
  rw [designSub_ieee hA] at hf
  obtain ⟨hdoubled, -⟩ := isFinite_of_laneSub _ hf
  have htotal := laneSub_error _ hdoubled (hhalf centre hc) hf
  rw [designMul_ieee hA] at hdoubled
  obtain ⟨htwo, hright⟩ := isFinite_of_laneMul _ hdoubled
  have hdouble := laneMul_error _ htwo hright hdoubled
  have hrunning := (foldl_designAdd_error hA half zeroBits hhalf hright).2
  rw [← designSub_ieee hA] at htotal
  rw [← designMul_ieee hA, laneReal_two] at hdouble
  rw [hlen, laneReal_zero, zero_add, abs_zero, zero_add] at hrunning
  have hgrown : ((1 + 1 / 2 ^ 24 : ℚ) ^ 61 - 1) ≤ 62 / 2 ^ 24 := by norm_num
  have hright' := hrunning.trans (mul_le_mul_of_nonneg_right hgrown (laneAbsSum_nonneg half))
  have h := total_rounding (abs_sum_le_laneAbsSum half) (abs_le_laneAbsSum hc) (by positivity) hright' hdouble htotal
  rwa [mul_one_div] at h

/-- A total far from underflow and overflow has a finite reciprocal, within twice the error of one rounding. -/
theorem reciprocal_error {total : F32} (hf : isFinite total = true) (hlow : 1 / 2 ^ 100 ≤ laneReal total)
    (hhigh : laneReal total ≤ 2 ^ 100) :
    isFinite (designDiv A oneBits total) = true ∧
      |laneReal (designDiv A oneBits total) - 1 / laneReal total| ≤ 2 / 2 ^ 24 * (1 / laneReal total) := by
  have hpos : 0 < laneReal total := lt_of_lt_of_le (by positivity) hlow
  have hmax := one_div_le_of_one_div_le hlow
  have hmin : 1 / 2 ^ 100 ≤ 1 / laneReal total := one_div_le_one_div_of_le hpos hhigh
  have habs : |laneReal oneBits / laneReal total| = 1 / laneReal total := by
    rw [laneReal_one, abs_of_pos (by positivity)]
  have hzero := isZero_of_laneReal_pos hpos
  rw [designDiv_ieee hA]
  have hfinite : isFinite (laneDiv .ieee (A.nan .div oneBits total) oneBits total) = true :=
    isFinite_laneDiv_of_abs_le _ isFinite_one hf hzero (by rw [habs]; linarith)
  have herror := laneDiv_error _ isFinite_one hf hzero hfinite
  rw [habs, laneReal_one] at herror
  refine ⟨hfinite, herror.trans ?_⟩
  have hmargin : max (1 / laneReal total / 2 ^ 24) (1 / 2 ^ 150) = 1 / laneReal total / 2 ^ 24 :=
    max_eq_left (by linarith)
  rw [hmargin]
  linarith

/-- A tap scaled by the reciprocal of a total that it does not exceed lies near the exact quotient. -/
theorem scaledTap_error {x total : F32} (hx : isFinite x = true) (hf : isFinite total = true)
    (hlow : 1 / 2 ^ 100 ≤ laneReal total) (hhigh : laneReal total ≤ 2 ^ 100) (hle : |laneReal x| ≤ laneReal total) :
    |laneReal (scaledTap A total x) - laneReal x * (1 / laneReal total)| ≤
      4 / 2 ^ 24 * (1 / laneReal total) * |laneReal x| + 1 / 2 ^ 150 := by
  obtain ⟨hfinite, hfactor⟩ := reciprocal_error hA hf hlow hhigh
  have hpos : 0 < laneReal total := lt_of_lt_of_le (by positivity) hlow
  have hi : 0 ≤ 1 / laneReal total := by positivity
  have hone : |laneReal x| * (1 / laneReal total) ≤ 1 := by rwa [mul_one_div, div_le_one hpos]
  have hproduct := abs_mul_factor_le (laneReal x) hi hfactor
  have hscaled := isFinite_laneMul_of_abs_le (A.nan .mul x (designDiv A oneBits total)) hx hfinite (by linarith)
  have herror := laneMul_error _ hx hfinite hscaled
  rw [← designMul_ieee hA] at herror
  exact scaled_rounding hi (by positivity) hfactor herror

/-- The scaled taps of the right half twice, and the centre once, sum to 1 within TOL_SUM (R79). -/
theorem scaledTaps_sum {half : List F32} {centre : F32} (h : LaneConditioned A half centre) :
    |2 * (half.map fun x => laneReal (scaledTap A (laneTotal A half centre) x)).sum -
        laneReal (scaledTap A (laneTotal A half centre) centre) - 1| ≤ tolSum := by
  have htotal := laneTotal_error hA h.length h.finite h.centre_mem h.total_finite
  have htap (x : F32) (hx : x ∈ half) := scaledTap_error hA (h.finite x hx) h.total_finite h.total_ge h.total_le
    ((abs_le_laneAbsSum hx).trans h.abs_le_total)
  have htaps := abs_sum_sub_sum_le half htap
  rw [List.sum_map_mul_right, List.sum_map_add, List.sum_map_mul_left, List.map_const', List.sum_replicate, h.length,
    nsmul_eq_mul] at htaps
  have hpos : 0 < laneReal (laneTotal A half centre) := lt_of_lt_of_le (by positivity) h.total_ge
  have hsmall := one_div_le_of_one_div_le h.total_ge
  exact normalised_rounding (by positivity) (mul_one_div_cancel hpos.ne') hsmall h.abs_le_total
    (abs_le_laneAbsSum h.centre_mem) htotal htaps (htap centre h.centre_mem)

end Ieee

/-! ### From the lanes to the kernel -/

theorem getElem_centre (K : Kernel) : K[(60 : Fin F)] = K[C] := rfl

/-- A mirrored kernel is the taps past the centre in descending order, then the right half (R77). -/
theorem mirror_toList (work : Kernel) :
    (mirror work).toList = (work.toList.drop 61).reverse ++ work.toList.drop 60 := by
  have hpast : (work.toList.drop 61).length = 60 := by rw [List.length_drop, Vector.length_toList]; rfl
  have hleft : (work.toList.drop 61).reverse.length = 60 := List.length_reverse.trans hpast
  have hright : (work.toList.drop 60).length = 61 := by rw [List.length_drop, Vector.length_toList]; rfl
  apply List.ext_getElem
  · rw [List.length_append, hleft, hright, Vector.length_toList]
  · intro i hi hi'
    rw [List.length_append, hleft, hright] at hi'
    have htap := mirror_at work ⟨i, hi'⟩
    simp only [Fin.getElem_fin, mirrorTap_val] at htap
    rw [Vector.getElem_toList, htap]
    rcases Nat.lt_or_ge i 60 with h | h
    · rw [if_pos h, List.getElem_append_left (by omega), List.getElem_reverse, List.getElem_drop, Vector.getElem_toList]
      exact getElem_congr_idx (by omega)
    · rw [if_neg (Nat.not_lt.2 h), List.getElem_append_right (by omega), List.getElem_drop, Vector.getElem_toList]
      exact getElem_congr_idx (by omega)

/-- A sum over the taps of a mirrored kernel counts the right half twice and the centre once. -/
theorem sum_mirror (work : Kernel) (g : Pair → ℚ) :
    ((mirror work).toList.map g).sum = 2 * (rightHalf.map fun k : Fin F => g work[k]).sum - g work[C] := by
  have hcons : work.toList.drop 60 = work[C] :: work.toList.drop 61 := by
    rw [List.drop_eq_getElem_cons (by rw [Vector.length_toList]; decide), Vector.getElem_toList]
  rw [rightHalf_map work g, mirror_toList, List.map_append, List.sum_append, List.map_reverse, List.sum_reverse, hcons,
    List.map_cons, List.sum_cons]
  ring

/-- Lane l of the right half, tap C first. -/
def rightLane (work : Kernel) : List F32 := rightHalf.map fun k : Fin F => work[k].l

theorem rightAbsL_eq (work : Kernel) : rightAbsL work = laneAbsSum (rightLane work) := by
  rw [rightAbsL, laneAbsSum, rightLane, List.map_map]
  rfl

theorem rightSum_l (P : Params) (work : Kernel) :
    (rightSum P work).l = (rightLane work).foldl (designAdd P.arith) zeroBits := by
  rw [rightSum, rightLane, List.foldl_map]
  exact (List.foldl_hom Pair.l fun _ _ => rfl).symm

theorem kernelTotal_l (P : Params) (work : Kernel) :
    (kernelTotal P work).l = laneTotal P.arith (rightLane work) work[C].l := by
  rw [laneTotal, ← rightSum_l]
  rfl

theorem mem_rightLane {work : Kernel} {x : F32} : x ∈ rightLane work ↔ ∃ k : Fin F, 60 ≤ k.val ∧ work[k].l = x := by
  simp only [rightLane, List.mem_map, mem_rightHalf]

theorem laneConditioned_of_wellConditioned {P : Params} {work : Kernel} (h : WellConditioned P work) :
    LaneConditioned P.arith (rightLane work) work[C].l := by
  obtain ⟨hfinite, htotal, ⟨hge, hle, habs⟩, -⟩ := h
  rw [rightAbsL_eq] at habs
  rw [kernelTotal_l] at hge hle habs
  refine ⟨by rw [rightLane, List.length_map]; rfl, ?_, mem_rightLane.2 ⟨60, le_rfl, rfl⟩, ?_, hge, hle, habs⟩
  · intro x hx
    obtain ⟨k, hk, rfl⟩ := mem_rightLane.1 hx
    exact (hfinite k hk).1
  · rw [← kernelTotal_l]
    exact htotal.1

theorem normalise_l {P : Params} {work : Kernel} {k : Fin F} (hk : 60 ≤ k.val) :
    (normalise P work)[k].l = scaledTap P.arith (kernelTotal P work).l work[k].l := by
  rw [normalise_at, if_pos hk]
  rfl

/-- Lane l of a normalised and mirrored kernel sums to 1 (R76, R77, R79). -/
theorem sum_mirror_normalise_l {P : Params} {work : Kernel} (hieee : P.arith.subnormal = .ieee)
    (h : WellConditioned P work) :
    |((mirror (normalise P work)).toList.map fun x => laneReal x.l).sum - 1| ≤ tolSum := by
  have hright : (rightHalf.map fun k : Fin F => laneReal (normalise P work)[k].l) =
      (rightLane work).map fun x => laneReal (scaledTap P.arith (kernelTotal P work).l x) := by
    rw [rightLane, List.map_map]
    exact List.map_congr_left fun k hk => congrArg laneReal (normalise_l ((mem_rightHalf k).1 hk))
  have hcentre := normalise_l (P := P) (work := work) (k := 60) le_rfl
  rw [getElem_centre, getElem_centre] at hcentre
  rw [sum_mirror, hright, hcentre, kernelTotal_l]
  exact scaledTaps_sum hieee (laneConditioned_of_wellConditioned h)

/-- Settles O39: lane l sums to 1, and lane r is equal to it (R29). -/
theorem designedKernelSumsToOne : Obligations.DesignedKernelSumsToOne := by
  unfold Obligations.DesignedKernelSumsToOne
  intro P co hieee h
  have hl : |((designLP P co).toList.map fun x => laneReal x.l).sum - 1| ≤ tolSum := sum_mirror_normalise_l hieee h
  have hlanes : ((designLP P co).toList.map fun x => laneReal x.r) =
      (designLP P co).toList.map fun x => laneReal x.l := by
    refine List.map_congr_left fun x hx => congrArg laneReal ?_
    obtain ⟨i, hi, rfl⟩ := Vector.mem_iff_getElem.1 (Vector.mem_toList_iff.1 hx)
    exact (designLP_lanesEqual P co ⟨i, hi⟩).symm
  refine ⟨hl, ?_⟩
  rw [hlanes]
  exact hl

end Sys2Proof.Machine
end

section
/-! ASSEMBLE (R81 to R87): how many kernels it gives, what each tap of the difference, of the sum and of the spectral
inverse is, and what the band kernels sum to. A sum of bands telescopes: every interior band is what it adds to the
accumulated response, up to the rounding of that addition, and the final band is the impulse minus the accumulated
response. The error bounds count units of 2^−24, the relative error of one rounding. -/

namespace Sys2Proof.Machine

open Sys2Proof.Config

/-! ### The kernels of ASSEMBLE -/

/-- Settles O40: the four frequencies cover the crossovers of five bands. -/
theorem assemblyGivesOneKernelPerBand : Obligations.AssemblyGivesOneKernelPerBand :=
  fun P sr _ _ _ _ _ h2 h5 => assemble_length P sr h2 h5

theorem kernelSub_at (P : Params) (a b : Kernel) (k : Fin F) : (kernelSub P a b)[k] = psub P.arith a[k] b[k] :=
  Vector.getElem_zipWith _

theorem kernelAdd_at (P : Params) (a b : Kernel) (k : Fin F) : (kernelAdd P a b)[k] = padd P.arith a[k] b[k] :=
  Vector.getElem_zipWith _

/-- Spectral inversion negates every tap and adds ONE at the centre alone (R84). -/
theorem spectralInverse_at (P : Params) (acc : Kernel) (k : Fin F) :
    (spectralInverse P acc)[k] = if k.val = 60 then padd P.arith (pneg acc[k]) onePair else pneg acc[k] := by
  have hneg (n : Fin F) : (acc.map pneg)[n] = pneg acc[n] := Vector.getElem_map _ _
  split_ifs with h
  · obtain rfl : k = 60 := Fin.ext h
    exact (kernel_set_at (acc.map pneg) 60 _).trans (congrArg (padd P.arith · onePair) (hneg 60))
  · exact (kernel_set_other (acc.map pneg) (n := 60) _ fun e => h (congrArg Fin.val e)).trans (hneg k)

theorem spectralInverse_centre (P : Params) (acc : Kernel) :
    (spectralInverse P acc)[60] = padd P.arith (pneg acc[60]) onePair :=
  spectralInverse_at P acc 60

theorem spectralInverse_off_centre (P : Params) (acc : Kernel) {k : Fin F} (h : k.val ≠ 60) :
    (spectralInverse P acc)[k] = pneg acc[k] := by
  rw [spectralInverse_at, if_neg h]

/-- Settles O42: no interior band, and the spectral inverse of the one low-pass kernel (R85). -/
theorem twoBandKernels : Obligations.TwoBandKernels := by
  unfold Obligations.TwoBandKernels
  intro P sr f0 f1 f2 f3
  exact ⟨lowPass P sr f0, spectralInverse P (lowPass P sr f0), rfl, rfl,
    fun k hk => spectralInverse_off_centre P _ hk, spectralInverse_centre P _⟩

/-- Settles O41: one interior band, and the spectral inverse of the response accumulated with it (R83, R84). -/
theorem threeBandKernels : Obligations.ThreeBandKernels := by
  unfold Obligations.ThreeBandKernels
  intro P sr f0 f1 f2 f3
  refine ⟨lowPass P sr f0, kernelSub P (lowPass P sr f1) (lowPass P sr f0), spectralInverse P _, rfl, rfl,
    kernelSub_at P _ _, fun k hk => ?_, ?_⟩
  · rw [spectralInverse_off_centre P _ hk, kernelAdd_at]
  · rw [spectralInverse_centre]
    exact congrArg (fun x => padd P.arith (pneg x) onePair) (kernelAdd_at P _ _ 60)

/-! ### Sums and differences far from overflow -/

theorem isFinite_laneAdd_of_abs_le (n : NaN32) {a b : F32} (ha : isFinite a = true) (hb : isFinite b = true)
    (h : |laneReal a + laneReal b| ≤ 2 ^ 126) : isFinite (laneAdd .ieee n a b) = true := by
  have hexact : ((laneVal a + laneVal b : Int) : ℚ) / 2 ^ (149 + 0) = laneReal a + laneReal b := by
    unfold laneReal; push_cast; rw [add_div]
  have hbound : (laneVal a + laneVal b).natAbs < 2 ^ 2 ^ 12 := by
    refine two_pow_lt_bound (a := 278) (by norm_num) ?_
    calc (laneVal a + laneVal b).natAbs ≤ (laneVal a).natAbs + (laneVal b).natAbs := Int.natAbs_add_le _ _
      _ < 2 ^ 277 + 2 ^ 277 := Nat.add_lt_add (laneVal_lt a ha) (laneVal_lt b hb)
      _ = 2 ^ 278 := by rw [← mul_two, ← pow_succ]
  rw [laneAdd_finite n ha hb]
  exact isFinite_fl_of_abs_le _ _ _ hbound (by rwa [hexact])

theorem isFinite_laneSub_of_abs_le (n : NaN32) {a b : F32} (ha : isFinite a = true) (hb : isFinite b = true)
    (h : |laneReal a - laneReal b| ≤ 2 ^ 126) : isFinite (laneSub .ieee n a b) = true :=
  isFinite_laneAdd_of_abs_le n ha (by rwa [isFinite_laneNeg]) (by rwa [laneReal_laneNeg, ← sub_eq_add_neg])

/-- A sum of UPDATE that stays far from overflow is finite, with relative error at most 2^−24. -/
theorem designAdd_error {A : Arith} (hA : A.subnormal = .ieee) {a b : F32} (ha : isFinite a = true)
    (hb : isFinite b = true) (h : |laneReal a + laneReal b| ≤ 2 ^ 126) :
    isFinite (designAdd A a b) = true ∧
      |laneReal (designAdd A a b) - (laneReal a + laneReal b)| ≤ |laneReal a + laneReal b| / 2 ^ 24 := by
  rw [designAdd_ieee hA]
  have hf := isFinite_laneAdd_of_abs_le (A.nan .add a b) ha hb h
  exact ⟨hf, laneAdd_error _ ha hb hf⟩

/-- The same for a difference. -/
theorem designSub_error {A : Arith} (hA : A.subnormal = .ieee) {a b : F32} (ha : isFinite a = true)
    (hb : isFinite b = true) (h : |laneReal a - laneReal b| ≤ 2 ^ 126) :
    isFinite (designSub A a b) = true ∧
      |laneReal (designSub A a b) - (laneReal a - laneReal b)| ≤ |laneReal a - laneReal b| / 2 ^ 24 := by
  rw [designSub_ieee hA]
  have hf := isFinite_laneSub_of_abs_le (A.nan .sub a b) ha hb h
  exact ⟨hf, laneSub_error _ ha hb hf⟩

/-! ### One tap of a band, in one lane -/

/-- A lane value that is finite and stands for a real number of magnitude at most B. -/
def LaneWithin (B : ℚ) (a : F32) : Prop := isFinite a = true ∧ |laneReal a| ≤ B

/-- The accumulated response after an interior band is near the low-pass tap again, so it stays within 2, and the
band is what it gained, up to the rounding of its addition (R83). -/
theorem interiorBand_error {A : Arith} (hA : A.subnormal = .ieee) {lp acc : F32} (hlp : LaneWithin 1 lp)
    (hacc : LaneWithin 2 acc) :
    LaneWithin 2 (designAdd A acc (designSub A lp acc)) ∧
      |laneReal (designSub A lp acc) - (laneReal (designAdd A acc (designSub A lp acc)) - laneReal acc)| ≤
        2 / 2 ^ 24 := by
  obtain ⟨hlpf, hlp1⟩ := hlp
  obtain ⟨haccf, hacc2⟩ := hacc
  have hdiff : |laneReal lp - laneReal acc| ≤ 3 := by linarith [abs_sub (laneReal lp) (laneReal acc)]
  obtain ⟨hbandf, hband⟩ := designSub_error hA hlpf haccf (hdiff.trans (by norm_num))
  generalize designSub A lp acc = band at *
  have hsum : |laneReal acc + laneReal band| ≤ 1 + 3 / 2 ^ 24 :=
    calc |laneReal acc + laneReal band|
        = |(laneReal band - (laneReal lp - laneReal acc)) + laneReal lp| := by congr 1; ring
      _ ≤ |laneReal band - (laneReal lp - laneReal acc)| + |laneReal lp| := abs_add_le _ _
      _ ≤ 1 + 3 / 2 ^ 24 := by linarith
  obtain ⟨hnextf, hnext⟩ := designAdd_error hA haccf hbandf (hsum.trans (by norm_num))
  generalize designAdd A acc band = next at *
  refine ⟨⟨hnextf, ?_⟩, ?_⟩
  · linarith [abs_sub_abs_le_abs_sub (laneReal next) (laneReal acc + laneReal band)]
  · calc |laneReal band - (laneReal next - laneReal acc)|
        = |laneReal next - (laneReal acc + laneReal band)| := by rw [abs_sub_comm]; congr 1; ring
      _ ≤ 2 / 2 ^ 24 := by linarith

/-- The same for lane l of one tap of the kernels. -/
theorem interiorBand_tap_error {P : Params} (hP : P.arith.subnormal = .ieee) {lp acc : Kernel} {k : Fin F}
    (hlp : LaneWithin 1 lp[k].l) (hacc : LaneWithin 2 acc[k].l) :
    LaneWithin 2 (kernelAdd P acc (kernelSub P lp acc))[k].l ∧
      |laneReal (kernelSub P lp acc)[k].l -
        (laneReal (kernelAdd P acc (kernelSub P lp acc))[k].l - laneReal acc[k].l)| ≤ 2 / 2 ^ 24 := by
  rw [kernelAdd_at, kernelSub_at]
  exact interiorBand_error hP hlp hacc

/-- The final band is the impulse minus the accumulated response, rounded at the centre alone (R84). -/
theorem spectralInverse_error {P : Params} (hP : P.arith.subnormal = .ieee) {acc : Kernel} {k : Fin F}
    (h : LaneWithin 2 acc[k].l) :
    |laneReal (spectralInverse P acc)[k].l - (impulseAt k - laneReal acc[k].l)| ≤ 3 / 2 ^ 24 := by
  obtain ⟨hf, h2⟩ := h
  rw [spectralInverse_at, impulseAt]
  split_ifs with hk
  · have hsum : |laneReal (laneNeg acc[k].l) + laneReal oneBits| ≤ 3 := by
      refine (abs_add_le _ _).trans ?_
      rw [laneReal_laneNeg, abs_neg, laneReal_one, abs_one]
      linarith
    have herror := (designAdd_error hP (by rwa [isFinite_laneNeg]) isFinite_one (hsum.trans (by norm_num))).2
    have hexact : 1 - laneReal acc[k].l = laneReal (laneNeg acc[k].l) + laneReal oneBits := by
      rw [laneReal_laneNeg, laneReal_one]; ring
    rw [hexact]
    exact herror.trans (by linarith)
  · have hexact : laneReal (pneg acc[k]).l = 0 - laneReal acc[k].l := by
      rw [zero_sub]; exact laneReal_laneNeg _
    rw [hexact, sub_self, abs_zero]
    positivity

/-! ### The sum of the bands -/

theorem tapSumL_cons (K : Kernel) (bands : List Kernel) (k : Fin F) :
    tapSumL (K :: bands) k = laneReal K[k].l + tapSumL bands k := rfl

/-- The bands that ASSEMBLE forms from an accumulated response sum to the impulse minus that response: two units of
error for each interior band and three for the final band (R83, R84, R87). -/
theorem assembleFrom_tapSum {P : Params} (hP : P.arith.subnormal = .ieee) (sr : F32) (k : Fin F) {acc : Kernel}
    {freqs : List F32} (hacc : LaneWithin 2 acc[k].l) (hlp : ∀ f ∈ freqs, LaneWithin 1 (lowPass P sr f)[k].l) :
    |tapSumL (assembleFrom P sr acc freqs) k - (impulseAt k - laneReal acc[k].l)| ≤
      (2 * freqs.length + 3) / 2 ^ 24 := by
  induction freqs generalizing acc with
  | nil =>
    have hsingle : tapSumL (assembleFrom P sr acc []) k = laneReal (spectralInverse P acc)[k].l :=
      List.sum_singleton
    rw [hsingle, List.length_nil, Nat.cast_zero, mul_zero, zero_add]
    exact spectralInverse_error hP hacc
  | cons f rest ih =>
    obtain ⟨hnext, hband⟩ := interiorBand_tap_error hP (hlp f List.mem_cons_self) hacc
    have hrest := ih hnext fun g hg => hlp g (List.mem_cons_of_mem _ hg)
    rw [assembleFrom, tapSumL_cons]
    generalize kernelSub P (lowPass P sr f) acc = band at *
    generalize kernelAdd P acc band = next at *
    calc |laneReal band[k].l + tapSumL (assembleFrom P sr next rest) k - (impulseAt k - laneReal acc[k].l)|
        = |(tapSumL (assembleFrom P sr next rest) k - (impulseAt k - laneReal next[k].l)) +
            (laneReal band[k].l - (laneReal next[k].l - laneReal acc[k].l))| := by congr 1; ring
      _ ≤ (2 * rest.length + 3) / 2 ^ 24 + 2 / 2 ^ 24 := (abs_add_le _ _).trans (add_le_add hrest hband)
      _ = (2 * (f :: rest).length + 3) / 2 ^ 24 := by rw [List.length_cons]; push_cast; ring

/-- In lane l the bands of ASSEMBLE sum to the impulse: the first low-pass kernel is both band 0 and the response
that the other bands complete (R82, R87). -/
theorem assembleUsed_tapSum {P : Params} (hP : P.arith.subnormal = .ieee) (sr : F32) (k : Fin F) {freqs : List F32}
    (hne : freqs ≠ []) (hlp : ∀ f ∈ freqs, LaneWithin 1 (lowPass P sr f)[k].l) :
    |tapSumL (assembleUsed P sr freqs) k - impulseAt k| ≤ (2 * freqs.length + 1) / 2 ^ 24 := by
  cases freqs with
  | nil => exact absurd rfl hne
  | cons f rest =>
    obtain ⟨hfinite, hle⟩ := hlp f List.mem_cons_self
    have hrest := assembleFrom_tapSum hP sr k ⟨hfinite, hle.trans one_le_two⟩
      fun g hg => hlp g (List.mem_cons_of_mem _ hg)
    rw [assembleUsed, tapSumL_cons, List.length_cons]
    calc |laneReal (lowPass P sr f)[k].l + tapSumL (assembleFrom P sr (lowPass P sr f) rest) k - impulseAt k|
        = |tapSumL (assembleFrom P sr (lowPass P sr f) rest) k - (impulseAt k - laneReal (lowPass P sr f)[k].l)| := by
          congr 1; ring
      _ ≤ (2 * rest.length + 3) / 2 ^ 24 := hrest
      _ = (2 * (rest.length + 1 : ℕ) + 1) / 2 ^ 24 := by push_cast; ring

theorem tapSumR_eq_tapSumL {bands : List Kernel} (h : ∀ K ∈ bands, KernelLanesEqual K) (k : Fin F) :
    tapSumR bands k = tapSumL bands k := by
  unfold tapSumR tapSumL
  rw [List.map_congr_left fun K hK => congrArg laneReal (h K hK k).symm]

/-- Settles O44: with at most four frequencies lane l is off by at most nine units of 2^−24, and lane r is equal to
it (R29). -/
theorem bandKernelsReconstructTheImpulse : Obligations.BandKernelsReconstructTheImpulse := by
  unfold Obligations.BandKernelsReconstructTheImpulse
  intro P sr nb f0 f1 f2 f3 hP h2 h5 hlp k
  have hlen : ([f0, f1, f2, f3].take (nb - 1)).length = nb - 1 :=
    List.length_take_of_le (Nat.sub_le_of_le_add h5)
  have hne : [f0, f1, f2, f3].take (nb - 1) ≠ [] := List.ne_nil_of_length_pos (by omega)
  have hfew : ((nb - 1 : ℕ) : ℚ) ≤ 4 := by exact_mod_cast (by omega : nb - 1 ≤ 4)
  have herror := assembleUsed_tapSum hP sr k hne fun f hf => ⟨((hlp f hf).1 k).1, ((hlp f hf).2 k).1⟩
  have hl : |tapSumL (assemble P sr nb [f0, f1, f2, f3]) k - impulseAt k| ≤ tolRec := by
    refine herror.trans ?_
    rw [hlen, tolRec, div_le_div_iff₀ (by positivity) (by positivity)]
    linarith
  have hlanes := tapSumR_eq_tapSumL (fun K hK => (assemble_shape P sr nb [f0, f1, f2, f3] K hK).2) k
  exact ⟨hl, by rwa [hlanes]⟩

end Sys2Proof.Machine
end

section
/-! The lane operations at the level of R92 to R95: rounding to nearest and to even in rational numbers, overflow,
the sign of an exact zero, special operands, and the flushing of subnormals. -/

namespace Sys2Proof.Machine

open Sys2Proof.Config

/-! ### Exact results as rational numbers -/

theorem laneReal_add_eq (a b : F32) :
    laneReal a + laneReal b = ((laneVal a + laneVal b : Int) : ℚ) / 2 ^ (149 + 0) := by
  unfold laneReal
  push_cast
  rw [add_div]

theorem laneReal_mul_eq (a b : F32) :
    laneReal a * laneReal b = ((laneVal a * laneVal b : Int) : ℚ) / 2 ^ (149 + 149) := by
  unfold laneReal
  push_cast
  rw [div_mul_div_comm, ← pow_add]

theorem laneReal_mul_add_eq (a b c : F32) :
    laneReal a * laneReal b + laneReal c =
      ((laneVal a * laneVal b + laneVal c * 2 ^ 149 : Int) : ℚ) / 2 ^ (149 + 149) := by
  have hc : laneReal c = ((laneVal c * 2 ^ 149 : Int) : ℚ) / 2 ^ (149 + 149) := by
    unfold laneReal
    rw [Int.cast_mul, Int.cast_pow, Int.cast_ofNat, pow_add, mul_div_mul_right _ _ (by positivity)]
  rw [laneReal_mul_eq, hc, ← add_div]
  push_cast
  rfl

theorem laneVal_add_natAbs_lt {a b : F32} (ha : isFinite a = true) (hb : isFinite b = true) :
    (laneVal a + laneVal b).natAbs < 2 ^ 2 ^ 12 := by
  refine two_pow_lt_bound (a := 278) (by norm_num) ?_
  calc (laneVal a + laneVal b).natAbs ≤ (laneVal a).natAbs + (laneVal b).natAbs := Int.natAbs_add_le _ _
    _ < 2 ^ 277 + 2 ^ 277 := Nat.add_lt_add (laneVal_lt a ha) (laneVal_lt b hb)
    _ = 2 ^ 278 := by rw [← mul_two, ← pow_succ]

theorem laneVal_mul_add_natAbs_lt {a b c : F32} (ha : isFinite a = true) (hb : isFinite b = true)
    (hc : isFinite c = true) : (laneVal a * laneVal b + laneVal c * 2 ^ 149).natAbs < 2 ^ 2 ^ 12 := by
  have hproduct : (laneVal a * laneVal b).natAbs < 2 ^ (277 + 277) := by
    rw [Int.natAbs_mul, pow_add]
    exact Nat.mul_lt_mul'' (laneVal_lt a ha) (laneVal_lt b hb)
  have hscale : ((2 : Int) ^ 149).natAbs < 2 ^ 277 := by
    rw [Int.natAbs_pow, show (2 : Int).natAbs = 2 from rfl]
    exact pow_lt_pow_right₀ one_lt_two (by decide)
  have haddend : (laneVal c * 2 ^ 149).natAbs < 2 ^ (277 + 277) := by
    rw [Int.natAbs_mul, pow_add]
    exact Nat.mul_lt_mul'' (laneVal_lt c hc) hscale
  refine two_pow_lt_bound (a := 277 + 277 + 1) (by norm_num) ?_
  calc (laneVal a * laneVal b + laneVal c * 2 ^ 149).natAbs
      ≤ (laneVal a * laneVal b).natAbs + (laneVal c * 2 ^ 149).natAbs := Int.natAbs_add_le _ _
    _ < 2 ^ (277 + 277) + 2 ^ (277 + 277) := Nat.add_lt_add hproduct haddend
    _ = 2 ^ (277 + 277 + 1) := by rw [← mul_two, ← pow_succ]

/-- The distance of a lane value from an exact number, counted in its units. -/
theorem abs_laneReal_sub_eq (y : F32) (n : Int) (k : Nat) :
    |laneReal y - (n : ℚ) / 2 ^ (149 + k)| = ((|laneVal y * 2 ^ k - n| : Int) : ℚ) / 2 ^ (149 + k) := by
  have hy : laneReal y = (laneVal y : ℚ) * 2 ^ k / 2 ^ (149 + k) := by
    rw [laneReal, pow_add, mul_div_mul_right _ _ (by positivity)]
  rw [hy, ← sub_div, abs_div, abs_of_pos (show (0 : ℚ) < 2 ^ (149 + k) by positivity)]
  push_cast
  rfl

/-! ### Round to nearest -/

/-- The rounding of an exact number is nearest to it (R92). -/
theorem laneReal_fl_nearest (n : Int) (k : Nat) (z : Bool) (hn : n.natAbs < 2 ^ 2 ^ 12)
    (hf : isFinite (fl .ieee n k z) = true) (y : F32) :
    |laneReal (fl .ieee n k z) - (n : ℚ) / 2 ^ (149 + k)| ≤ |laneReal y - (n : ℚ) / 2 ^ (149 + k)| := by
  rw [abs_laneReal_sub_eq, abs_laneReal_sub_eq, div_le_div_iff_of_pos_right (by positivity)]
  exact_mod_cast fl_nearest n k z hn hf y

/-- Settles O53: the result is one rounding of the exact number (R93). -/
theorem fusedMultiplyAddIsNearest : Obligations.FusedMultiplyAddIsNearest := by
  unfold Obligations.FusedMultiplyAddIsNearest
  intro n a b c y ha hb hc _ hf
  rw [laneFma_finite n ha hb hc] at hf ⊢
  rw [laneReal_mul_add_eq]
  exact laneReal_fl_nearest _ 149 _ (laneVal_mul_add_natAbs_lt ha hb hc) hf y

theorem laneAdd_nearest (n : NaN32) {a b : F32} (ha : isFinite a = true) (hb : isFinite b = true)
    (hf : isFinite (laneAdd .ieee n a b) = true) (y : F32) :
    |laneReal (laneAdd .ieee n a b) - (laneReal a + laneReal b)| ≤ |laneReal y - (laneReal a + laneReal b)| := by
  rw [laneAdd_finite n ha hb] at hf ⊢
  rw [laneReal_add_eq]
  exact laneReal_fl_nearest _ 0 _ (laneVal_add_natAbs_lt ha hb) hf y

theorem laneMul_nearest (n : NaN32) {a b : F32} (ha : isFinite a = true) (hb : isFinite b = true)
    (hf : isFinite (laneMul .ieee n a b) = true) (y : F32) :
    |laneReal (laneMul .ieee n a b) - laneReal a * laneReal b| ≤ |laneReal y - laneReal a * laneReal b| := by
  rw [laneMul_finite n ha hb] at hf ⊢
  rw [laneReal_mul_eq]
  exact laneReal_fl_nearest _ 149 _ (laneVal_mul_natAbs_lt ha hb) hf y

/-- Settles O54: a difference is the sum with the negated subtrahend. -/
theorem sumsAndProductsAreNearest : Obligations.SumsAndProductsAreNearest := by
  unfold Obligations.SumsAndProductsAreNearest
  intro n a b y ha hb _
  refine ⟨fun hf => laneAdd_nearest n ha hb hf y, fun hf => ?_, fun hf => laneMul_nearest n ha hb hf y⟩
  have h := laneAdd_nearest n ha (by rwa [isFinite_laneNeg]) hf y
  rwa [laneReal_laneNeg, ← sub_eq_add_neg] at h

/-! ### Ties to even -/

/-- A remainder of which twice is a multiple of the divisor is zero or one half. -/
theorem two_mul_mod_of_dvd {n d : Nat} (hd : 0 < d) (h : d ∣ 2 * (n % d)) : n % d = 0 ∨ 2 * (n % d) = d := by
  have hlt := Nat.mod_lt n hd
  obtain ⟨m, hm⟩ := h
  have hm2 : m < 2 := Nat.lt_of_mul_lt_mul_left (a := d) (by omega)
  interval_cases m
  · exact .inl (by omega)
  · exact .inr (by omega)

/-- Where another multiple of the unit lies as near, the exact number is a tie, and the rounded multiple is even
(R92). -/
theorem roundShift_even_of_tie {n sh c : Nat} (hne : c ≠ roundShift n sh)
    (htie : (c + roundShift n sh) * 2 ^ sh = 2 * n) : roundShift n sh % 2 = 0 := by
  have hpos : 0 < 2 ^ sh := by positivity
  have hdm := Nat.div_add_mod n (2 ^ sh)
  have hround : roundShift n sh =
      if 2 ^ sh < 2 * (n % 2 ^ sh) ∨ (2 * (n % 2 ^ sh) = 2 ^ sh ∧ n / 2 ^ sh % 2 = 1) then n / 2 ^ sh + 1
      else n / 2 ^ sh := rfl
  have hdvd : 2 ^ sh ∣ 2 * (n % 2 ^ sh) := by
    refine (Nat.dvd_add_right (Dvd.intro (2 * (n / 2 ^ sh)) rfl)).1 (Dvd.intro_left (c + roundShift n sh) ?_)
    rw [htie, Nat.mul_left_comm, ← Nat.mul_add, hdm]
  rcases two_mul_mod_of_dvd hpos hdvd with hexact | hhalf
  · rw [hexact] at hround hdm
    rw [if_neg (by omega)] at hround
    have hc : c = n / 2 ^ sh := by
      have h : (c + roundShift n sh) * 2 ^ sh = (n / 2 ^ sh + n / 2 ^ sh) * 2 ^ sh := by
        rw [htie, ← two_mul, mul_assoc, mul_comm _ (2 ^ sh), ← Nat.add_zero (2 ^ sh * _), hdm]
      have := Nat.eq_of_mul_eq_mul_right hpos h
      omega
    exact absurd (hc.trans hround.symm) hne
  · split_ifs at hround <;> omega

/-- A magnitude is a multiple of the unit that the rounding keeps, or it lies below the least magnitude of the exact
number's exponent. -/
theorem magOf_multiple_or_lt (n k y : Nat) :
    (∃ c, magOf y * 2 ^ k = c * 2 ^ dropBits n k) ∨
      k < dropBits n k ∧ magOf y * 2 ^ k < 2 ^ 23 * 2 ^ dropBits n k := by
  rcases (le_dropBits n k).eq_or_lt with heq | hlt
  · exact .inl ⟨magOf y, by rw [← heq]⟩
  · rcases magOf_multiple_or_small y (dropBits n k - k) with ⟨c, hc⟩ | hsmall
    · refine .inl ⟨c, ?_⟩
      rw [hc, mul_comm (2 ^ _) c, mul_assoc, ← pow_add, Nat.sub_add_cancel hlt.le]
    · refine .inr ⟨hlt, (Nat.mul_lt_mul_of_pos_right hsmall (by positivity)).trans_eq ?_⟩
      rw [← pow_add, ← pow_add, add_assoc, Nat.sub_add_cancel hlt.le]

/-- A magnitude other than the rounded one that lies as near to the exact number shows a tie, and the bits of the
rounded one are even: the other magnitude is a multiple of the same unit, since below the exact number's exponent
it would lie further off than the least magnitude of that exponent. -/
theorem roundBits_even_of_tie {n k y : Nat} (hn : n < 2 ^ 2 ^ 12) (hne : magOf y ≠ magOf (roundBits n k))
    (htie : |((magOf (roundBits n k) * 2 ^ k : Nat) : Int) - n| = |((magOf y * 2 ^ k : Nat) : Int) - n|) :
    roundBits n k % 2 = 0 := by
  have hne' : magOf y * 2 ^ k ≠ magOf (roundBits n k) * 2 ^ k :=
    fun e => hne (Nat.eq_of_mul_eq_mul_right (by positivity) e)
  rw [magOf_roundBits n k hn] at htie hne'
  rcases magOf_multiple_or_lt n k y with ⟨c, hc⟩ | ⟨hlt, hsmall⟩
  · rw [hc] at htie hne'
    have heven := roundShift_even_of_tie (fun e => hne' (congrArg (· * 2 ^ dropBits n k) e))
      (by rw [add_mul]; rcases abs_eq_abs.1 htie with h | h <;> omega)
    unfold roundBits
    omega
  · have hleast := roundShift_nearest n (dropBits n k) (2 ^ 23)
    have hexponent := pow_le_of_lt_dropBits n k hn hlt
    rw [add_comm, pow_add] at hexponent
    rw [htie, abs_of_nonpos (by omega), abs_of_nonpos (by omega)] at hleast
    omega

/-- A rounded number lies from the exact one as its magnitude lies from the exact magnitude: the signs agree. -/
theorem fl_abs_error (n : Int) (k : Nat) (z : Bool) :
    |laneVal (fl .ieee n k z) * 2 ^ k - n| = |((laneMag (fl .ieee n k z) * 2 ^ k : Nat) : Int) - n.natAbs| := by
  have hsign := laneNegative_fl n k z
  have hzero : n = 0 → laneMag (fl .ieee n k z) = 0 := by
    rintro rfl
    rw [fl_zero]
    exact (isZero_iff_laneMag _).1 (isZero_signedZero z)
  generalize fl .ieee n k z = r at *
  unfold laneVal
  push_cast
  rw [hsign]
  rcases lt_trichotomy n 0 with h | h | h
  · rw [if_neg h.ne, decide_eq_true h, if_pos rfl, abs_of_neg h, ← abs_neg]
    congr 1
    ring
  · simp [h, hzero h]
  · rw [if_neg h.ne', decide_eq_false h.not_gt, if_neg Bool.false_ne_true, abs_of_pos h]

/-- Any lane value lies from an exact number at least as its magnitude lies from the exact magnitude. -/
theorem abs_laneMag_sub_le (y : F32) (n : Int) (k : Nat) :
    |((laneMag y * 2 ^ k : Nat) : Int) - n.natAbs| ≤ |laneVal y * 2 ^ k - n| := by
  have h := abs_abs_sub_abs_le (laneVal y * 2 ^ k) n
  rwa [Int.abs_eq_natAbs (laneVal y * 2 ^ k), Int.abs_eq_natAbs n, Int.natAbs_mul, laneVal_natAbs,
    Int.natAbs_pow] at h

/-- A number of the same magnitude as the rounded one and not equal to it lies at another distance. -/
theorem laneMag_ne_of_tie {n : Int} {k : Nat} {z : Bool} {y : F32} (hne : laneVal y ≠ laneVal (fl .ieee n k z))
    (htie : |laneVal (fl .ieee n k z) * 2 ^ k - n| = |laneVal y * 2 ^ k - n|) :
    laneMag y ≠ laneMag (fl .ieee n k z) := by
  intro hmag
  rw [← laneVal_natAbs, ← laneVal_natAbs, Int.natAbs_eq_natAbs_iff] at hmag
  have hopposite := hmag.resolve_left hne
  have hpos : (0 : Int) < 2 ^ k := by positivity
  have hzero : laneVal (fl .ieee n k z) = 0 := by
    rw [hopposite, neg_mul] at htie
    rcases abs_eq_abs.1 htie with h | h
    · exact (mul_eq_zero.1 (by omega : laneVal (fl .ieee n k z) * 2 ^ k = 0)).resolve_right hpos.ne'
    · obtain rfl : n = 0 := by omega
      rw [fl_zero, laneVal_eq_zero_iff]
      exact isZero_signedZero z
  rw [hzero, neg_zero] at hopposite
  exact hne (hopposite.trans hzero.symm)

/-- The least bit of a finite rounding is 0 where another value lies as near to the exact number (R92). -/
theorem fl_even_of_tie {n : Int} {k : Nat} {z : Bool} {y : F32} (hn : n.natAbs < 2 ^ 2 ^ 12)
    (hf : isFinite (fl .ieee n k z) = true) (hne : laneVal y ≠ laneVal (fl .ieee n k z))
    (htie : |laneVal (fl .ieee n k z) * 2 ^ k - n| = |laneVal y * 2 ^ k - n|) :
    laneFrac (fl .ieee n k z) % 2 = 0 := by
  have hr := (isFinite_fl n k z).1 hf
  have hbits : roundMag n.natAbs k = roundBits n.natAbs k := by rw [roundMag_eq] at hr ⊢; omega
  have hmag : laneMag (fl .ieee n k z) = magOf (roundBits n.natAbs k) := by rw [laneMag_fl, hbits]
  have hfrac : laneFrac (fl .ieee n k z) = roundBits n.natAbs k % 0x800000 := by
    rw [fl_ieee, laneFrac_packBits _ _ (by omega), hbits]
  have hnear := roundBits_nearest n.natAbs k (y.toNat % 0x80000000) hn
  have hle := abs_laneMag_sub_le y n k
  rw [← htie, fl_abs_error, hmag] at hle
  rw [← laneMag_eq_magOf] at hnear
  have hmagne := laneMag_ne_of_tie hne htie
  have heven : roundBits n.natAbs k % 2 = 0 := by
    refine roundBits_even_of_tie hn (y := y.toNat % 0x80000000) ?_ ?_
    · rwa [← laneMag_eq_magOf, ← hmag]
    · rw [← laneMag_eq_magOf]
      exact le_antisymm hnear hle
  omega

/-- Settles O55: the result is one rounding of the exact number (R93). -/
theorem tiesRoundToEven : Obligations.TiesRoundToEven := by
  unfold Obligations.TiesRoundToEven
  intro n a b c y ha hb hc _ hf hne htie
  rw [laneFma_finite n ha hb hc] at hf hne htie ⊢
  have hne' : laneVal y ≠ laneVal (fl .ieee (laneVal a * laneVal b + laneVal c * 2 ^ 149) 149
      ((laneNegative a != laneNegative b) && laneNegative c)) := fun e => hne (by rw [laneReal, laneReal, e])
  rw [laneReal_mul_add_eq, abs_laneReal_sub_eq, abs_laneReal_sub_eq, div_left_inj' (by positivity),
    Int.cast_inj] at htie
  exact fl_even_of_tie (laneVal_mul_add_natAbs_lt ha hb hc) hf hne' htie

/-! ### Overflow -/

/-- A rounding that is not finite is the infinity of the sign of the exact number (R92). -/
theorem fl_overflow {n : Int} {k : Nat} {z : Bool} (hf : isFinite (fl .ieee n k z) = false) :
    fl .ieee n k z = signedInf (decide (n < 0)) := by
  have hcap : roundMag n.natAbs k = 0x7F800000 := by
    have hle := roundMag_le n.natAbs k
    rw [Bool.eq_false_iff, Ne, isFinite_fl] at hf
    omega
  have hn : n ≠ 0 := by
    rintro rfl
    rw [Int.natAbs_zero, roundMag_zero] at hcap
    exact absurd hcap (by norm_num)
  rw [fl_ieee, hcap, if_neg hn]
  rfl

theorem overflow_threshold_iff (n : Int) :
    ((2 ^ 25 - 1) * 2 ^ 103 : ℚ) ≤ |(n : ℚ) / 2 ^ (149 + 0)| ↔ (2 ^ 25 - 1) * 2 ^ (252 + 0) ≤ n.natAbs := by
  have hunits : ((2 ^ 25 - 1) * 2 ^ 103 * 2 ^ (149 + 0) : ℚ) = (((2 ^ 25 - 1) * 2 ^ (252 + 0) : Nat) : ℚ) := by
    norm_num
  rw [abs_div, abs_of_pos (show (0 : ℚ) < 2 ^ (149 + 0) by positivity), le_div_iff₀ (by positivity), hunits,
    ← Int.cast_abs, Int.abs_eq_natAbs, Int.cast_natCast, Nat.cast_le]

/-- Settles O56: the exact sum is an integer of units of 2^−149, which the threshold of the rounding bounds. -/
theorem overflowGivesInfinityOfTheSign : Obligations.OverflowGivesInfinityOfTheSign := by
  unfold Obligations.OverflowGivesInfinityOfTheSign
  intro n a b ha hb
  rw [laneAdd_finite n ha hb, laneReal_add_eq]
  refine ⟨?threshold, ?sign⟩
  case threshold =>
    rw [Bool.eq_false_iff, Ne, isFinite_fl, roundMag_finite_iff _ _ (laneVal_add_natAbs_lt ha hb), not_lt,
      overflow_threshold_iff]
  case sign =>
    intro hf
    rw [fl_overflow hf]
    congr 1
    rw [decide_eq_decide, div_lt_iff₀ (by positivity), zero_mul, Int.cast_lt_zero]

/-! ### The sign of an exact zero -/

theorem laneNegative_of_laneVal_ne {a : F32} (h : laneVal a ≠ 0) : laneNegative a = decide (laneVal a < 0) := by
  have hmag : laneMag a ≠ 0 := by rwa [← laneVal_natAbs, Int.natAbs_ne_zero]
  unfold laneVal
  cases laneNegative a
  · simp
  · simpa using Nat.pos_of_ne_zero hmag

/-- The sign of a product that is not zero (R92). -/
theorem productNegative_of_ne {a b : F32} (ha : laneVal a ≠ 0) (hb : laneVal b ≠ 0) :
    (laneNegative a != laneNegative b) = decide (laneVal a * laneVal b < 0) := by
  rw [laneNegative_of_laneVal_ne ha, laneNegative_of_laneVal_ne hb]
  rcases lt_or_gt_of_ne ha with h | h
  · have hiff : laneVal a * laneVal b < 0 ↔ ¬ laneVal b < 0 := by
      rw [mul_neg_iff]
      omega
    simp only [h, hiff, decide_true, decide_not, Bool.true_bne]
  · simp [mul_neg_iff, h, h.not_gt]

/-- Where a product and an addend cancel and are not zeros, the two are not both negative (R93). -/
theorem not_both_negative_of_cancel {a b c : F32} (ha : laneVal a ≠ 0) (hb : laneVal b ≠ 0)
    (h : laneVal a * laneVal b + laneVal c * 2 ^ 149 = 0) :
    ((laneNegative a != laneNegative b) && laneNegative c) = false := by
  have hproduct := mul_ne_zero ha hb
  have hc : laneVal c ≠ 0 := by
    intro hc
    rw [hc, zero_mul, add_zero] at h
    exact hproduct h
  rw [productNegative_of_ne ha hb, laneNegative_of_laneVal_ne hc, Bool.and_eq_false_imp, decide_eq_true_eq,
    decide_eq_false_iff_not]
  omega

/-- Settles O57: an exact zero comes out as +0.0 but where the product and the addend are both negative, and there
they are zeros. -/
theorem exactZeroSumsAreSigned : Obligations.ExactZeroSumsAreSigned := by
  unfold Obligations.ExactZeroSumsAreSigned
  intro n a b c ha hb hc hsum
  have hexact : laneVal a * laneVal b + laneVal c * 2 ^ 149 = 0 := by
    rw [laneReal_mul_add_eq, div_eq_zero_iff, or_iff_left (by positivity), Int.cast_eq_zero] at hsum
    exact hsum
  rw [laneFma_finite n ha hb hc, hexact, fl_zero]
  by_cases hproduct : laneVal a = 0 ∨ laneVal b = 0
  · have hzero : (isZero a || isZero b) = true := by
      rwa [Bool.or_eq_true, ← laneVal_eq_zero_iff, ← laneVal_eq_zero_iff]
    have hc0 : isZero c = true := by
      rw [mul_eq_zero.2 hproduct, zero_add, mul_eq_zero, or_iff_left (by positivity)] at hexact
      rwa [← laneVal_eq_zero_iff]
    rw [hzero, hc0, Bool.true_and, Bool.true_and]
    cases (laneNegative a != laneNegative b) && laneNegative c <;> rfl
  · obtain ⟨ha0, hb0⟩ := not_or.1 hproduct
    have hfalse := not_both_negative_of_cancel ha0 hb0 hexact
    rw [hfalse, Bool.and_assoc, hfalse, Bool.and_false]
    rfl

/-! ### Special operands -/

/-- The mode leaves a value that is not subnormal (R95). -/
theorem flushSubnormal_of_not_subnormal (m : SubnormalMode) {a : F32} (h : isSubnormal a = false) :
    flushSubnormal m a = a := by
  unfold flushSubnormal
  rw [h, if_neg Bool.false_ne_true]

theorem isSubnormal_of_isInf {a : F32} (h : isInf a = true) : isSubnormal a = false := by
  simp only [isInf, Bool.and_eq_true, beq_iff_eq] at h
  simp [isSubnormal, h.1]

theorem isSubnormal_of_isNaN {a : F32} (h : isNaN a = true) : isSubnormal a = false := by
  simp only [isNaN, Bool.and_eq_true, beq_iff_eq] at h
  simp [isSubnormal, h.1]

theorem isSubnormal_of_isZero {a : F32} (h : isZero a = true) : isSubnormal a = false := by
  simp only [isZero, Bool.and_eq_true, beq_iff_eq] at h
  simp [isSubnormal, h.2]

theorem isNaN_of_isInf {a : F32} (h : isInf a = true) : isNaN a = false := by
  simp only [isInf, Bool.and_eq_true, beq_iff_eq] at h
  simp [isNaN, h.2]

theorem isNaN_iff_low (a : F32) : isNaN a = true ↔ 0x7F800000 < a.toNat % 0x80000000 := by
  simp only [isNaN, laneExp, laneFrac, Bool.and_eq_true, beq_iff_eq, bne_iff_ne]
  omega

theorem isInf_iff_low (a : F32) : isInf a = true ↔ a.toNat % 0x80000000 = 0x7F800000 := by
  simp only [isInf, laneExp, laneFrac, Bool.and_eq_true, beq_iff_eq]
  omega

@[simp] theorem isNaN_laneNeg (a : F32) : isNaN (laneNeg a) = isNaN a := by
  rw [Bool.eq_iff_iff, isNaN_iff_low, isNaN_iff_low, laneNeg_low]

@[simp] theorem isInf_laneNeg (a : F32) : isInf (laneNeg a) = isInf a := by
  rw [Bool.eq_iff_iff, isInf_iff_low, isInf_iff_low, laneNeg_low]

@[simp] theorem isInf_signedInf (neg : Bool) : isInf (signedInf neg) = true := by
  cases neg <;> decide

/-- A difference of equal infinities is a NaN (R92). -/
theorem laneSub_inf_self (m : SubnormalMode) (n : NaN32) {a : F32} (h : isInf a = true) :
    laneSub m n a a = nanBits n := by
  have hneg : isInf (laneNeg a) = true := by rwa [isInf_laneNeg]
  simp [laneSub, laneAdd, flushSubnormal_of_not_subnormal m (isSubnormal_of_isInf h),
    flushSubnormal_of_not_subnormal m (isSubnormal_of_isInf hneg), isNaN_of_isInf h, h, laneNegative_laneNeg]

/-- A quotient of infinities is a NaN (R92). -/
theorem laneDiv_inf_inf (m : SubnormalMode) (n : NaN32) {a b : F32} (ha : isInf a = true) (hb : isInf b = true) :
    laneDiv m n a b = nanBits n := by
  simp [laneDiv, flushSubnormal_of_not_subnormal m (isSubnormal_of_isInf ha),
    flushSubnormal_of_not_subnormal m (isSubnormal_of_isInf hb), ha, hb]

/-- A product of a zero and an infinity, in either order, is a NaN (R92). -/
theorem laneMul_zero_inf (m : SubnormalMode) (n : NaN32) {a b : F32} (ha : isZero a = true) (hb : isInf b = true) :
    laneMul m n a b = nanBits n ∧ laneMul m n b a = nanBits n := by
  constructor <;>
    simp [laneMul, flushSubnormal_of_not_subnormal m (isSubnormal_of_isZero ha),
      flushSubnormal_of_not_subnormal m (isSubnormal_of_isInf hb), ha, hb]

/-- The quotient of two zeros is a NaN (R92). -/
theorem laneDiv_zero_zero (m : SubnormalMode) (n : NaN32) {a b : F32} (ha : isZero a = true) (hb : isZero b = true) :
    laneDiv m n a b = nanBits n := by
  simp [laneDiv, flushSubnormal_of_not_subnormal m (isSubnormal_of_isZero ha),
    flushSubnormal_of_not_subnormal m (isSubnormal_of_isZero hb), isInf_of_isFinite (isFinite_of_isZero ha),
    isInf_of_isFinite (isFinite_of_isZero hb), ha, hb]

/-- A finite value that the mode leaves other than zero, divided by a zero, is an infinity (R92). -/
theorem laneDiv_by_zero (m : SubnormalMode) (n : NaN32) {a b : F32} (hf : isFinite a = true) (h0 : isZero a = false)
    (hs : isSubnormal a = false) (hb : isZero b = true) :
    laneDiv m n a b = signedInf (laneNegative a != laneNegative b) := by
  simp [laneDiv, flushSubnormal_of_not_subnormal m hs, flushSubnormal_of_not_subnormal m (isSubnormal_of_isZero hb),
    isNaN_of_isFinite hf, isInf_of_isFinite hf, isNaN_of_isFinite (isFinite_of_isZero hb),
    isInf_of_isFinite (isFinite_of_isZero hb), h0, hb]

theorem laneSub_nan (m : SubnormalMode) (n : NaN32) (a b : F32) (h : isNaN a = true ∨ isNaN b = true) :
    laneSub m n a b = nanBits n :=
  laneAdd_nan m n a (laneNeg b) (by rwa [isNaN_laneNeg])

/-- Settles O58, case by case. -/
theorem specialOperands : Obligations.SpecialOperands := by
  unfold Obligations.SpecialOperands
  intro m n a b c
  refine ⟨fun h => ?nan, fun h => ?fma, fun h => ?infinities, fun ha hb => ?product, fun ha hb => ?zeros,
    fun hf h0 hs hb => ?quotient⟩
  case nan => rw [laneAdd_nan m n a b h, laneSub_nan m n a b h, laneMul_nan m n a b h, laneDiv_nan m n a b h]; simp
  case fma => rw [laneFma_nan m n a b c h, isNaN_nanBits]
  case infinities => rw [laneSub_inf_self m n h, laneDiv_inf_inf m n h h]; simp
  case product => rw [(laneMul_zero_inf m n ha hb).1, (laneMul_zero_inf m n ha hb).2]; simp
  case zeros => rw [laneDiv_zero_zero m n ha hb, isNaN_nanBits]
  case quotient => rw [laneDiv_by_zero m n hf h0 hs hb, isInf_signedInf]

/-! ### Flushing (R95) -/

theorem isSubnormal_nanBits (n : NaN32) : isSubnormal (nanBits n) = false := isSubnormal_of_isNaN (isNaN_nanBits n)

theorem isSubnormal_signedInf (neg : Bool) : isSubnormal (signedInf neg) = false :=
  isSubnormal_of_isInf (isInf_signedInf neg)

theorem isSubnormal_signedZero (neg : Bool) : isSubnormal (signedZero neg) = false :=
  isSubnormal_of_isZero (isZero_signedZero neg)

theorem isSubnormal_ite {c : Prop} [Decidable c] {a b : F32} (ha : isSubnormal a = false)
    (hb : isSubnormal b = false) : isSubnormal (if c then a else b) = false := by
  split
  · exact ha
  · exact hb

theorem isSubnormal_laneAdd (n : NaN32) (a b : F32) : isSubnormal (laneAdd .ftzDaz n a b) = false :=
  isSubnormal_ite (isSubnormal_nanBits n)
    (isSubnormal_ite (isSubnormal_ite (isSubnormal_nanBits n) (flushSubnormal_not_subnormal a))
      (isSubnormal_ite (flushSubnormal_not_subnormal b) (flushSubnormal_not_subnormal _)))

theorem isSubnormal_laneMul (n : NaN32) (a b : F32) : isSubnormal (laneMul .ftzDaz n a b) = false :=
  isSubnormal_ite (isSubnormal_nanBits n)
    (isSubnormal_ite (isSubnormal_ite (isSubnormal_nanBits n) (isSubnormal_signedInf _))
      (flushSubnormal_not_subnormal _))

theorem isSubnormal_laneDiv (n : NaN32) (a b : F32) : isSubnormal (laneDiv .ftzDaz n a b) = false :=
  isSubnormal_ite (isSubnormal_nanBits n)
    (isSubnormal_ite (isSubnormal_ite (isSubnormal_nanBits n) (isSubnormal_signedInf _))
      (isSubnormal_ite (isSubnormal_signedZero _)
        (isSubnormal_ite (isSubnormal_ite (isSubnormal_nanBits n) (isSubnormal_signedInf _))
          (flushSubnormal_not_subnormal _))))

theorem isSubnormal_laneFma (n : NaN32) (a b c : F32) : isSubnormal (laneFma .ftzDaz n a b c) = false :=
  isSubnormal_ite (isSubnormal_nanBits n)
    (isSubnormal_ite (isSubnormal_ite (isSubnormal_nanBits n) (isSubnormal_signedInf _))
      (isSubnormal_ite (flushSubnormal_not_subnormal c) (flushSubnormal_not_subnormal _)))

/-- Two operands that the mode reads as the same value (R95). -/
def ReadsSame (m : SubnormalMode) (a b : F32) : Prop := flushSubnormal m a = flushSubnormal m b

theorem readsSame_refl (m : SubnormalMode) (a : F32) : ReadsSame m a a := rfl

/-- A subnormal is read as the zero of its sign. -/
theorem readsSame_signedZero {a : F32} (h : isSubnormal a = true) :
    ReadsSame .ftzDaz a (signedZero (laneNegative a)) := by
  unfold ReadsSame
  rw [flushSubnormal_of_not_subnormal _ (isSubnormal_signedZero _)]
  unfold flushSubnormal
  rw [if_pos h]

theorem isSubnormal_laneNeg (a : F32) : isSubnormal (laneNeg a) = isSubnormal a := by
  have hlow (b : F32) : isSubnormal b = true ↔ 0 < b.toNat % 0x80000000 ∧ b.toNat % 0x80000000 < 0x800000 := by
    simp only [isSubnormal, laneExp, laneFrac, Bool.and_eq_true, beq_iff_eq, bne_iff_ne]
    omega
  rw [Bool.eq_iff_iff, hlow, hlow, laneNeg_low]

theorem laneNeg_signedZero (neg : Bool) : laneNeg (signedZero neg) = signedZero (!neg) := by
  cases neg <;> decide

/-- A negated subnormal is read as the zero of the other sign. -/
theorem readsSame_laneNeg {a : F32} (h : isSubnormal a = true) :
    ReadsSame .ftzDaz (laneNeg a) (laneNeg (signedZero (laneNegative a))) := by
  rw [laneNeg_signedZero, ← laneNegative_laneNeg]
  exact readsSame_signedZero (by rwa [isSubnormal_laneNeg])

section ReadsSame

variable {m : SubnormalMode} (n : NaN32) {a a' b b' c c' : F32}

theorem laneAdd_congr (ha : ReadsSame m a a') (hb : ReadsSame m b b') : laneAdd m n a b = laneAdd m n a' b' := by
  unfold laneAdd
  rw [ha, hb]

theorem laneMul_congr (ha : ReadsSame m a a') (hb : ReadsSame m b b') : laneMul m n a b = laneMul m n a' b' := by
  unfold laneMul
  rw [ha, hb]

theorem laneDiv_congr (ha : ReadsSame m a a') (hb : ReadsSame m b b') : laneDiv m n a b = laneDiv m n a' b' := by
  unfold laneDiv
  rw [ha, hb]

theorem laneFma_congr (ha : ReadsSame m a a') (hb : ReadsSame m b b') (hc : ReadsSame m c c') :
    laneFma m n a b c = laneFma m n a' b' c' := by
  unfold laneFma
  rw [ha, hb, hc]

end ReadsSame

/-- Settles O59: every result is a NaN, an infinity, a zero or a flushed value, and every operand is read through
the flush. -/
theorem flushModeNeverSeesSubnormals : Obligations.FlushModeNeverSeesSubnormals := by
  unfold Obligations.FlushModeNeverSeesSubnormals
  intro n a b c
  have hb := readsSame_refl .ftzDaz b
  have hc := readsSame_refl .ftzDaz c
  refine ⟨isSubnormal_laneAdd n a b, isSubnormal_laneAdd n a (laneNeg b), isSubnormal_laneMul n a b,
    isSubnormal_laneDiv n a b, isSubnormal_laneFma n a b c, fun h => ?_⟩
  have ha := readsSame_signedZero h
  exact ⟨laneAdd_congr n ha hb, laneAdd_congr n hb ha, laneAdd_congr n ha (readsSame_refl _ (laneNeg b)),
    laneAdd_congr n hb (readsSame_laneNeg h), laneMul_congr n ha hb, laneMul_congr n hb ha, laneDiv_congr n ha hb,
    laneDiv_congr n hb ha, laneFma_congr n ha hb hc, laneFma_congr n hb ha hc, laneFma_congr n hb hc ha⟩

end Sys2Proof.Machine
end

section
/-! FIR_STEP and FIR_CLEAR (R97 to R105). Each lane of an output is one sum over 121 taps and the window of the
filter, the inputs 0 to 120 steps old: what is said of that sum is said once, and holds in both lanes. -/

namespace Sys2Proof.Machine

open Sys2Proof.Config

/-! ### The entries of the delay line -/

/-- The entry k behind the cursor p (R97). -/
def historyAt (hist : DelayLine) (p : Fin L) (k : Nat) : Pair := hist[historyIndex p k]

theorem historyIndex_zero (p : Fin L) : historyIndex p 0 = p := sub_zero p

/-- Behind the advanced cursor every entry is one step older. -/
theorem historyIndex_nextCursor (p : Fin L) (k : Nat) : historyIndex (nextCursor p) (k + 1) = historyIndex p k := by
  have hsucc : Fin.ofNat L (k + 1) = Fin.ofNat L k + 1 := by
    apply Fin.ext
    simp [Fin.val_add]
  rw [historyIndex, nextCursor, hsucc, add_sub_add_right_eq_sub]
  rfl

/-- Fewer than 128 steps do not lead around the delay line. -/
theorem historyIndex_ne (p : Fin L) {j k : Nat} (hj : j < 128) (hk : k < 128) (h : j ≠ k) :
    historyIndex p j ≠ historyIndex p k := by
  intro e
  have hval := congrArg Fin.val e
  rw [historyIndex_val p j hj.le, historyIndex_val p k hk.le] at hval
  omega

/-- Writing an entry leaves every other one. -/
theorem historyAt_set_other (hist : DelayLine) (p : Fin L) {q : Fin L} (x : Pair) {k : Nat}
    (h : historyIndex p k ≠ q) : historyAt (hist.set q x) p k = historyAt hist p k := by
  have hval : q.val ≠ (historyIndex p k).val := fun e => h (Fin.ext e.symm)
  simp [historyAt, hval]

/-- After the input is written and the cursor advanced, it is the entry 1 behind, and every other entry is one step
older (R97). -/
theorem historyAt_write (hist : DelayLine) (p : Fin L) (x : Pair) {k : Nat} (hk : k < 128) :
    historyAt (hist.set p x) (nextCursor p) (k + 1) = if k = 0 then x else historyAt hist p k := by
  have hstep : historyAt (hist.set p x) (nextCursor p) (k + 1) = historyAt (hist.set p x) p k :=
    congrArg (fun q : Fin L => (hist.set p x)[q]) (historyIndex_nextCursor p k)
  rw [hstep]
  split_ifs with h
  · subst h
    simp [historyAt, historyIndex_zero]
  · have hne := historyIndex_ne p hk (by norm_num) h
    rw [historyIndex_zero] at hne
    exact historyAt_set_other hist p x hne

/-! ### FIR_STEP -/

theorem vector_getD_eq {n i : Nat} (v : Vector Pair n) (k : Fin n) (h : k.val = i) : v[i]?.getD zeroPair = v[k] := by
  subst h
  simp

/-- The sum of R97 with the entries of the rule. -/
theorem convolve_eq_tapSum (P : Params) (d : Nat) (K : Kernel) (hist : DelayLine) (p : Fin L) (x : Pair) :
    convolve P d K hist p x =
      (List.range 120).foldl
        (fun acc j =>
          streamFma P (d + 2 * (j + 1)) (K[j + 1]?.getD zeroPair) (hist[(p.val + 128 - (j + 1)) % 128]?.getD zeroPair)
            acc)
        (streamMul P d K[0] x) := by
  rw [convolve, laterTaps_eq, List.foldl_map]
  refine List.foldl_ext _ _ _ fun acc j hj => ?_
  have hj120 := List.mem_range.1 hj
  have htap : (Fin.ofNat F (j + 1)).val = j + 1 := Nat.mod_eq_of_lt (show j + 1 < 121 by omega)
  rw [vector_getD_eq K _ htap, vector_getD_eq hist _ (historyIndex_val p (j + 1) (by omega))]
  simp only [htap]

/-- Settles O45: the sum by its taps, the rest by the frame of FIR_STEP. -/
theorem firStepIsTheTapSum : Obligations.FirStepIsTheTapSum := by
  unfold Obligations.FirStepIsTheTapSum
  intro P b x s
  refine ⟨(firStep P b x s).2, Prod.ext ?_ rfl, firStep_dl_at P b x s, ?_, fun c hc => firStep_other P b c x s hc,
    rfl, rfl, rfl, rfl, rfl, ⟨rfl, rfl, rfl⟩, rfl, rfl, firStep_draws P b x s⟩
  · rw [firStep_output, convolve_eq_tapSum]
  · rw [firStep_cur_at, nextCursor_val]

/-! ### The history of a slot -/

/-- The entry k behind the cursor of slot b. -/
def slotHistory (b : Fin NSLOT) (s : State) (k : Nat) : Pair := historyAt s.dl[b] s.cur[b] k

theorem slotHistory_firStep (P : Params) (b : Fin NSLOT) (x : Pair) (s : State) {k : Nat} (hk : k < 128) :
    slotHistory b (firStep P b x s).2 (k + 1) = if k = 0 then x else slotHistory b s k := by
  unfold slotHistory
  rw [firStep_dl_at, firStep_cur_at, historyAt_write _ _ _ hk]

theorem slotHistory_firClear (b : Fin NSLOT) (s : State) (k : Nat) : slotHistory b (firClear b s) k = zeroPair := by
  simp [slotHistory, historyAt, firClear, clearLine]

/-- The input k steps before the n-th, or ZERO where there was none (R98). -/
def pastInput (xs : List Pair) (n k : Nat) : Pair := if k ≤ n then xs[n - k]?.getD zeroPair else zeroPair

/-- One input more makes every input one step older. -/
theorem pastInput_append (xs : List Pair) (x : Pair) (k : Nat) :
    pastInput (xs ++ [x]) (xs.length + 1) (k + 1) = if k = 0 then x else pastInput xs xs.length k := by
  unfold pastInput
  simp only [Nat.add_sub_add_right, Nat.add_le_add_iff_right]
  rcases Nat.eq_zero_or_pos k with rfl | hk
  · simp
  · rw [if_neg hk.ne']
    split_ifs with hle
    · rw [List.getElem?_append_left (by omega)]
    · rfl

/-- After a clear and any inputs the line holds the inputs behind the cursor, by induction on the inputs (R98). -/
theorem slotHistory_feed (P : Params) (b : Fin NSLOT) (s : State) (xs : List Pair) {k : Nat} (h1 : 1 ≤ k)
    (hk : k ≤ 128) : slotHistory b (feed P b xs (firClear b s)) k = pastInput xs xs.length k := by
  induction xs using List.reverseRecOn generalizing k with
  | nil =>
    have hnone : ¬ k ≤ 0 := Nat.not_le.2 h1
    exact (slotHistory_firClear b s k).trans (if_neg hnone).symm
  | append_singleton xs x ih =>
    obtain ⟨k, rfl⟩ := Nat.exists_eq_add_of_le' h1
    rw [feed_append, slotHistory_firStep P b x _ (by omega), List.length_append, List.length_singleton,
      pastInput_append]
    split_ifs with h
    · rfl
    · exact ih (Nat.pos_of_ne_zero h) (by omega)

/-- Settles O46: the entries read are among the 128 behind the cursor. -/
theorem delayLineHoldsTheHistory : Obligations.DelayLineHoldsTheHistory :=
  fun P b s xs _ h1 hk => slotHistory_feed P b s xs h1 (by omega)

/-! ### The two-range split -/

theorem splitHistory_eq (hist : DelayLine) (p : Fin L) :
    splitHistory hist p = ((hist.toList.take p.val).reverse ++ (hist.toList.drop p.val).reverse).take 120 := rfl

/-- Settles O47, entry by entry: below p the run that ends at the cursor, from p on the wrapped tail. -/
theorem twoRangeSplitReadsTheSameEntries : Obligations.TwoRangeSplitReadsTheSameEntries := by
  unfold Obligations.TwoRangeSplitReadsTheSameEntries
  intro hist p
  have hp : p.val < 128 := p.isLt
  have hrun : (hist.toList.take p.val).length = p.val := by rw [List.length_take, Vector.length_toList]; omega
  have htail : (hist.toList.drop p.val).length = 128 - p.val := by rw [List.length_drop, Vector.length_toList]
  rw [splitHistory_eq]
  refine List.ext_getElem ?_ fun i _ hi => ?_
  · rw [List.length_take, List.length_append, List.length_reverse, List.length_reverse, hrun, htail, List.length_map,
      List.length_range']
    omega
  · rw [List.length_map, List.length_range'] at hi
    have hindex := historyIndex_val p (i + 1) (by omega)
    simp only [List.getElem_map, List.getElem_range', one_mul, Nat.add_comm 1 i, List.getElem_take, Fin.getElem_fin,
      hindex]
    rcases Nat.lt_or_ge i p.val with h | h
    · rw [List.getElem_append_left (by rw [List.length_reverse]; omega), List.getElem_reverse, List.getElem_take,
        Vector.getElem_toList]
      exact getElem_congr_idx (by omega)
    · rw [List.getElem_append_right (by rw [List.length_reverse]; omega), List.getElem_reverse, List.getElem_drop,
        Vector.getElem_toList]
      refine getElem_congr_idx ?_
      rw [List.length_reverse]
      omega

/-! ### One lane of the sum -/

/-- The two lanes of a sample pair (R11). -/
inductive Lane where
  | l
  | r

/-- The value of a pair in a lane. -/
def laneOf (i : Lane) (x : Pair) : F32 :=
  match i with
  | .l => x.l
  | .r => x.r

theorem pair_ext_lane {x y : Pair} (h : ∀ i, laneOf i x = laneOf i y) : x = y := by
  cases x
  cases y
  exact congrArg₂ Pair.mk (h .l) (h .r)

/-- The pair that tap k of a step weights: the live input, or the entry k behind the cursor (R97). -/
def window (hist : DelayLine) (p : Fin L) (x : Pair) (k : Fin F) : Pair :=
  if k = 0 then x else historyAt hist p k.val

theorem mem_laterTaps (k : Fin F) : k ∈ laterTaps ↔ k ≠ 0 := by
  rw [laterTaps, List.finRange_succ, List.drop_one, List.tail_cons, List.mem_map]
  simp only [List.mem_finRange, true_and]
  exact Fin.exists_succ_eq

theorem laterTaps_nodup : laterTaps.Nodup := (List.nodup_finRange F).sublist (List.drop_sublist 1 _)

theorem window_of_mem_laterTaps (hist : DelayLine) (p : Fin L) (x : Pair) {k : Fin F} (hk : k ∈ laterTaps) :
    window hist p x k = historyAt hist p k.val :=
  if_neg ((mem_laterTaps k).1 hk)

/-- The NaN that the operation of tap k draws in a lane, at j = 2k: lane r has the index after lane l's. -/
def laneDraw (i : Lane) (P : Params) (d j : Nat) : NaN32 :=
  match i with
  | .l => P.streamNaN (d + j)
  | .r => P.streamNaN (d + j + 1)

/-- One turn of the sum of R97 in one lane. -/
def laneTurn (m : SubnormalMode) (draw : Nat → NaN32) (taps line : Fin F → F32) (acc : F32) (k : Fin F) : F32 :=
  laneFma m (draw (2 * k.val)) (taps k) (line k) acc

/-- The sum of R97 in one lane, over its taps and its window, with the draws of its NaNs. -/
def laneTapSum (m : SubnormalMode) (draw : Nat → NaN32) (taps line : Fin F → F32) : F32 :=
  laterTaps.foldl (laneTurn m draw taps line) (laneMul m (draw 0) (taps 0) (line 0))

theorem laneOf_streamMul (i : Lane) (P : Params) (d : Nat) (a b : Pair) :
    laneOf i (streamMul P d a b) = laneMul P.arith.subnormal (laneDraw i P d 0) (laneOf i a) (laneOf i b) := by
  rw [streamMul_eq]
  cases i <;> rfl

theorem laneOf_streamFma (i : Lane) (P : Params) (d j : Nat) (a b c : Pair) :
    laneOf i (streamFma P (d + j) a b c) =
      laneFma P.arith.subnormal (laneDraw i P d j) (laneOf i a) (laneOf i b) (laneOf i c) := by
  rw [streamFma_eq]
  cases i <;> rfl

/-- Nothing crosses between the lanes (R96). -/
theorem laneOf_convolve (i : Lane) (P : Params) (d : Nat) (K : Kernel) (hist : DelayLine) (p : Fin L) (x : Pair) :
    laneOf i (convolve P d K hist p x) =
      laneTapSum P.arith.subnormal (laneDraw i P d) (fun k => laneOf i K[k])
        (fun k => laneOf i (window hist p x k)) := by
  have hturn (acc : Pair) (k : Fin F) (hk : k ∈ laterTaps) :
      laneOf i (streamFma P (d + 2 * k.val) K[k] hist[historyIndex p k.val] acc) =
        laneTurn P.arith.subnormal (laneDraw i P d) (fun k => laneOf i K[k])
          (fun k => laneOf i (window hist p x k)) (laneOf i acc) k := by
    rw [laneOf_streamFma, laneTurn, window_of_mem_laterTaps hist p x hk]
    rfl
  rw [convolve, laneTapSum, ← laneOf_streamMul]
  exact List.foldl_rel (r := fun acc acc' => laneOf i acc = acc') rfl fun k hk acc acc' h => by
    rw [hturn acc k hk, h]

theorem convolve_lane_congr (i : Lane) (P : Params) (d : Nat) {K K' : Kernel} {hist hist' : DelayLine} {p : Fin L}
    {x x' : Pair} (hK : ∀ k : Fin F, laneOf i K[k] = laneOf i K'[k])
    (hline : ∀ k, laneOf i (window hist p x k) = laneOf i (window hist' p x' k)) :
    laneOf i (convolve P d K hist p x) = laneOf i (convolve P d K' hist' p x') := by
  rw [laneOf_convolve, laneOf_convolve, funext hK, funext hline]

/-- The window of a lane is made of the line and the input of that lane. -/
theorem window_lane_congr (i : Lane) {hist hist' : DelayLine} (p : Fin L) {x x' : Pair}
    (hhist : ∀ j : Fin L, laneOf i hist[j] = laneOf i hist'[j]) (hx : laneOf i x = laneOf i x') (k : Fin F) :
    laneOf i (window hist p x k) = laneOf i (window hist' p x' k) := by
  unfold window
  split_ifs
  · exact hx
  · exact hhist _

/-- Settles O49: lane l and lane r by the same lemma. -/
theorem lanesDoNotMix : Obligations.LanesDoNotMix := by
  unfold Obligations.LanesDoNotMix
  intro P d K K' hist hist' p x x'
  exact ⟨fun hK hhist hx => convolve_lane_congr .l P d hK (window_lane_congr .l p hhist hx),
    fun hK hhist hx => convolve_lane_congr .r P d hK (window_lane_congr .r p hhist hx)⟩

/-- The entries of R100 are those 0 or 121 to 127 behind the cursor. -/
theorem unread_entry {p q : Fin L} (h : q = p ∨ ∃ k, 121 ≤ k ∧ k ≤ 127 ∧ q.val = (p.val + 128 - k) % 128) :
    ∃ j, j < 128 ∧ (j = 0 ∨ 121 ≤ j) ∧ q = historyIndex p j := by
  rcases h with rfl | ⟨j, h121, h127, hval⟩
  · exact ⟨0, by norm_num, .inl rfl, (historyIndex_zero q).symm⟩
  · exact ⟨j, by omega, .inr h121, Fin.ext (hval.trans (historyIndex_val p j (by omega)).symm)⟩

/-- Writing an entry of R100 leaves the window. -/
theorem window_set_unread (hist : DelayLine) (p : Fin L) (x y : Pair) {j : Nat} (hj : j < 128) (hfar : j = 0 ∨ 121 ≤ j)
    (k : Fin F) : window (hist.set (historyIndex p j) y) p x k = window hist p x k := by
  have hk : k.val < 121 := k.isLt
  unfold window
  split_ifs with h0
  · rfl
  · have hpos : k.val ≠ 0 := fun e => h0 (Fin.ext e)
    exact historyAt_set_other hist p y (historyIndex_ne p (by omega) hj (by omega))

/-- Settles O48: an output reads its window alone. -/
theorem eightEntriesAreNeverRead : Obligations.EightEntriesAreNeverRead := by
  unfold Obligations.EightEntriesAreNeverRead
  intro P d K hist p q x y hq
  obtain ⟨j, hj, hfar, rfl⟩ := unread_entry hq
  exact pair_ext_lane fun i => convolve_lane_congr i P d (fun _ => rfl) fun k =>
    congrArg (laneOf i) (window_set_unread hist p x y hj hfar k)

/-! ### NaN -/

/-- A NaN accumulator, or a NaN of the window that is still to come, makes the sum a NaN, by induction on the taps
still to come (R94). -/
theorem isNaN_foldl_laneTurn (m : SubnormalMode) (draw : Nat → NaN32) (taps line : Fin F → F32) (ks : List (Fin F))
    (acc : F32) (h : isNaN acc = true ∨ ∃ k ∈ ks, isNaN (line k) = true) :
    isNaN (ks.foldl (laneTurn m draw taps line) acc) = true := by
  induction ks generalizing acc with
  | nil => simpa using h
  | cons k ks ih =>
    refine ih _ ?_
    by_cases hk : isNaN acc = true ∨ isNaN (line k) = true
    · refine .inl ?_
      rw [laneTurn, laneFma_nan _ _ _ _ _ (.inr hk.symm), isNaN_nanBits]
    · obtain ⟨hacc, hline⟩ := not_or.1 hk
      obtain ⟨j, hj, hnan⟩ := h.resolve_left hacc
      refine .inr ⟨j, (List.mem_cons.1 hj).resolve_left ?_, hnan⟩
      rintro rfl
      exact hline hnan

theorem isNaN_laneTapSum (m : SubnormalMode) (draw : Nat → NaN32) (taps line : Fin F → F32) (k : Fin F)
    (h : isNaN (line k) = true) : isNaN (laneTapSum m draw taps line) = true := by
  refine isNaN_foldl_laneTurn m draw taps line laterTaps _ ?_
  by_cases hk : k = 0
  · subst hk
    refine .inl ?_
    rw [laneMul_nan _ _ _ _ (.inr h), isNaN_nanBits]
  · exact .inr ⟨k, (mem_laterTaps k).2 hk, h⟩

theorem isNaN_convolve (i : Lane) (P : Params) (d : Nat) (K : Kernel) (hist : DelayLine) (p : Fin L) (x : Pair)
    (h : isNaN (laneOf i x) = true ∨ ∃ k, 1 ≤ k ∧ k ≤ 120 ∧ isNaN (laneOf i hist[historyIndex p k]) = true) :
    isNaN (laneOf i (convolve P d K hist p x)) = true := by
  rw [laneOf_convolve]
  rcases h with hx | ⟨k, h1, h120, hk⟩
  · exact isNaN_laneTapSum _ _ _ _ 0 hx
  · have hlt : k < 121 := by omega
    refine isNaN_laneTapSum _ _ _ _ ⟨k, hlt⟩ ?_
    have hne : (⟨k, hlt⟩ : Fin F) ≠ 0 := fun e => by
      have hval : k = 0 := congrArg Fin.val e
      omega
    rw [window, if_neg hne]
    exact hk

/-- Settles O50: the live input and the 120 entries make up the window. -/
theorem naNReachesTheOutput : Obligations.NaNReachesTheOutput :=
  fun P d K hist p x => ⟨isNaN_convolve .l P d K hist p x, isNaN_convolve .r P d K hist p x⟩

/-! ### A sum with one product -/

/-- The value y is finite and stands for the number v. -/
def StandsFor (v : Int) (y : F32) : Prop := isFinite y = true ∧ laneVal y = v

/-- A rounding of a number that the finite value v stands for (R92). -/
theorem fl_standsFor {v : F32} (hv : isFinite v = true) (z : Bool) :
    StandsFor (laneVal v) (fl .ieee (laneVal v * 2 ^ 149) 149 z) := by
  by_cases h0 : isZero v = true
  · have hval := (laneVal_eq_zero_iff v).2 h0
    have hzero := isZero_signedZero z
    rw [hval, zero_mul, fl_zero]
    exact ⟨isFinite_of_isZero hzero, (laneVal_eq_zero_iff _).2 hzero⟩
  · rw [fl_exact v 149 z hv (by norm_num) fun h => absurd h h0]
    exact ⟨hv, rfl⟩

/-- A product that a finite value stands for exactly. -/
theorem laneMul_standsFor (n : NaN32) {a b v : F32} (ha : isFinite a = true) (hb : isFinite b = true)
    (hv : isFinite v = true) (h : laneVal a * laneVal b = laneVal v * 2 ^ 149) :
    StandsFor (laneVal v) (laneMul .ieee n a b) := by
  rw [laneMul_finite n ha hb, h]
  exact fl_standsFor hv _

/-- A fused multiply-add that a finite value stands for exactly. -/
theorem laneFma_standsFor (n : NaN32) {a b c v : F32} (ha : isFinite a = true) (hb : isFinite b = true)
    (hc : isFinite c = true) (hv : isFinite v = true)
    (h : laneVal a * laneVal b + laneVal c * 2 ^ 149 = laneVal v * 2 ^ 149) :
    StandsFor (laneVal v) (laneFma .ieee n a b c) := by
  rw [laneFma_finite n ha hb hc, h]
  exact fl_standsFor hv _

/-- A finite kernel on a finite window, in one lane, of which every product but that of tap j is a zero, and that of
tap j is the number of the finite value v. -/
structure OneProduct (taps line : Fin F → F32) (j : Fin F) (v : F32) : Prop where
  taps_finite : ∀ k, isFinite (taps k) = true
  line_finite : ∀ k, isFinite (line k) = true
  value_finite : isFinite v = true
  live : laneVal (taps j) * laneVal (line j) = laneVal v * 2 ^ 149
  dead : ∀ k, k ≠ j → laneVal (taps k) * laneVal (line k) = 0

theorem isFinite_zeroBits : isFinite zeroBits = true := by decide

theorem laneVal_zeroBits : laneVal zeroBits = 0 := (laneVal_eq_zero_iff zeroBits).2 (by decide)

/-- The running sum is zero until the live tap and the number of v from there on, by induction on the taps still to
come. -/
theorem foldl_laneTurn_standsFor (draw : Nat → NaN32) {taps line : Fin F → F32} {j : Fin F} {v : F32}
    (h : OneProduct taps line j v) (ks : List (Fin F)) (hks : ks.Nodup) (acc : F32)
    (hacc : StandsFor (if j ∈ ks then 0 else laneVal v) acc) :
    StandsFor (laneVal v) (ks.foldl (laneTurn .ieee draw taps line) acc) := by
  induction ks generalizing acc with
  | nil => simpa using hacc
  | cons k ks ih =>
    obtain ⟨hk, hrest⟩ := List.nodup_cons.1 hks
    obtain ⟨hfinite, hval⟩ := hacc
    refine ih hrest _ ?_
    rcases eq_or_ne k j with rfl | hne
    · rw [if_neg hk]
      rw [if_pos List.mem_cons_self] at hval
      exact laneFma_standsFor _ (h.taps_finite k) (h.line_finite k) hfinite h.value_finite
        (by rw [hval, zero_mul, add_zero, h.live])
    · have hmem : j ∈ k :: ks ↔ j ∈ ks := by simp [hne.symm]
      simp only [hmem] at hval
      rw [← hval]
      exact laneFma_standsFor _ (h.taps_finite k) (h.line_finite k) hfinite hfinite (by rw [h.dead k hne, zero_add])

theorem laneTapSum_standsFor (draw : Nat → NaN32) {taps line : Fin F → F32} {j : Fin F} {v : F32}
    (h : OneProduct taps line j v) : StandsFor (laneVal v) (laneTapSum .ieee draw taps line) := by
  refine foldl_laneTurn_standsFor draw h laterTaps laterTaps_nodup _ ?_
  rcases eq_or_ne j 0 with rfl | hne
  · rw [if_neg fun hmem => (mem_laterTaps 0).1 hmem rfl]
    exact laneMul_standsFor _ (h.taps_finite 0) (h.line_finite 0) h.value_finite h.live
  · rw [if_pos ((mem_laterTaps j).2 hne), ← laneVal_zeroBits]
    exact laneMul_standsFor _ (h.taps_finite 0) (h.line_finite 0) isFinite_zeroBits
      (by rw [h.dead 0 hne.symm, laneVal_zeroBits, zero_mul])

/-! ### The outputs of a filter after a clear -/

theorem feed_coef (P : Params) (b : Fin NSLOT) (xs : List Pair) (s : State) : (feed P b xs s).coef = s.coef := by
  induction xs generalizing s with
  | nil => rfl
  | cons x xs ih => rw [feed, ih, firStep_coef]

/-- Output n is that of FIR_STEP on input n, after the inputs before it. -/
theorem filterOutputs_at (P : Params) (b : Fin NSLOT) (xs : List Pair) (s : State) {n : Nat} {y : Pair}
    (h : (filterOutputs P b xs s)[n]? = some y) :
    ∃ x, xs[n]? = some x ∧ y = (firStep P b x (feed P b (xs.take n) s)).1 := by
  induction xs generalizing s n with
  | nil => simp [filterOutputs] at h
  | cons x xs ih =>
    cases n with
    | zero => exact ⟨x, rfl, (Option.some.inj h).symm⟩
    | succ n => exact ih _ h

/-- The window of step n after a clear holds the inputs up to 120 steps old, and ZERO before them (R98). -/
theorem window_feed (P : Params) (b : Fin NSLOT) (s : State) {xs : List Pair} {n : Nat} {x : Pair}
    (hx : xs[n]? = some x) (k : Fin F) :
    window (feed P b (xs.take n) (firClear b s)).dl[b] (feed P b (xs.take n) (firClear b s)).cur[b] x k =
      pastInput xs n k.val := by
  have hk : k.val < 121 := k.isLt
  have hlen : (xs.take n).length = n :=
    List.length_take_of_le (List.getElem?_eq_some_iff.1 hx).choose.le
  rw [window]
  split_ifs with h0
  · subst h0
    simp [pastInput, hx]
  · have hpos : k.val ≠ 0 := fun e => h0 (Fin.ext e)
    refine (slotHistory_feed P b s (xs.take n) (by omega) (by omega)).trans ?_
    rw [hlen, pastInput, pastInput]
    split_ifs with hle
    · rw [List.getElem?_take_of_lt (by omega)]
    · rfl

/-- Each lane of output n after a clear is the sum over the taps and the inputs up to 120 steps old. -/
theorem laneOf_filterOutput {P : Params} (hP : P.arith.subnormal = .ieee) {b : Fin NSLOT} {xs : List Pair} {s : State}
    {n : Nat} {y : Pair} (h : (filterOutputs P b xs (firClear b s))[n]? = some y) (i : Lane) :
    ∃ draw, laneOf i y =
      laneTapSum .ieee draw (fun k => laneOf i s.coef[b][k]) (fun k => laneOf i (pastInput xs n k.val)) := by
  obtain ⟨x, hx, rfl⟩ := filterOutputs_at P b xs _ h
  refine ⟨laneDraw i P (feed P b (xs.take n) (firClear b s)).draws, ?_⟩
  rw [firStep_output, laneOf_convolve, hP, feed_coef, firClear_coef]
  simp only [window_feed P b s hx]

theorem pastInput_finite {xs : List Pair} (h : ∀ x ∈ xs, PairFinite x) (n k : Nat) : PairFinite (pastInput xs n k) := by
  have hzero : PairFinite zeroPair := ⟨isFinite_zeroBits, isFinite_zeroBits⟩
  unfold pastInput
  split_ifs with hle
  · cases hx : xs[n - k]? with
    | none => exact hzero
    | some x => exact h x (List.mem_of_getElem? hx)
  · exact hzero

theorem isFinite_laneOf {x : Pair} (h : PairFinite x) (i : Lane) : isFinite (laneOf i x) = true := by
  cases i
  · exact h.1
  · exact h.2

theorem laneOf_zeroPair (i : Lane) : laneOf i zeroPair = zeroBits := by cases i <;> rfl

theorem laneOf_onePair (i : Lane) : laneOf i onePair = oneBits := by cases i <;> rfl

/-! ### The identity kernel -/

/-- The one product of the identity kernel is that of the input 60 steps old (R104). -/
theorem identityKernel_oneProduct {xs : List Pair} (hxs : ∀ x ∈ xs, PairFinite x) (n : Nat) (i : Lane) :
    OneProduct (fun k => laneOf i identityKernel[k]) (fun k => laneOf i (pastInput xs n k.val)) 60
      (laneOf i (pastInput xs n 60)) where
  taps_finite k := by
    rw [identityKernel_at]
    split_ifs
    · rw [laneOf_onePair, isFinite_one]
    · rw [laneOf_zeroPair, isFinite_zeroBits]
  line_finite k := isFinite_laneOf (pastInput_finite hxs n k.val) i
  value_finite := isFinite_laneOf (pastInput_finite hxs n 60) i
  live := by
    rw [identityKernel_at, if_pos (show (60 : Fin F).val = 60 from rfl), laneOf_onePair, laneVal_one, mul_comm]
    rfl
  dead k hk := by
    have hcentre : ¬ k.val = 60 := fun e => hk (Fin.ext e)
    rw [identityKernel_at, if_neg hcentre, laneOf_zeroPair, laneVal_zeroBits, zero_mul]

/-- Settles O51: the output stands for the input 60 steps old, or for zero where there was none. -/
theorem identityKernelIsAPureDelay : Obligations.IdentityKernelIsAPureDelay := by
  unfold Obligations.IdentityKernelIsAPureDelay
  intro P s b xs hP hK hxs n y hy
  have hlane (i : Lane) : StandsFor (laneVal (laneOf i (pastInput xs n 60))) (laneOf i y) := by
    obtain ⟨draw, hsum⟩ := laneOf_filterOutput hP hy i
    rw [hsum, hK]
    exact laneTapSum_standsFor draw (identityKernel_oneProduct hxs n i)
  refine ⟨fun hn => ?early, fun x hn hx => ?late⟩
  case early =>
    have hzero (i : Lane) : isZero (laneOf i y) = true := by
      have hval := (hlane i).2
      rwa [pastInput, if_neg (by omega), laneOf_zeroPair, laneVal_zeroBits, laneVal_eq_zero_iff] at hval
    exact ⟨hzero .l, hzero .r⟩
  case late =>
    have hpast : pastInput xs n 60 = x := by rw [pastInput, if_pos hn, hx, Option.getD_some]
    rw [hpast] at hlane
    exact ⟨⟨(hlane .l).1, (hlane .r).1⟩, (hlane .l).2, (hlane .r).2⟩

/-! ### The impulse response -/

/-- The impulse is k steps old at step k, and every other input is ZERO (R105). -/
theorem pastInput_impulse (m n k : Nat) :
    pastInput (onePair :: List.replicate m zeroPair) n k = if k = n then onePair else zeroPair := by
  unfold pastInput
  split_ifs with hle heq heq
  · simp [heq]
  · obtain ⟨d, hd⟩ : ∃ d, n - k = d + 1 := ⟨n - k - 1, by omega⟩
    rw [hd, List.getElem?_cons_succ, List.getElem?_replicate]
    split_ifs <;> rfl
  · omega
  · rfl

theorem impulse_oneProduct {K : Kernel} (hK : KernelFinite K) (m : Nat) (j : Fin F) (i : Lane) :
    OneProduct (fun k => laneOf i K[k])
      (fun k => laneOf i (pastInput (onePair :: List.replicate m zeroPair) j.val k.val)) j (laneOf i K[j]) where
  taps_finite k := isFinite_laneOf (hK k) i
  line_finite k := by
    rw [pastInput_impulse]
    split_ifs
    · rw [laneOf_onePair, isFinite_one]
    · rw [laneOf_zeroPair, isFinite_zeroBits]
  value_finite := isFinite_laneOf (hK j) i
  live := by rw [pastInput_impulse, if_pos rfl, laneOf_onePair, laneVal_one]
  dead k hk := by
    rw [pastInput_impulse, if_neg fun e => hk (Fin.ext e), laneOf_zeroPair, laneVal_zeroBits, mul_zero]

/-- From step 121 on the impulse has left the window: every product is a zero. -/
theorem impulse_past_oneProduct {K : Kernel} (hK : KernelFinite K) (m : Nat) {n : Nat} (hn : 121 ≤ n) (i : Lane) :
    OneProduct (fun k => laneOf i K[k])
      (fun k => laneOf i (pastInput (onePair :: List.replicate m zeroPair) n k.val)) 0 zeroBits := by
  have hzero (k : Fin F) : laneOf i (pastInput (onePair :: List.replicate m zeroPair) n k.val) = zeroBits := by
    have hk : k.val < 121 := k.isLt
    rw [pastInput_impulse, if_neg (by omega), laneOf_zeroPair]
  simp only [hzero]
  exact ⟨fun k => isFinite_laneOf (hK k) i, fun _ => isFinite_zeroBits, isFinite_zeroBits,
    by rw [laneVal_zeroBits, mul_zero, zero_mul], fun _ _ => by rw [laneVal_zeroBits, mul_zero]⟩

/-- A value that stands for the number of v is v, or both are zeros. -/
theorem eq_or_isZero_of_standsFor {v y : F32} (h : StandsFor (laneVal v) y) :
    if isZero v then isZero y = true else y = v := by
  split_ifs with hv
  · rw [← laneVal_eq_zero_iff, h.2, laneVal_eq_zero_iff, hv]
  · refine eq_of_laneVal_eq h.2 ?_
    rwa [h.2, Ne, laneVal_eq_zero_iff]

/-- Settles O52: output n stands for tap n, or for zero past the last tap. -/
theorem impulseBringsOutTheKernel : Obligations.ImpulseBringsOutTheKernel := by
  unfold Obligations.ImpulseBringsOutTheKernel
  intro P s b m n y hP hK hy
  refine ⟨fun k hk => ?tap, fun hn => ?past⟩
  case tap =>
    subst hk
    have hlane (i : Lane) : StandsFor (laneVal (laneOf i s.coef[b][k])) (laneOf i y) := by
      obtain ⟨draw, hsum⟩ := laneOf_filterOutput hP hy i
      rw [hsum]
      exact laneTapSum_standsFor draw (impulse_oneProduct hK m k i)
    exact ⟨eq_or_isZero_of_standsFor (hlane .l), eq_or_isZero_of_standsFor (hlane .r)⟩
  case past =>
    have hlane (i : Lane) : isZero (laneOf i y) = true := by
      obtain ⟨draw, hsum⟩ := laneOf_filterOutput hP hy i
      have hval := (laneTapSum_standsFor draw (impulse_past_oneProduct hK m hn i)).2
      rwa [← hsum, laneVal_zeroBits, laneVal_eq_zero_iff] at hval
    exact ⟨hlane .l, hlane .r⟩

end Sys2Proof.Machine
end

section
/-! The commands of the engine one by one, from a running core: INIT and RESET (R111, R116), the faults of UPDATE
and PROCESS in their order (R113, R118, R130), and what they leave when they run. -/

namespace Sys2Proof.Machine

open Sys2Proof.Config

/-! ### A command of a running core -/

/-- A running core enters a command that its check refuses as that fault (R107, R129). -/
theorem exec_fault {i : Instr} {s : State} {v : Violation} (h : Running s) (hc : commandCheck i s = some v) :
    exec i s = .next (faultEntry v (commandWord i) s) := by
  rw [exec_eq_execWith, execWith_eq_checked, checked_fault h hc]

/-- Fault entry, seen from the command that is refused (R129). -/
theorem exec_faultTaken {i : Instr} {s : State} {v : Violation} (h : Running s) (hc : commandCheck i s = some v) :
    ∃ t, exec i s = .next t ∧ FaultTaken v (commandWord i) s t :=
  ⟨_, exec_fault h hc, faultEntry_taken v (commandWord i) s⟩

/-- A running core performs a command that its check lets pass (R107). -/
theorem exec_run {i : Instr} {s : State} (h : Running s) (hc : commandCheck i s = none) :
    exec i s = .next (respond (dataWords i (ranState defaults i s)) (ranState defaults i s)) := by
  rw [exec_eq_execWith, execWith_eq_checked, checked_run h hc]

/-- Settles O7: the step of any core is its performance of the command at the port. -/
theorem stepPerformsTheDecodedCommand : Obligations.StepPerformsTheDecodedCommand :=
  fun _ _ _ hwf hin => commandStep_encode exec hwf hin

/-! ### INIT and RESET -/

theorem initCheck_some {mode : Nat} (h : mode ≠ 0) : initCheck mode = some ⟨.illegalMode, BitVec.ofNat 8 mode⟩ :=
  if_neg h

theorem clearLine_at (j : Fin L) : clearLine[j] = zeroPair := by simp [clearLine]

theorem exec_init_running {s : State} (h : Running s) :
    exec (.init 0) s = .next (respond [] (initEngine 0 s)) := exec_run (i := .init 0) h rfl

/-- Settles O14: mode 0 passes the check and INIT re-creates every slot; every other mode is refused. -/
theorem initRecreatesTheEngineOrFaults : Obligations.InitRecreatesTheEngineOrFaults := by
  unfold Obligations.InitRecreatesTheEngineOrFaults
  intro s mode hs _
  refine ⟨fun hmode => ?legal, fun hmode => exec_faultTaken hs (initCheck_some hmode)⟩
  subst hmode
  refine ⟨_, exec_init_running hs, ?_⟩
  rw [initEngine_eq]
  refine ⟨rfl, rfl, rfl, fun b k => ?coef, fun b j => ?line, fun b => ?cursor, fun b => ?output, ⟨rfl, rfl, rfl⟩,
    ⟨rfl, rfl⟩, rfl⟩
  case coef => rw [← identityKernel_at k]; simp
  case line => rw [← clearLine_at j]; simp
  case cursor => simp
  case output => simp

/-- Settles O15: FIR_CLEAR of the five slots writes DL and CUR alone. -/
theorem resetClearsEveryHistory : Obligations.ResetClearsEveryHistory := by
  unfold Obligations.ResetClearsEveryHistory
  intro s hs
  refine ⟨_, exec_reset_running hs, ?_⟩
  rw [clearAll_eq]
  refine ⟨fun b j => ?line, fun b => ?cursor, rfl, rfl, rfl, rfl, rfl, ⟨rfl, rfl, rfl⟩, ⟨rfl, rfl⟩, rfl⟩
  case line => rw [← clearLine_at j]; simp
  case cursor => simp

/-! ### UPDATE -/

/-- Settles O18: the machine at the default parameters is `exec` (log entry 6). -/
theorem updateLoadsTheBandKernels : Obligations.UpdateLoadsTheBandKernels := by
  unfold Obligations.UpdateLoadsTheBandKernels
  obtain ⟨-, -, hupdate, -⟩ := everyParameterChoiceHasItsMachine
  rw [exec_eq_execWith]
  exact hupdate defaults

/-- The first check of UPDATE is of the band count (R130). -/
theorem updateCheck_bandCount {nb : Nat} (sr : F32) (freqs : List F32) (h : nb < 2 ∨ 5 < nb) :
    updateCheck nb sr freqs = some ⟨.bandCount, BitVec.ofNat 8 nb⟩ := if_pos (legalBandCount_false h)

/-- The second is of the sample rate (R130). -/
theorem updateCheck_sampleRate {nb : Nat} {sr : F32} (freqs : List F32) (h2 : 2 ≤ nb) (h5 : nb ≤ 5)
    (hsr : ¬ SampleRateLegal sr) : updateCheck nb sr freqs = some ⟨.sampleRate, 0#8⟩ := by
  rw [← legalSampleRate_iff, Bool.not_eq_true] at hsr
  simp [updateCheck, legalBandCount_true h2 h5, hsr]

/-- The third is of FREQ[0..nb−2], and reports the lowest illegal index (R113, R130). -/
theorem updateCheck_frequency {nb : Nat} {sr f : F32} {freqs : List F32} {j : Nat} (h2 : 2 ≤ nb) (h5 : nb ≤ 5)
    (hsr : SampleRateLegal sr) (hj : (freqs.take (nb - 1))[j]? = some f) (hf : ¬ FrequencyLegal sr f)
    (hbelow : ∀ g ∈ freqs.take j, FrequencyLegal sr g) :
    updateCheck nb sr freqs = some ⟨.frequency, BitVec.ofNat 8 j⟩ := by
  have hlt : j < nb - 1 := by
    have hlen := (List.getElem?_eq_some_iff.1 hj).choose
    rw [List.length_take] at hlen
    omega
  have hused : (freqs.take (nb - 1)).take j = freqs.take j := by rw [List.take_take, min_eq_left hlt.le]
  unfold updateCheck
  rw [legalBandCount_true h2 h5, (legalSampleRate_iff sr).2 hsr]
  exact frequencyCheck_some sr _ hsr j f hj hf (hused ▸ hbelow)

/-- Settles O19, check by check. -/
theorem updateFaultsInOrder : Obligations.UpdateFaultsInOrder := by
  unfold Obligations.UpdateFaultsInOrder
  intro s nb sr f0 f1 f2 f3 hs _
  exact ⟨fun hnb => exec_faultTaken hs (updateCheck_bandCount sr _ hnb),
    fun ⟨h2, h5⟩ hsr => exec_faultTaken hs (updateCheck_sampleRate _ h2 h5 hsr),
    fun ⟨h2, h5⟩ hsr _ _ hj hf hbelow => exec_faultTaken hs (updateCheck_frequency h2 h5 hsr hj hf hbelow)⟩

/-- The checks of UPDATE read FREQ[0..nb−2] alone (R113). -/
theorem updateCheck_congr {nb : Nat} (sr : F32) {freqs freqs' : List F32}
    (h : freqs.take (nb - 1) = freqs'.take (nb - 1)) : updateCheck nb sr freqs = updateCheck nb sr freqs' := by
  unfold updateCheck
  rw [h]

/-- The kernels UPDATE loads are made of FREQ[0..nb−2] alone (R81, R114). -/
theorem updateEngine_congr (P : Params) {nb : Nat} (sr : F32) {freqs freqs' : List F32}
    (h : freqs.take (nb - 1) = freqs'.take (nb - 1)) : updateEngine P nb sr freqs = updateEngine P nb sr freqs' := by
  funext s
  unfold updateEngine assemble
  rw [h]

/-- Settles O20: neither the checks nor ASSEMBLE read the other frequencies, and the command word holds none. -/
theorem updateIgnoresUnusedFrequencies : Obligations.UpdateIgnoresUnusedFrequencies := by
  unfold Obligations.UpdateIgnoresUnusedFrequencies
  intro s nb sr f0 f1 f2 f3 g0 g1 g2 g3 h
  have hsame : updateWith defaults nb sr f0 f1 f2 f3 s = updateWith defaults nb sr g0 g1 g2 g3 s := by
    unfold updateWith
    rw [updateCheck_congr sr h, updateEngine_congr defaults sr h]
    rfl
  exact ⟨updateWith defaults nb sr f0 f1 f2 f3 s, rfl, congrArg Host.Outcome.next hsame.symm⟩

/-! ### PROCESS -/

/-- The first check of PROCESS is of the band count (R130). -/
theorem processCheck_bandCount {nb : Nat} (s : State) (h : nb < 2 ∨ 5 < nb) :
    processCheck nb s = some ⟨.bandCount, BitVec.ofNat 8 nb⟩ := if_pos (legalBandCount_false h)

/-- The second is that the loaded kernels cover the bands (R121, R130). -/
theorem processCheck_stale {nb : Nat} {s : State} (h2 : 2 ≤ nb) (h5 : nb ≤ 5) (hfsm : s.fsm ≠ .uninit)
    (hlt : s.cfgNb < nb) : processCheck nb s = some ⟨.staleCoefficients, BitVec.ofNat 8 nb⟩ := by
  simp [processCheck, legalBandCount_true h2 h5, hfsm, hlt]

/-- Settles O23, check by check. -/
theorem processFaultsInOrder : Obligations.ProcessFaultsInOrder := by
  unfold Obligations.ProcessFaultsInOrder
  intro s nb l r hs _
  exact ⟨fun hnb => exec_faultTaken hs (processCheck_bandCount s hnb),
    fun ⟨h2, h5⟩ hfsm hlt => exec_faultTaken hs (processCheck_stale h2 h5 hfsm hlt)⟩

/-- Settles O22: the slots and the frame by the machine at the default parameters, the response by the state that
PROCESS answers with. -/
theorem processStepsTheActiveSlots : Obligations.ProcessStepsTheActiveSlots := by
  unfold Obligations.ProcessStepsTheActiveSlots
  intro s nb l r hs h2 h5 hfresh
  obtain ⟨-, -, -, hprocess⟩ := everyParameterChoiceHasItsMachine
  obtain ⟨t, he, hactive, hinactive, hfsm, hcoef, hmode, hnb, hfault, hinput⟩ :=
    hprocess defaults s nb l r hs h2 h5 hfresh
  have hresp : t.resp = statusWord t :: t.faultWord :: outWords t := by
    obtain rfl := Host.Outcome.next.inj ((execWith_process_fresh defaults l r hs h2 h5 hfresh).symm.trans he)
    rfl
  rw [outWords_eq] at hresp
  rw [exec_eq_execWith]
  exact ⟨t, he, hactive, hinactive, hfsm, hcoef, hmode, hnb, hfault, hinput, hresp⟩

/-- PROCESS checks FSM and CFG_NB alone (R118, R121). -/
theorem processCheck_congr (nb : Nat) {s s' : State} (hfsm : s.fsm = s'.fsm) (hnb : s.cfgNb = s'.cfgNb) :
    processCheck nb s = processCheck nb s' := by
  unfold processCheck
  rw [hfsm, hnb]

theorem exec_process_running {nb : Nat} {l r : F32} {s : State} (h : Running s) (hc : processCheck nb s = none) :
    exec (.process nb l r) s = .next (processed defaults nb ⟨l, r⟩ s) := exec_run (i := .process nb l r) h hc

theorem exec_process_fault {nb : Nat} {l r : F32} {s : State} {v : Violation} (h : Running s)
    (hc : processCheck nb s = some v) :
    exec (.process nb l r) s = .next (faultEntry v (commandWord (.process nb l r)) s) :=
  exec_fault (i := .process nb l r) h hc

/-- What a PROCESS that runs leaves in an active slot (R97, R118). -/
theorem processed_active (P : Params) {nb : Nat} (x : Pair) (s : State) {b : Fin NSLOT} (hb : b.val < nb) :
    (processed P nb x s).dl[b] = s.dl[b].set s.cur[b] x ∧ (processed P nb x s).cur[b] = nextCursor s.cur[b] ∧
      (processed P nb x s).out[b] = convolve P (s.draws + drawsPerStep * b.val) s.coef[b] s.dl[b] s.cur[b] x :=
  stepSlots_at P nb x s b hb

/-- What it leaves in an inactive slot: everything (R119). -/
theorem processed_inactive (P : Params) {nb : Nat} (x : Pair) (s : State) {b : Fin NSLOT} (hb : nb ≤ b.val) :
    (processed P nb x s).dl[b] = s.dl[b] ∧ (processed P nb x s).cur[b] = s.cur[b] ∧
      (processed P nb x s).out[b] = s.out[b] :=
  stepSlots_other P nb x s b hb

/-- No PROCESS writes a kernel (R114). -/
theorem processed_coef (P : Params) (nb : Nat) (x : Pair) (s : State) : (processed P nb x s).coef = s.coef := by
  obtain ⟨d, c, o, hframe⟩ := processEngine_frame P nb x s
  rw [processed, hframe]
  rfl

/-- Settles O24: both cores refuse the PROCESS and keep the slot, or both run it, and what it leaves in the slot is
made of the slot, the input and the draws. -/
theorem activeSlotsShareNoState : Obligations.ActiveSlotsShareNoState := by
  unfold Obligations.ActiveSlotsShareNoState
  intro s s' t t' nb l r b hs hs' hb hfsm hnb hdraws hcoef hdl hcur hout he he'
  have hcheck := processCheck_congr nb hfsm hnb
  cases hc : processCheck nb s with
  | some v =>
    obtain rfl := Host.Outcome.next.inj ((exec_process_fault hs hc).symm.trans he)
    obtain rfl := Host.Outcome.next.inj ((exec_process_fault hs' (hcheck.symm.trans hc)).symm.trans he')
    exact ⟨hout, hdl, hcur⟩
  | none =>
    obtain rfl := Host.Outcome.next.inj ((exec_process_running hs hc).symm.trans he)
    obtain rfl := Host.Outcome.next.inj ((exec_process_running hs' (hcheck.symm.trans hc)).symm.trans he')
    obtain ⟨gdl, gcur, gout⟩ := processed_active defaults ⟨l, r⟩ s hb
    obtain ⟨gdl', gcur', gout'⟩ := processed_active defaults ⟨l, r⟩ s' hb
    refine ⟨?out, ?line, ?cursor⟩
    case out => rw [gout, gout', hdraws, hcoef, hdl, hcur]
    case line => simp only [gdl, gdl', hdl, hcur]
    case cursor => rw [gcur, gcur', hcur]

end Sys2Proof.Machine
end

section
/-! Streams of PROCESS commands against the filter of one slot fed by itself: an active slot has the history that
FIR_STEPs on the same inputs leave, and its outputs are theirs but for which NaN they are (R98, R118, R123). -/

namespace Sys2Proof.Machine

open Sys2Proof.Config

/-! ### The state of a stream -/

theorem sameFilter_refl (b : Fin NSLOT) (s : State) : SameFilter b s s := ⟨rfl, rfl, rfl⟩

/-- PROCESS does to an active slot what one FIR_STEP does to the same filter (R118). -/
theorem sameFilter_processed_firStep (P : Params) {nb : Nat} (x : Pair) {s u : State} {b : Fin NSLOT}
    (hb : b.val < nb) (h : SameFilter b s u) : SameFilter b (processed P nb x s) (firStep P b x u).2 := by
  obtain ⟨hdl, hcur, -⟩ := processed_active P x s hb
  refine ⟨?_, ?_, ?_⟩
  · rw [processed_coef, firStep_coef, h.kernel]
  · simp only [hdl, firStep_dl_at, h.line, h.cursor]
  · rw [hcur, firStep_cur_at, h.cursor]

/-- A stream of PROCESS commands feeds the filter of an active slot, by induction on the inputs. -/
theorem sameFilter_processAll_feed {nb : Nat} {b : Fin NSLOT} (h2 : 2 ≤ nb) (h5 : nb ≤ 5) (hb : b.val < nb)
    (xs : List Pair) {s u : State} (hs : ProcessReady nb s) (h : SameFilter b s u) :
    SameFilter b (processAll nb xs s) (feed defaults b xs u) := by
  induction xs generalizing s u with
  | nil => exact h
  | cons x xs ih =>
    rw [processAll_cons x xs h2 h5 hs, feed]
    exact ih (processReady_processed defaults x hs) (sameFilter_processed_firStep defaults x hb h)

/-- A stream leaves an inactive slot as it was, by induction on the inputs (R119). -/
theorem processAll_inactive {nb : Nat} {b : Fin NSLOT} (h2 : 2 ≤ nb) (h5 : nb ≤ 5) (hb : nb ≤ b.val)
    (xs : List Pair) {s : State} (hs : ProcessReady nb s) :
    (processAll nb xs s).dl[b] = s.dl[b] ∧ (processAll nb xs s).cur[b] = s.cur[b] ∧
      (processAll nb xs s).out[b] = s.out[b] := by
  induction xs generalizing s with
  | nil => exact ⟨rfl, rfl, rfl⟩
  | cons x xs ih =>
    rw [processAll_cons x xs h2 h5 hs]
    obtain ⟨hdl, hcur, hout⟩ := ih (processReady_processed defaults x hs)
    obtain ⟨gdl, gcur, gout⟩ := processed_inactive defaults x s hb
    exact ⟨hdl.trans gdl, hcur.trans gcur, hout.trans gout⟩

/-- Settles O25, the active and the inactive slots each by induction on the inputs. -/
theorem processStreamFeedsTheActiveSlots : Obligations.ProcessStreamFeedsTheActiveSlots := by
  unfold Obligations.ProcessStreamFeedsTheActiveSlots
  intro s nb xs b hs h2 h5 hfresh
  refine ⟨fun hb => ?active, fun hb => processAll_inactive h2 h5 hb xs ⟨hs, hfresh⟩⟩
  have hfilter := sameFilter_processAll_feed h2 h5 hb xs ⟨hs, hfresh⟩ (sameFilter_refl b s)
  exact ⟨hfilter.line, hfilter.cursor⟩

/-! ### The outputs of a stream -/

/-- The filter of slot b has the same kernel in both states and the same pairs behind its cursor, wherever the
cursor stands (R97). -/
structure SameResponse (b : Fin NSLOT) (s u : State) : Prop where
  kernel : s.coef[b] = u.coef[b]
  history : ∀ k, 1 ≤ k → k ≤ 128 → slotHistory b s k = slotHistory b u k

theorem slotHistory_of_sameFilter {b : Fin NSLOT} {s u : State} (h : SameFilter b s u) (k : Nat) :
    slotHistory b s k = slotHistory b u k := by
  rw [slotHistory, slotHistory, h.line, h.cursor]

/-- A convolution reads the pairs of its window, not where they stand in the delay line (R97). -/
theorem convolve_congr_window (P : Params) (d : Nat) (K : Kernel) {hist hist' : DelayLine} {p p' : Fin L} {x : Pair}
    (h : ∀ k, window hist p x k = window hist' p' x k) :
    convolve P d K hist p x = convolve P d K hist' p' x :=
  pair_ext_lane fun i => by rw [laneOf_convolve, laneOf_convolve]; simp only [h]

theorem window_of_sameResponse {b : Fin NSLOT} {s u : State} (h : SameResponse b s u) (x : Pair) (k : Fin F) :
    window s.dl[b] s.cur[b] x k = window u.dl[b] u.cur[b] x k := by
  have hk : k.val < 121 := k.isLt
  unfold window
  split_ifs with h0
  · rfl
  · have hpos : k.val ≠ 0 := fun e => h0 (Fin.ext e)
    exact h.history k.val (by omega) (by omega)

/-- PROCESS on an active slot and FIR_STEP on a filter of the same response answer alike, and leave them of the same
response (R118). -/
theorem processed_sameResponse (P : Params) {nb : Nat} (x : Pair) {s u : State} {b : Fin NSLOT} (hb : b.val < nb)
    (h : SameResponse b s u) :
    SameResponse b (processed P nb x s) (firStep P b x u).2 ∧
      PairAgrees (processed P nb x s).out[b] (firStep P b x u).1 := by
  have hstep := sameFilter_processed_firStep P x hb (sameFilter_refl b s)
  refine ⟨⟨?kernel, fun k h1 hk => ?history⟩, ?output⟩
  case kernel => rw [processed_coef, firStep_coef, h.kernel]
  case history =>
    obtain ⟨k, rfl⟩ := Nat.exists_eq_add_of_le' h1
    rw [slotHistory_of_sameFilter hstep, slotHistory_firStep P b x s (by omega),
      slotHistory_firStep P b x u (by omega)]
    split_ifs with h0
    · rfl
    · exact h.history k (Nat.pos_of_ne_zero h0) (by omega)
  case output =>
    obtain ⟨-, -, hout⟩ := processed_active P x s hb
    rw [hout, firStep_output, h.kernel, convolve_congr_window P _ _ (window_of_sameResponse h x)]
    exact convolve_agrees P _ _ _ _ _ x

/-- After a stream OUT of an active slot is the last output of a filter of the same response fed by itself, but for
which NaN it is (R94), by induction on the inputs. -/
theorem processAll_output {nb : Nat} {b : Fin NSLOT} (h2 : 2 ≤ nb) (h5 : nb ≤ 5) (hb : b.val < nb) (x : Pair)
    (xs : List Pair) {s u : State} (hs : ProcessReady nb s) (h : SameResponse b s u) :
    ∃ y, (filterOutputs defaults b (x :: xs) u)[xs.length]? = some y ∧
      PairAgrees (processAll nb (x :: xs) s).out[b] y := by
  induction xs generalizing x s u with
  | nil =>
    obtain ⟨-, hagree⟩ := processed_sameResponse defaults x hb h
    rw [processAll_cons x [] h2 h5 hs]
    exact ⟨_, rfl, hagree⟩
  | cons x' xs ih =>
    obtain ⟨hnext, -⟩ := processed_sameResponse defaults x hb h
    rw [processAll_cons x _ h2 h5 hs, filterOutputs, List.length_cons, List.getElem?_cons_succ]
    exact ih x' (processReady_processed defaults x hs) hnext

/-- A filter with a ZERO delay line responds as after a clear, at any cursor (R102). -/
theorem sameResponse_firClear {b : Fin NSLOT} {s : State} (h : ∀ j : Fin L, s.dl[b][j] = zeroPair) :
    SameResponse b s (firClear b s) :=
  ⟨rfl, fun k _ _ => (h _).trans (slotHistory_firClear b s k).symm⟩

/-! ### The impulse response of a stream -/

/-- Agreement with a value that is no NaN is equality (R94). -/
theorem eq_of_laneAgrees {a y : F32} (h : LaneAgrees a y) (hy : isFinite y = true) : a = y := by
  rcases h with rfl | ⟨-, hnan⟩
  · rfl
  · rw [isNaN_of_isFinite hy] at hnan
    cases hnan

theorem isZero_of_laneAgrees {a y : F32} (h : LaneAgrees a y) (hy : isZero y = true) : isZero a = true := by
  rw [eq_of_laneAgrees h (isFinite_of_isZero hy), hy]

/-- What brings out a finite tap does so but for which NaN, hence bit for bit. -/
theorem tap_of_laneAgrees {a y v : F32} (h : LaneAgrees a y) (hv : isFinite v = true)
    (hy : if isZero v then isZero y = true else y = v) : if isZero v then isZero a = true else a = v := by
  split_ifs at hy ⊢
  · exact isZero_of_laneAgrees h hy
  · subst hy
    exact eq_of_laneAgrees h hv

/-- Settles O26: the slot answers as its filter does after a clear, whose impulse response is O52's. -/
theorem processedImpulseBringsOutTheKernel : Obligations.ProcessedImpulseBringsOutTheKernel := by
  unfold Obligations.ProcessedImpulseBringsOutTheKernel
  intro s nb n b hs h2 h5 hfresh hb hzero hK
  obtain ⟨y, hy, hl, hr⟩ := processAll_output h2 h5 hb onePair (List.replicate n zeroPair) ⟨hs, hfresh⟩
    (sameResponse_firClear hzero)
  rw [List.length_replicate] at hy
  obtain ⟨htap, hpast⟩ := impulseBringsOutTheKernel defaults s b n n y rfl hK hy
  refine ⟨fun k hk => ?tap, fun hn => ?past⟩
  case tap =>
    obtain ⟨htapl, htapr⟩ := htap k hk
    exact ⟨tap_of_laneAgrees hl (hK k).1 htapl, tap_of_laneAgrees hr (hK k).2 htapr⟩
  case past =>
    obtain ⟨hpastl, hpastr⟩ := hpast hn
    exact ⟨isZero_of_laneAgrees hl hpastl, isZero_of_laneAgrees hr hpastr⟩

end Sys2Proof.Machine
end

section
/-! The halted core and the waiting core (R131, R140, R141): a halted core answers everything by a response alone
until power-on reset, and a core without a complete command holds its state. -/

namespace Sys2Proof.Machine

open Sys2Proof.Config

/-! ### What keeps the persistent state -/

theorem samePersistent_refl (s : State) : SamePersistent s s :=
  ⟨rfl, rfl, rfl, rfl, rfl, rfl, rfl, rfl, rfl, rfl⟩

/-- The host's side of the port is no persistent state (R16). -/
theorem samePersistent_setInput (es : List HostEvent) (s : State) : SamePersistent s (s.setInput es) :=
  ⟨rfl, rfl, rfl, rfl, rfl, rfl, rfl, rfl, rfl, rfl⟩

/-- A response is no persistent state (R16, R57). -/
theorem samePersistent_respond {s u : State} (data : List Word) (h : SamePersistent s u) :
    SamePersistent s (respond data u) := h

/-! ### The halted core -/

/-- Settles O9: a halted core's whole performance of a command is its response. -/
theorem haltedCorePerformsNoCommand : Obligations.HaltedCorePerformsNoCommand := by
  unfold Obligations.HaltedCorePerformsNoCommand
  intro s i hs
  exact ⟨respond [] s, exec_halted i hs, samePersistent_respond [] (samePersistent_refl s), ⟨rfl, rfl⟩,
    respond_resp [] s⟩

/-- A halted core answers a word that encodes no command as it answers a command (R131). -/
theorem rejectWord_halted (f : DecodeFault) (w : Word) {s : State} (h : ¬ Running s) :
    rejectWord f w s = respond [] s := checked_halted h

/-- Waiting applies the power-on reset that follows the host's words, or changes nothing (R140, R141). -/
theorem waitForHost_cases (s : State) :
    (∃ rest, afterWords s.input = .powerOn :: rest ∧ waitForHost s = powerOnReset rest s) ∨
      waitForHost s = s := by
  unfold waitForHost
  split
  next rest hafter => exact .inl ⟨rest, hafter, rfl⟩
  next => exact .inr rfl

/-- All that a step of a halted core can do: take the words of a bundle and answer it, or wait (R131). -/
theorem step_halted_cases {s : State} (h : ¬ Running s) :
    (∃ n, step s = .next (respond [] (s.setInput (s.input.drop n)))) ∨ step s = .next (waitForHost s) := by
  unfold step
  rcases commandStep_cases exec s with ⟨i, n, -, e⟩ | ⟨f, w, n, -, e⟩ | ⟨-, e⟩
  · have htaken : ¬ Running (s.setInput (s.input.drop n)) := h
    exact .inl ⟨n, e.trans (exec_halted i htaken)⟩
  · have htaken : ¬ Running (s.setInput (s.input.drop n)) := h
    exact .inl ⟨n, e.trans (congrArg Host.Outcome.next (rejectWord_halted f w htaken))⟩
  · exact .inr e

/-- Settles O10: an answer keeps the persistent state, and so does waiting unless it applies a power-on reset. -/
theorem onlyPowerOnResetLeavesTheHalt : Obligations.OnlyPowerOnResetLeavesTheHalt := by
  unfold Obligations.OnlyPowerOnResetLeavesTheHalt
  intro s hs
  rcases step_halted_cases hs with ⟨n, hanswer⟩ | hwait
  · exact ⟨_, hanswer, .inl (samePersistent_respond [] (samePersistent_setInput _ s))⟩
  · refine ⟨_, hwait, ?_⟩
    rcases waitForHost_cases s with ⟨rest, hafter, hreset⟩ | hsame
    · rw [hreset]
      exact .inr ⟨mem_of_afterWords hafter, powerOnReset_persistent rest s⟩
    · rw [hsame]
      exact .inl (samePersistent_refl s)

/-! ### The waiting core -/

theorem leadingWords_map_word (ws : List Word) : leadingWords (ws.map .word) = ws := by
  simpa [leadingWords] using leadingWords_append ws []

theorem afterWords_map_word (ws : List Word) : afterWords (ws.map .word) = [] := by
  simpa [afterWords] using afterWords_append ws []

/-- With words alone at the port no power-on reset can be applied, so waiting changes nothing (R140). -/
theorem waitForHost_of_words {s : State} {ws : List Word} (hin : s.input = ws.map .word) : waitForHost s = s := by
  rcases waitForHost_cases s with ⟨rest, hafter, -⟩ | hsame
  · rw [hin, afterWords_map_word] at hafter
    cases hafter
  · exact hsame

/-- However a core performs its commands, it waits on an incomplete bundle (log entry 9). -/
theorem commandStep_incomplete (perform : Instr → State → Host.Outcome State Fault Refusal) {s : State}
    (h : decode (leadingWords s.input) = .incomplete) : commandStep perform s = .next (waitForHost s) := by
  simp only [commandStep, h]

/-- Settles O12: the step waits, and no power-on reset stands behind the words. -/
theorem waitingCoreHoldsItsState : Obligations.WaitingCoreHoldsItsState := by
  unfold Obligations.WaitingCoreHoldsItsState
  intro s ws hin hincomplete
  have hdecode : decode (leadingWords s.input) = .incomplete := by rw [hin, leadingWords_map_word, hincomplete]
  have hwait : step s = .next (waitForHost s) := commandStep_incomplete exec hdecode
  rw [hwait, waitForHost_of_words hin]

end Sys2Proof.Machine
end
